-- ==== Sys2Proof/Word.lean ====
section
/-! DEFINITION. The three widths of the spec (00_scope.md R8, R9): bytes, 16-bit scalars and 32-bit command words.
Everything in this block is unsigned and wraps at its width, which is what BitVec arithmetic does. -/

namespace Sys2Proof

/-- A byte: one link byte, one device register value, one buffer element (R8, R9). -/
abbrev Byte := BitVec 8

/-- A 16-bit scalar: a CRC-16 Value, RVAL, RBITLEN (R8, R26). -/
abbrev Half := BitVec 16

/-- A host command word, W0 or W1 (R70, R71). -/
abbrev Word := BitVec 32

end Sys2Proof
end

