-- ==== Sys2Proof/Config.lean ====
section
/-! DEFINITION. The configuration record of 00_scope.md R7 (every row a field, its default the table's value) and the free
values: the constants with no body that stand for what the spec leaves open. -/

namespace Sys2Proof

/-- P_BACKEND: which controller an instance drives (R7, R38, R76; 92 D4). -/
inductive Backend where
  | ctrlA
  | ctrlB
deriving DecidableEq, Repr, Inhabited

/-- The environment's answer to one transaction (20_memory.md R52): any byte, or a failed transfer.
For LinkTx, and for the returned byte of a register write, the byte carries no meaning. -/
inductive Answer where
  | ok (v : Byte)
  | fail
deriving DecidableEq, Repr, Inhabited

/-- The Command Frame constants (30_encoding.md R80; 92 D7). -/
structure FrameConsts where
  pre0 : Byte := 0x00
  pre1 : Byte := 0x00
  start : Byte := 0xFF
  tfiH2C : Byte := 0xD4
  tfiC2H : Byte := 0xD5
  post : Byte := 0x00
deriving DecidableEq, Repr, Inhabited

/-- The link markers and the ready value (R82; 92 D11). -/
structure LinkConsts where
  mkWrite : Byte := 0x01
  mkStatus : Byte := 0x02
  mkRead : Byte := 0x03
  ready : Byte := 0x01
deriving DecidableEq, Repr, Inhabited

/-- The direction bit and dummy byte of a register transaction (R83; 92 D18). -/
structure BusConsts where
  readBit : Byte := 0x80
  writeBit : Byte := 0x00
  dummy : Byte := 0x00
deriving DecidableEq, Repr, Inhabited

/-- The Controller-B register indices the block names (R84, first table; 92 D19). -/
structure RegMap where
  command : Byte := 0x01
  comIen : Byte := 0x02
  comIrq : Byte := 0x04
  divIrq : Byte := 0x05
  error : Byte := 0x06
  fifoData : Byte := 0x09
  fifoLevel : Byte := 0x0A
  control : Byte := 0x0C
  bitFraming : Byte := 0x0D
  mode : Byte := 0x11
  txControl : Byte := 0x14
  txAsk : Byte := 0x15
  crcResultH : Byte := 0x21
  crcResultL : Byte := 0x22
  tMode : Byte := 0x2A
  tPrescaler : Byte := 0x2B
  tReloadH : Byte := 0x2C
  tReloadL : Byte := 0x2D
deriving DecidableEq, Repr, Inhabited

/-- The Controller-B bit masks (R84, second table; 92 D19). -/
structure BitMasks where
  comIenIrqInv : Byte := 0x80
  comIrqSet1 : Byte := 0x80
  irqTimer : Byte := 0x01
  irqErr : Byte := 0x02
  irqLoAlert : Byte := 0x04
  irqIdle : Byte := 0x10
  irqRx : Byte := 0x20
  irqTx : Byte := 0x40
  divIrqCrc : Byte := 0x04
  errProtocol : Byte := 0x01
  errColl : Byte := 0x08
  errBufOvfl : Byte := 0x10
  fifoLevelFlush : Byte := 0x80
  fifoLevelCount : Byte := 0x7F
  controlRxLastBits : Byte := 0x07
  bitFramingStartSend : Byte := 0x80
  txControlAnt : Byte := 0x03
deriving DecidableEq, Repr, Inhabited

/-- The device command codes (R84, third table; 92 D19). -/
structure DeviceCmds where
  idle : Byte := 0x0
  calcCrc : Byte := 0x3
  transceive : Byte := 0xC
  mfAuthent : Byte := 0xE
  softReset : Byte := 0xF
deriving DecidableEq, Repr, Inhabited

/-- The interrupt-enable and stop masks of each command class (R85, 43 R172; 92 D20). -/
structure ClassTable where
  ienAuth : Byte := 0x12
  waitAuth : Byte := 0x10
  ienTransceive : Byte := 0x77
  waitTransceive : Byte := 0x30
  ienOther : Byte := 0x00
  waitOther : Byte := 0x00
deriving DecidableEq, Repr, Inhabited

/-- The configuration record of R7. The defaults are the table's values; only P_BACKEND has none (OPEN). -/
structure Config where
  backend : Backend
  framePayloadMax : Nat := 62
  bufMax : Nat := 262
  rxMax : Nat := 262
  pollStepMs : Nat := 10
  irqPollMax : Nat := 150
  irqPollDelayUs : Nat := 200
  crcPollMax : Nat := 254
  resetSettleUs : Nat := 50000
  respMax : Nat := 64
  fifoDepth : Nat := 64
  crcPreset : Half := 0x6363
  crcPolyRefl : Half := 0x8408
  frame : FrameConsts := {}
  ack : List Byte := [0x00, 0x00, 0xFF, 0x00, 0xFF, 0x00]
  link : LinkConsts := {}
  bus : BusConsts := {}
  regs : RegMap := {}
  masks : BitMasks := {}
  cmds : DeviceCmds := {}
  classes : ClassTable := {}
  /-- RESET_PROGRAM (43 R186): TMODE, TPRESCALER, TRELOAD_L, TRELOAD_H, TXASK, MODE, in that order. -/
  resetProgram : List (Byte × Byte) :=
    [(0x2A, 0x8D), (0x2B, 0x3E), (0x2D, 0x1E), (0x2C, 0x00), (0x15, 0x40), (0x11, 0x3D)]
deriving DecidableEq, Repr, Inhabited

/-- The default record of R7 for a given P_BACKEND. -/
def Config.standard (b : Backend) : Config := { backend := b }

/-- ERR_NORESP_MASK = ERR_PROTOCOL | ERR_BUFOVFL (R84). -/
def Config.errNoResp (c : Config) : Byte := c.masks.errProtocol ||| c.masks.errBufOvfl

/-- The limits a configuration must respect for the other files' bounds to make sense: P_RESP_MAX is at least 18 (R7), RDATA
holds every result (R29), the length byte of a built frame holds n + 1 (R80), ACK has six bytes (R81), and each poll loop
makes at least one poll. P_BUF_MAX is at least 262, the largest frame the parser can accept (92 D5). -/
abbrev Config.Wf (c : Config) : Prop :=
  262 ≤ c.bufMax ∧ 18 ≤ c.respMax ∧ c.respMax ≤ c.bufMax ∧ c.rxMax ≤ c.bufMax ∧ c.framePayloadMax + 8 ≤ c.bufMax ∧
  c.framePayloadMax ≤ 254 ∧ c.bufMax < 65536 ∧ c.ack.length = 6 ∧ 1 ≤ c.pollStepMs ∧ 1 ≤ c.irqPollMax ∧
  1 ≤ c.crcPollMax

/-- P_BACKEND of the instance that State.reset describes: OPEN (R7; 92 D4), so no value is given.
DESIGN CHOICE, safe: notes/assumptions/2.md. -/
opaque Config.startupBackend : Backend

/-- The environment's free draw (R52) for the transaction number `n`, used when no scripted answer is left.
DESIGN CHOICE, safe: notes/assumptions/3.md. -/
opaque Config.freeAnswer (n : Nat) : Answer

/-- What RVAL holds for an error information `k` that does not fit 16 bits: the spec states no value (60 R200, R203).
DESIGN CHOICE, safe: notes/assumptions/7.md. -/
opaque Config.freeInfo (k : Nat) : Half

/-- The level DOUT is left at by a LinkTx that failed part way, for the transaction number `n` (41 R120, R121 state none).
DESIGN CHOICE, safe: notes/assumptions/8.md. -/
opaque Config.freeLevel (n : Nat) : Bool

end Sys2Proof
end

