-- ==== Sys2Proof/Syntax.lean ====
section
/-! DEFINITION. The command set: one constructor per row of spec/opcode_table.json (30_encoding.md R74), with the operands of
R73, and the names the encoding is written with (opcodes and formats). -/

namespace Sys2Proof

/-- The frame direction operand: `dir = W0[8]`, 0 for host→controller and 1 for controller→host (R73, R80). -/
inductive Dir where
  | h2c
  | c2h
deriving DecidableEq, Repr, Inhabited

/-- The 22 commands of R74. `reg` and `cmd` are zero-extended to a byte, as R73 writes them; WellFormed says which values they
take. -/
inductive Instr where
  | crc16
  | crcAppend
  | crcCheck
  | frameBuild (dir : Dir)
  | frameParse (dir : Dir)
  | ackMatch
  | writeCommand
  | readData (n : Half)
  | isReady
  | waitReady (t : Word)
  | readAck
  | sendCheckAck (t : Word)
  | exchange (n : Half) (t : Word)
  | readReg (reg : Byte)
  | writeReg (reg val : Byte)
  | setBitmask (reg mask : Byte)
  | clearBitmask (reg mask : Byte)
  | executeCommand (cmd : Byte)
  | calcCrc
  | reset
  | antennaOn
  | antennaOff
deriving DecidableEq, Repr, Inhabited

/-- The opcode names of R74, one per row. -/
inductive Opcode where
  | crc16 | crcAppend | crcCheck
  | frameBuild | frameParse | ackMatch
  | writeCommand | readData | isReady | waitReady | readAck | sendCheckAck | exchange
  | readReg | writeReg | setBitmask | clearBitmask | executeCommand | calcCrc | reset | antennaOn | antennaOff
deriving DecidableEq, Repr, Inhabited

/-- The eight formats of R72. -/
inductive Format where
  | n | r | rv | c | d | l | t | lt
deriving DecidableEq, Repr, Inhabited

/-- The pseudo-instructions of R87. -/
inductive Pseudo where
  | flushFifo
  | deviceIdle
  | antennaOnRmw
  | antennaOffRmw
deriving DecidableEq, Repr, Inhabited

end Sys2Proof
end

