-- ==== Sys2Proof/WellFormed.lean ====
section
/-! DEFINITION. Which instructions the encoding can express (30_encoding.md R73): a register index is 0 to 63 and a device command
code 0 to 15; every other operand takes every value of its width. -/

namespace Sys2Proof

/-- A register index fits its 6-bit field (R73; 92 D37). -/
abbrev RegOk (reg : Byte) : Prop := reg.toNat < 64

/-- A device command code fits its 4-bit field (R73). -/
abbrev CmdOk (cmd : Byte) : Prop := cmd.toNat < 16

/-- The instruction's operands fit the fields of its format (R72, R73). -/
def Instr.wellFormed : Instr → Bool
  | .crc16 => true
  | .crcAppend => true
  | .crcCheck => true
  | .frameBuild _ => true
  | .frameParse _ => true
  | .ackMatch => true
  | .writeCommand => true
  | .readData _ => true
  | .isReady => true
  | .waitReady _ => true
  | .readAck => true
  | .sendCheckAck _ => true
  | .exchange _ _ => true
  | .readReg reg => decide (RegOk reg)
  | .writeReg reg _ => decide (RegOk reg)
  | .setBitmask reg _ => decide (RegOk reg)
  | .clearBitmask reg _ => decide (RegOk reg)
  | .executeCommand cmd => decide (CmdOk cmd)
  | .calcCrc => true
  | .reset => true
  | .antennaOn => true
  | .antennaOff => true

/-- The well-formedness check as a proposition. -/
abbrev Instr.WellFormed (i : Instr) : Prop := i.wellFormed = true

end Sys2Proof
end

