-- ==== Sys2Proof/Decode.lean ====
section
/-! DEFINITION. Decoding and encoding of host command words (30_encoding.md R70 to R78, R87). Decoding is total on any list of
words and names the reason it rejects one. -/

namespace Sys2Proof

/-- Why a word list is no command (R75, R78). -/
inductive DecodeError where
  /-- OPC is not in R74 (R75, first case). -/
  | unassignedOpcode (opc : Byte)
  /-- A bit that R72 marks `0` for the format is 1 (R75, second case). -/
  | mustBeZero (w0 : Word)
  /-- No word at all. -/
  | missingW0
  /-- A format with an extension word (R71, R78) and no W1. -/
  | missingW1
deriving DecidableEq, Repr

/-- OPC = W0[7:0] (R70). -/
def opcField (w0 : Word) : Byte := w0.extractLsb' 0 8

/-- The opcode column of R74. -/
def Opcode.code : Opcode → Byte
  | .crc16 => 0x10
  | .crcAppend => 0x11
  | .crcCheck => 0x12
  | .frameBuild => 0x20
  | .frameParse => 0x21
  | .ackMatch => 0x22
  | .writeCommand => 0x30
  | .readData => 0x31
  | .isReady => 0x32
  | .waitReady => 0x33
  | .readAck => 0x34
  | .sendCheckAck => 0x35
  | .exchange => 0x36
  | .readReg => 0x40
  | .writeReg => 0x41
  | .setBitmask => 0x42
  | .clearBitmask => 0x43
  | .executeCommand => 0x44
  | .calcCrc => 0x45
  | .reset => 0x46
  | .antennaOn => 0x47
  | .antennaOff => 0x48

/-- The format column of R74. -/
def Opcode.format : Opcode → Format
  | .crc16 => .n
  | .crcAppend => .n
  | .crcCheck => .n
  | .frameBuild => .d
  | .frameParse => .d
  | .ackMatch => .n
  | .writeCommand => .n
  | .readData => .l
  | .isReady => .n
  | .waitReady => .t
  | .readAck => .n
  | .sendCheckAck => .t
  | .exchange => .lt
  | .readReg => .r
  | .writeReg => .rv
  | .setBitmask => .rv
  | .clearBitmask => .rv
  | .executeCommand => .c
  | .calcCrc => .n
  | .reset => .n
  | .antennaOn => .n
  | .antennaOff => .n

/-- The backend column of R74; `none` is "any". -/
def Opcode.backend : Opcode → Option Backend
  | .crc16 => none
  | .crcAppend => none
  | .crcCheck => none
  | .frameBuild => none
  | .frameParse => none
  | .ackMatch => none
  | .writeCommand => some .ctrlA
  | .readData => some .ctrlA
  | .isReady => some .ctrlA
  | .waitReady => some .ctrlA
  | .readAck => some .ctrlA
  | .sendCheckAck => some .ctrlA
  | .exchange => some .ctrlA
  | .readReg => some .ctrlB
  | .writeReg => some .ctrlB
  | .setBitmask => some .ctrlB
  | .clearBitmask => some .ctrlB
  | .executeCommand => some .ctrlB
  | .calcCrc => some .ctrlB
  | .reset => some .ctrlB
  | .antennaOn => some .ctrlB
  | .antennaOff => some .ctrlB

/-- The mnemonic column of R74. -/
def Opcode.mnemonic : Opcode → String
  | .crc16 => "CRC16"
  | .crcAppend => "CRC_APPEND"
  | .crcCheck => "CRC_CHECK"
  | .frameBuild => "FRAME_BUILD"
  | .frameParse => "FRAME_PARSE"
  | .ackMatch => "ACK_MATCH"
  | .writeCommand => "WRITE_COMMAND"
  | .readData => "READ_DATA"
  | .isReady => "IS_READY"
  | .waitReady => "WAIT_READY"
  | .readAck => "READ_ACK"
  | .sendCheckAck => "SEND_CHECK_ACK"
  | .exchange => "EXCHANGE"
  | .readReg => "READ_REG"
  | .writeReg => "WRITE_REG"
  | .setBitmask => "SET_BITMASK"
  | .clearBitmask => "CLEAR_BITMASK"
  | .executeCommand => "EXECUTE_COMMAND"
  | .calcCrc => "CALC_CRC"
  | .reset => "RESET"
  | .antennaOn => "ANTENNA_ON"
  | .antennaOff => "ANTENNA_OFF"

/-- The rows of R74, in the table's order. -/
def Opcode.all : List Opcode :=
  [.crc16, .crcAppend, .crcCheck, .frameBuild, .frameParse, .ackMatch, .writeCommand, .readData, .isReady,
   .waitReady, .readAck, .sendCheckAck, .exchange, .readReg, .writeReg, .setBitmask, .clearBitmask,
   .executeCommand, .calcCrc, .reset, .antennaOn, .antennaOff]

/-- The row of R74 with a given OPC; `none` for the 234 unassigned opcodes (R75). -/
def Opcode.ofCode (b : Byte) : Option Opcode := Opcode.all.find? fun o => o.code = b

/-- The bits of W0 that R72 marks `0` for a format. -/
def Format.zeroBits : Format → Word
  | .n => 0xFFFFFF00
  | .r => 0xFFFFC000
  | .rv => 0xFF00C000
  | .c => 0xFFFFF000
  | .d => 0xFFFFFE00
  | .l => 0x0000FF00
  | .t => 0xFFFFFF00
  | .lt => 0x0000FF00

/-- Formats T and LT take a second word W1 (R72, R78). -/
def Format.hasW1 : Format → Bool
  | .n => false
  | .r => false
  | .rv => false
  | .c => false
  | .d => false
  | .l => false
  | .t => true
  | .lt => true

/-- `reg = zext_8(W0[13:8])` (R73). -/
def regField (w0 : Word) : Byte := (w0.extractLsb' 8 6).setWidth 8

/-- `val = W0[23:16]` (R73). -/
def valField (w0 : Word) : Byte := w0.extractLsb' 16 8

/-- `cmd = zext_8(W0[11:8])` (R73). -/
def cmdField (w0 : Word) : Byte := (w0.extractLsb' 8 4).setWidth 8

/-- `dir = W0[8]` (R73). -/
def dirField (w0 : Word) : Dir := if w0.getLsbD 8 then .c2h else .h2c

/-- `n = W0[31:16]` (R73). -/
def lenField (w0 : Word) : Half := w0.extractLsb' 16 16

/-- The instruction of an opcode with the operands of R73. -/
def Opcode.build (w0 w1 : Word) : Opcode → Instr
  | .crc16 => .crc16
  | .crcAppend => .crcAppend
  | .crcCheck => .crcCheck
  | .frameBuild => .frameBuild (dirField w0)
  | .frameParse => .frameParse (dirField w0)
  | .ackMatch => .ackMatch
  | .writeCommand => .writeCommand
  | .readData => .readData (lenField w0)
  | .isReady => .isReady
  | .waitReady => .waitReady w1
  | .readAck => .readAck
  | .sendCheckAck => .sendCheckAck w1
  | .exchange => .exchange (lenField w0) w1
  | .readReg => .readReg (regField w0)
  | .writeReg => .writeReg (regField w0) (valField w0)
  | .setBitmask => .setBitmask (regField w0) (valField w0)
  | .clearBitmask => .clearBitmask (regField w0) (valField w0)
  | .executeCommand => .executeCommand (cmdField w0)
  | .calcCrc => .calcCrc
  | .reset => .reset
  | .antennaOn => .antennaOn
  | .antennaOff => .antennaOff

/-- Decoding of a latched command (R74, R75): W1 matters only to formats T and LT (R22). -/
def decodeWords (w0 w1 : Word) : Except DecodeError Instr :=
  match Opcode.ofCode (opcField w0) with
  | none => .error (.unassignedOpcode (opcField w0))
  | some o => if w0 &&& o.format.zeroBits = 0 then .ok (o.build w0 w1) else .error (.mustBeZero w0)

/-- Decoding of the next command of a word list, with the words left (R78: OPC alone gives the length). -/
def decode : List Word → Except DecodeError (Instr × List Word)
  | [] => .error .missingW0
  | w0 :: rest =>
    match decodeWords w0 (rest.headD 0) with
    | .error e => .error e
    | .ok i =>
      if ((Opcode.ofCode (opcField w0)).map fun o => o.format.hasW1) = some true then
        (match rest with
         | [] => .error .missingW1
         | _ :: rest' => .ok (i, rest'))
      else .ok (i, rest)

/-- The opcode of an instruction (R74). -/
def Instr.opcode : Instr → Opcode
  | .crc16 => .crc16
  | .crcAppend => .crcAppend
  | .crcCheck => .crcCheck
  | .frameBuild _ => .frameBuild
  | .frameParse _ => .frameParse
  | .ackMatch => .ackMatch
  | .writeCommand => .writeCommand
  | .readData _ => .readData
  | .isReady => .isReady
  | .waitReady _ => .waitReady
  | .readAck => .readAck
  | .sendCheckAck _ => .sendCheckAck
  | .exchange _ _ => .exchange
  | .readReg _ => .readReg
  | .writeReg _ _ => .writeReg
  | .setBitmask _ _ => .setBitmask
  | .clearBitmask _ _ => .clearBitmask
  | .executeCommand _ => .executeCommand
  | .calcCrc => .calcCrc
  | .reset => .reset
  | .antennaOn => .antennaOn
  | .antennaOff => .antennaOff

/-- FC ++ FB ++ FA ++ OPC (R70). -/
def packW0 (fc fb fa opc : Byte) : Word := fc ++ fb ++ fa ++ opc

/-- FA of an instruction: register index, device command code or direction (R70, R72). -/
def Instr.fieldA : Instr → Byte
  | .frameBuild dir => if dir = .c2h then 1 else 0
  | .frameParse dir => if dir = .c2h then 1 else 0
  | .readReg reg => reg
  | .writeReg reg _ => reg
  | .setBitmask reg _ => reg
  | .clearBitmask reg _ => reg
  | .executeCommand cmd => cmd
  | .crc16 | .crcAppend | .crcCheck | .ackMatch | .writeCommand | .readData _ | .isReady | .waitReady _ | .readAck
  | .sendCheckAck _ | .exchange _ _ | .calcCrc | .reset | .antennaOn | .antennaOff => 0

/-- FB of an instruction: value or mask, or the low byte of n (R70, R72). -/
def Instr.fieldB : Instr → Byte
  | .readData n => n.extractLsb' 0 8
  | .exchange n _ => n.extractLsb' 0 8
  | .writeReg _ val => val
  | .setBitmask _ mask => mask
  | .clearBitmask _ mask => mask
  | .crc16 | .crcAppend | .crcCheck | .frameBuild _ | .frameParse _ | .ackMatch | .writeCommand | .isReady
  | .waitReady _ | .readAck | .sendCheckAck _ | .readReg _ | .executeCommand _ | .calcCrc | .reset | .antennaOn
  | .antennaOff => 0

/-- FC of an instruction: the high byte of n (R70, R72). -/
def Instr.fieldC : Instr → Byte
  | .readData n => n.extractLsb' 8 8
  | .exchange n _ => n.extractLsb' 8 8
  | .crc16 | .crcAppend | .crcCheck | .frameBuild _ | .frameParse _ | .ackMatch | .writeCommand | .isReady
  | .waitReady _ | .readAck | .sendCheckAck _ | .readReg _ | .writeReg _ _ | .setBitmask _ _ | .clearBitmask _ _
  | .executeCommand _ | .calcCrc | .reset | .antennaOn | .antennaOff => 0

/-- W0 of an instruction (R70, R72). -/
def encodeW0 (i : Instr) : Word := packW0 i.fieldC i.fieldB i.fieldA i.opcode.code

/-- W1 of an instruction of format T or LT (R71); 0 where the format has none. -/
def encodeW1 : Instr → Word
  | .waitReady t => t
  | .sendCheckAck t => t
  | .exchange _ t => t
  | .crc16 | .crcAppend | .crcCheck | .frameBuild _ | .frameParse _ | .ackMatch | .writeCommand | .readData _
  | .isReady | .readAck | .readReg _ | .writeReg _ _ | .setBitmask _ _ | .clearBitmask _ _ | .executeCommand _
  | .calcCrc | .reset | .antennaOn | .antennaOff => 0

/-- The words of an instruction: W0, and W1 when present (R78, R79). -/
def encode (i : Instr) : List Word :=
  if i.opcode.format.hasW1 then [encodeW0 i, encodeW1 i] else [encodeW0 i]

/-- The expansion of a pseudo-instruction (R87), with the register names of the configuration (R84). -/
def Pseudo.expand (c : Config) : Pseudo → Instr
  | .flushFifo => .setBitmask c.regs.fifoLevel 0x80
  | .deviceIdle => .writeReg c.regs.command 0x00
  | .antennaOnRmw => .setBitmask c.regs.txControl 0x03
  | .antennaOffRmw => .clearBitmask c.regs.txControl 0x03

/-- The host's view of a table word: bits 31..0 are W0 and bits 63..32 are W1; bits from `nbits` on are 0. -/
def tableWords (nbits w : Nat) : Word × Word :=
  (BitVec.ofNat 32 (w % 2 ^ nbits), BitVec.ofNat 32 (w % 2 ^ nbits / 2 ^ 32))

/-- The instruction the decoder reads from a table word. -/
def decodeTableWord (nbits w : Nat) : Option Instr :=
  match decode [(tableWords nbits w).1, (tableWords nbits w).2] with
  | .ok (i, _) => some i
  | .error _ => none

end Sys2Proof
end

