-- ==== Sys2Proof/Machine/State.lean ====
section
/-! DEFINITION. The state of the block (10_state.md), its inputs and its trace (20_memory.md R52, R53), the reasons a step can
stop, and the state after reset (10_state.md R42). All plain data. -/

namespace Sys2Proof.Machine

/-- The error codes of 60_exceptions.md R200, codes 0 to 10 in order (93 U4: codes 11 to 15 are never written). -/
inductive Status where
  | ok
  | transport
  | framing
  | timeout
  | tagAbsent
  | collision
  | integrity
  | auth
  | parameter
  | illegal
  | backend
deriving DecidableEq, Repr, Inhabited

/-- The exchange state machine's states (10_state.md R30), values 0 to 6 in order. -/
inductive XState where
  | idle
  | commandSent
  | ackWait
  | ackOk
  | responseWait
  | responseParsed
  | failed
deriving DecidableEq, Repr, Inhabited

/-- One event of the trace (20_memory.md R53). -/
inductive Event where
  | sel (level : Bool)
  | tx (b : Byte) (ok : Bool)
  | rx (r : Answer)
  | xfer (a d : Byte) (r : Answer)
  | delay (us : Nat)
deriving DecidableEq, Repr, Inhabited

/-- The registers a host may read (10_state.md R20). -/
inductive ResultReg where
  | busy
  | status
  | rbool
  | rval
  | rbitlen
  | rdata
  | rlen
  | xstate
deriving DecidableEq, Repr, Inhabited

/-- What a host read returns: a number, or the bytes of RDATA. -/
inductive HostValue where
  | num (n : Nat)
  | bytes (bs : List Byte)
deriving DecidableEq, Repr, Inhabited

/-- One thing the host does (00_scope.md R14.1; 60 R201, R202; 70 R230). -/
inductive HostAction where
  /-- Load IBUF and ILEN (the directive `.buf` of 30_encoding.md R79). -/
  | loadBuf (bytes : List Byte)
  /-- Write W1. -/
  | writeW1 (w : Word)
  /-- Write W0, which starts a command (R201). -/
  | writeW0 (w : Word)
  /-- Read a result register or BUSY (10_state.md R20, R44). -/
  | read (r : ResultReg)
  /-- Let the block take one step. -/
  | run
  /-- Poll BUSY until it is 0 (60 R204). -/
  | awaitIdle
  /-- Assert RST (70 R230). -/
  | rst
deriving DecidableEq, Repr, Inhabited

/-- STATUS, RBOOL, RVAL, RBITLEN, RDATA and RLEN (10_state.md R20). -/
structure Results where
  status : Status := .ok
  rbool : Bool := false
  rval : Half := 0
  rbitlen : Half := 0
  rdata : List Byte := []
  rlen : Nat := 0
deriving DecidableEq, Repr, Inhabited

/-- The latched operands of the running command (10_state.md R22, R23). `ibuf` is IBUF[0..ILEN) as it was at the start, so
the latched ILEN is its length. -/
structure Latch where
  w0 : Word := 0
  w1 : Word := 0
  ibuf : List Byte := []
deriving DecidableEq, Repr, Inhabited

/-- SEQ_OP, SEQ_POS and the loop counters (10_state.md R31, R32). `op` is `none` for NONE. -/
structure Sequencer where
  op : Option Byte := none
  pos : Nat := 0
  elapsed : Nat := 0
  pollI : Nat := 0
  crcI : Nat := 0
deriving DecidableEq, Repr, Inhabited

/-- The scratch registers of EXECUTE_COMMAND and CALC_CRC (10_state.md R33). -/
structure Scratch where
  irqv : Byte := 0
  errv : Byte := 0
  lvl : BitVec 7 := 0
  lb : BitVec 3 := 0
  divv : Byte := 0
  ien : Byte := 0
  waitm : Byte := 0
  vtmp : Byte := 0
deriving DecidableEq, Repr, Inhabited

/-- The names of the rules' pseudocode that live between two transactions: the bytes received in the open read window (R, B of
41 R120), the last status byte (s, s_last of 41 R125), the low CRC result byte (lo of 43 R181), and the ordinal of the last
TX, RX or XFER of the command (60 R200). The model's own fields: notes/assumptions/11.md. -/
structure Locals where
  rx : List Byte := []
  status : Byte := 0
  lo : Byte := 0
  ordinal : Nat := 0
deriving DecidableEq, Repr, Inhabited

/-- The Controller-A output lines, logical levels (10_state.md R35). -/
structure Pins where
  sel : Bool := false
  clk : Bool := false
  dout : Bool := false
deriving DecidableEq, Repr, Inhabited

/-- The whole state. `cfg` is the instance's configuration (00 R7, 10 R38): no step writes it. `env`, `draws`, `host` and
`hostRead` are the model's image of the environment and the host; `trace` is the observation of 20 R53. -/
structure State where
  cfg : Config
  w0 : Word
  w1 : Word
  ibuf : List Byte
  ilen : Nat
  busy : Bool
  res : Results
  xstate : XState
  latch : Latch
  seq : Sequencer
  scratch : Scratch
  crcr : Half
  locals : Locals
  pins : Pins
  trace : List Event
  env : List Answer
  draws : Nat
  host : List HostAction
  hostRead : Option HostValue
deriving DecidableEq, Repr, Inhabited

/-- Why the machine stops with a fault. -/
inductive Fault where
  /-- SEQ_POS names no line of the running command's rule (10_state.md R31). Raised by `runProgram` only. Safe: the spec has no
  stuck state (60 R215), and no run reaches this one (notes/assumptions/15.md). -/
  | noLine
deriving DecidableEq, Repr

/-- Why the machine refuses to take a step. -/
inductive Refusal where
  /-- Raised by an arm of `exec` whose instruction has no meaning yet; none is left. Safe. -/
  | notModelled (mnemonic : String)
  /-- A host write of W0, W1, IBUF or ILEN while BUSY = 1 (60 R202). Raised by `hostMove`. Safe: the spec gives it no move. -/
  | writeWhileBusy
  /-- A host read of a result register while BUSY = 1 (10 R44, 60 R202). Raised by `hostMove`. Safe: as above. -/
  | readWhileBusy
  /-- A host load of IBUF above P_BUF_MAX bytes (60 R202). Raised by `hostMove`. Safe: as above. -/
  | bufTooLong
deriving DecidableEq, Repr

/-- The reset values of 10_state.md R42 for an instance with configuration `c`, before any host action and any transaction.
The fields R42 does not list are the model's: notes/assumptions/3.md, 4.md, 10.md, 11.md, 12.md. -/
def State.initial (c : Config) : State where
  cfg := c
  w0 := 0
  w1 := 0
  ibuf := []
  ilen := 0
  busy := false
  res := {}
  xstate := .idle
  latch := {}
  seq := {}
  scratch := {}
  crcr := c.crcPreset
  locals := {}
  pins := {}
  trace := []
  env := []
  draws := 0
  host := []
  hostRead := none

/-- The machine right after power-on, with the values of R7's table; P_BACKEND is open (92 D4). -/
def State.reset : State := State.initial (Config.standard Config.startupBackend)

end Sys2Proof.Machine
end

