-- ==== Sys2Proof/Machine/Operands.lean ====
section
/-! DEFINITION. Operand forms: the latched byte sequence (30_encoding.md R86), the register address byte (R83), the command
classes (R85), and the narrowing of a number to the 16 bits of RVAL (60_exceptions.md R203). -/

namespace Sys2Proof.Machine

/-- The byte-sequence operand D = IBUF[0..ILEN), as latched at the start (R86; 10 R22, R23). -/
def State.data (s : State) : List Byte := s.latch.ibuf

/-- The latched ILEN (10 R23). -/
def State.dataLen (s : State) : Nat := s.latch.ibuf.length

/-- `zext_16(k)` of a number. A number of 65536 or more has no 16-bit value in the spec: a free value
(notes/assumptions/7.md). -/
def zext16 (k : Nat) : Half := if k < 65536 then BitVec.ofNat 16 k else Config.freeInfo k

/-- `zext_16` of a byte. -/
def zextByte (b : Byte) : Half := b.setWidth 16

/-- AddrByte(reg, READ) (R83). -/
def addrRead (c : Config) (reg : Byte) : Byte := ((reg <<< 1) &&& 0x7E) ||| c.bus.readBit

/-- AddrByte(reg, WRITE) (R83). -/
def addrWrite (c : Config) (reg : Byte) : Byte := ((reg <<< 1) &&& 0x7E) ||| c.bus.writeBit

/-- ClassMasks(cmd) = (IEN, WAITM) (R85, 43 R172). -/
def classMasks (c : Config) (cmd : Byte) : Byte × Byte :=
  if cmd = c.cmds.mfAuthent then (c.classes.ienAuth, c.classes.waitAuth)
  else if cmd = c.cmds.transceive then (c.classes.ienTransceive, c.classes.waitTransceive)
  else (c.classes.ienOther, c.classes.waitOther)

/-- A CRC-16 Value as it is sent or stored, low byte first (20 R55, 42 R143). -/
def crcBytes (c : Half) : List Byte := [c.setWidth 8, (c >>> 8).setWidth 8]

/-- The CRC-16 Value of a low and a high byte (20 R55). -/
def crcOfBytes (lo hi : Byte) : Half := zextByte lo ||| (zextByte hi <<< 8)

end Sys2Proof.Machine
end

