-- ==== Sys2Proof/Machine/Wire.lean ====
section
/-! DEFINITION. The pin level of the Controller-A link (41_link_a.md R121): the pin sequence of one byte, least significant bit
first, and what it leaves on CLK and DOUT. The byte-level primitives of Ops.lean use it. -/

namespace Sys2Proof.Machine

/-- One assignment of R121's pin sequences. `sample` is `r[i] <- DIN`. -/
inductive PinOp where
  | clk (level : Bool)
  | dout (level : Bool)
  | sample (i : Nat)
deriving DecidableEq, Repr, Inhabited

/-- The pin sequence of `LinkTx(b)`: for i in 0..7: CLK ← 1; DOUT ← b[i]; CLK ← 0. -/
def linkTxPins (b : Byte) : List PinOp :=
  (List.range 8).flatMap fun i => [.clk true, .dout (b.getLsbD i), .clk false]

/-- The pin sequence of `LinkRx()`: DOUT ← 0, then for i in 0..7: CLK ← 1; CLK ← 0; r[i] ← DIN. -/
def linkRxPins : List PinOp :=
  .dout false :: (List.range 8).flatMap fun i => [.clk true, .clk false, .sample i]

/-- The effect of one pin operation on the block's output lines. -/
def pinOp (p : Pins) : PinOp → Pins
  | .clk l => { p with clk := l }
  | .dout l => { p with dout := l }
  | .sample _ => p

/-- The lines after a pin sequence. -/
def runPins (ops : List PinOp) (p : Pins) : Pins := ops.foldl pinOp p

/-- The DIN levels a device drives for byte `v`, in sampling order (20 R56). -/
def dinLevels (v : Byte) : List Bool := (List.range 8).map fun i => v.getLsbD i

/-- The byte `r` the block assembles from sampled DIN levels: r[i] is the i-th level. -/
def assemble (levels : List Bool) : Byte :=
  BitVec.ofNat 8 (levels.foldr (fun l n => l.toNat + 2 * n) 0)

end Sys2Proof.Machine
end

