-- ==== Sys2Proof/Machine/Ops.lean ====
section
/-! DEFINITION. The shared operations: the transport primitives and their trace (00_scope.md R11, 20_memory.md R53), the end of a
command by `raise` or `finish` (60_exceptions.md R203), its start (R201), and the sequencer's one step through a command's
lines (10_state.md R31). -/

namespace Sys2Proof.Machine

/-- Append one event to the trace (20 R53). -/
def logEvent (e : Event) (s : State) : State := { s with trace := s.trace ++ [e] }

/-- The environment's next answer (20 R52): the next scripted one, else a free draw. -/
def nextAnswer (s : State) : Answer :=
  match s.env with
  | [] => Config.freeAnswer s.draws
  | a :: _ => a

/-- One transaction has been answered: the answer is used up, and the command's ordinal counts it (60 R200). -/
def takeAnswer (s : State) : State :=
  { s with env := s.env.tail, draws := s.draws + 1, locals.ordinal := s.locals.ordinal + 1 }

/-- `SelAssert()` or `SelDeassert()` (00 R11): drive SEL and record it; it cannot fail. -/
def driveSel (level : Bool) (s : State) : State := logEvent (.sel level) { s with pins.sel := level }

/-- The Ok or Fail of an answer, as `TX(b, r)` records it. -/
def isOk : Answer → Bool
  | .ok _ => true
  | .fail => false

/-- The lines after `LinkTx(b)`: R121's sequence when the transfer completed; when it failed part way, CLK idles at 0 and the
level of DOUT is free (notes/assumptions/8.md). -/
def txLines (b : Byte) (a : Answer) (n : Nat) (p : Pins) : Pins :=
  match a with
  | .ok _ => runPins (linkTxPins b) p
  | .fail => { p with clk := false, dout := Config.freeLevel n }

/-- `LinkTx(b)` (00 R11): one transaction, with the environment's answer. -/
def linkTx (b : Byte) (s : State) : Answer × State :=
  (nextAnswer s, logEvent (.tx b (isOk (nextAnswer s)))
    { takeAnswer s with pins := txLines b (nextAnswer s) s.draws s.pins })

/-- `LinkRx()` (00 R11): one transaction; DOUT is driven 0 and CLK ends at 0 (41 R121). -/
def linkRx (s : State) : Answer × State :=
  (nextAnswer s, logEvent (.rx (nextAnswer s)) { takeAnswer s with pins := runPins linkRxPins s.pins })

/-- `RegXfer(a, d)` (00 R11): one transaction on the register bus. -/
def regXfer (a d : Byte) (s : State) : Answer × State :=
  (nextAnswer s, logEvent (.xfer a d (nextAnswer s)) (takeAnswer s))

/-- `DelayUs(t)` (00 R11): one trace event (70 R240). -/
def delayUs (t : Nat) (s : State) : State := logEvent (.delay t) s

/-- What one line of a rule's pseudocode does on the transport; `internal` is a line with no transaction. -/
inductive Prim where
  | internal
  | sel (level : Bool)
  | tx (b : Byte)
  | rx
  | xfer (a d : Byte)
  | delay (us : Nat)
deriving DecidableEq, Repr, Inhabited

/-- Perform a line's primitive. A primitive that cannot fail answers Ok. -/
def perform (p : Prim) (s : State) : Answer × State :=
  match p with
  | .internal => (.ok 0, s)
  | .sel l => (.ok 0, driveSel l s)
  | .tx b => linkTx b s
  | .rx => linkRx s
  | .xfer a d => regXfer a d s
  | .delay us => (.ok 0, delayUs us s)

/-- The select deassertion of R203: `if SEL == 1: SelDeassert()`. -/
def closeWindow (s : State) : State := if s.pins.sel then driveSel false s else s

/-- The last act of a command: STATUS, SEQ_OP ← NONE, BUSY ← 0 (R203). -/
def endCommand (st : Status) (s : State) : State :=
  { s with res.status := st, seq.op := none, busy := false }

/-- `raise E(info)` (R203): deselect, RVAL ← info when given, clear the other results, end with the code. This is the block's
one way of taking an error; control goes back to the host (R206). -/
def raise (st : Status) (info : Option Half) (s : State) : State :=
  let t := closeWindow s
  endCommand st { t with res := { t.res with
    rval := info.getD t.res.rval, rbool := false, rdata := [], rlen := 0, rbitlen := 0 } }

/-- `finish()` (R203): the same with STATUS ← OK, keeping the results the rule wrote. -/
def finish (s : State) : State := endCommand .ok (closeWindow s)

/-- The start of a command by a host write of W0 (R201, first three lines; 10 R22, R23, R43): latch the operands, BUSY ← 1,
SEQ_OP ← OPC, SEQ_POS at the start, results cleared. The decode checks follow in the block's next step. -/
def startCommand (w0 : Word) (s : State) : State :=
  { s with
    w0 := w0
    latch := { w0 := w0, w1 := s.w1, ibuf := s.ibuf.take s.ilen }
    busy := true
    seq := { s.seq with op := some (opcField w0), pos := 0 }
    locals := {}
    res := {} }

/-- Where a line of the pseudocode leads once its primitive has answered Ok. -/
inductive Flow where
  /-- On to the next line. -/
  | next (s : State)
  /-- To the line with this position (a loop head, or the line after a loop). -/
  | goto (pos : Nat) (s : State)
  /-- The command has ended. -/
  | halt (s : State)

/-- One line of a rule's pseudocode: its primitive, and what it does with the byte answered. -/
structure Line where
  prim : Prim
  after : Byte → State → Flow := fun _ s => .next s

/-- Go to the line at `p`, or past the last line to the end of the rule, `done`. -/
def land (prog : List Line) (done : State → State) (p : Nat) (s : State) : State :=
  if p ≤ prog.length then { s with seq.pos := p } else done s

/-- Follow a line's flow. -/
def follow (prog : List Line) (done : State → State) : Flow → State
  | .next s => land prog done (s.seq.pos + 1) s
  | .goto p s => land prog done p s
  | .halt s => s

/-- Run one line: its primitive, then either `raise E_TRANSPORT` with the ordinal (00 R11, 41 R120, 60 R200) or the line's own
continuation. `onFail` is what the rule does before such a raise (41 R129). -/
def runLine (prog : List Line) (done onFail : State → State) (l : Line) (s : State) : State :=
  match perform l.prim s with
  | (.fail, t) => raise .transport (some (zext16 t.locals.ordinal)) (onFail t)
  | (.ok v, t) => follow prog done (l.after v t)

/-- One step of the sequencer through a command's lines (10 R31). Lines are numbered from 1; `done` is the rule's end after the
last line. -/
def runProgram (prog : List Line) (done onFail : State → State) (s : State) :
    Host.Outcome State Fault Refusal :=
  match prog[s.seq.pos - 1]? with
  | none => .fault .noLine
  | some l => .next (runLine prog done onFail l s)

/-- The result of the checks at the start of a command's rule. -/
inductive Entry where
  /-- A check failed: the command has ended. -/
  | ended (s : State)
  /-- Run a line. -/
  | go (s : State)

/-- The checks of R201 and R205 that come before any transaction, made once, at SEQ_POS 0: the backend (30 R76), then the
command's own precondition (`limit` is the offending number, if any). When they pass, the rule's initial assignments `init`
are made and the first line is next. `onFail` is what the rule does before it raises E_PARAMETER. DESIGN CHOICE, log 24: a command
that a check rejects makes none of its initial assignments, so its loop counter (10 R32) keeps its value. -/
def enter (need : Backend) (o : Opcode) (limit : Option Nat) (onFail init : State → State) (s : State) : Entry :=
  if s.seq.pos = 0 then
    if s.cfg.backend = need then
      match limit with
      | some k => .ended (raise .parameter (some (zext16 k)) (onFail s))
      | none => .go { init s with seq.pos := 1 }
    else .ended (raise .backend (some (zextByte o.code)) s)
  else .go s

/-- A command of the link sequencer or the register command engine: its checks, then one of its lines. -/
def runCommand (e : Entry) (prog : State → List Line) (done onFail : State → State) :
    Host.Outcome State Fault Refusal :=
  match e with
  | .ended t => .next t
  | .go t => runProgram (prog t) done onFail t

/-- `if k > bound`: the offending number of a precondition, when it is one. -/
def exceeding (k bound : Nat) : Option Nat := if k > bound then some k else none

end Sys2Proof.Machine
end

