-- ==== Sys2Proof/Machine/Crc.lean ====
section
/-! DEFINITION. The CRC unit: CRC_A and the commands CRC16, CRC_APPEND and CRC_CHECK (42_crc.md). They use no transport, so they
run on either backend and end in the step that runs them. -/

namespace Sys2Proof.Machine

/-- One of the eight shifts of R141. -/
def crcShift (poly c : Half) : Half := if c.getLsbD 0 then (c >>> 1) ^^^ poly else c >>> 1

/-- One byte of R141: XOR it into the low half, then shift eight times. -/
def crcByte (poly c : Half) (b : Byte) : Half := (crcShift poly)^[8] (c ^^^ zextByte b)

/-- CRC_A(s), the bitwise form of R141. -/
def crcA (c : Config) (s : List Byte) : Half := s.foldl (crcByte c.crcPolyRefl) c.crcPreset

/-- One byte of the byte-wise form of R141. -/
def crcByteFast (c : Half) (b : Byte) : Half :=
  let ch := b ^^^ c.setWidth 8
  let ch := ch ^^^ (ch <<< 4)
  (c >>> 8) ^^^ (zextByte ch <<< 8) ^^^ (zextByte ch <<< 3) ^^^ (zextByte ch >>> 4)

/-- CRC_A(s), the byte-wise form of R141, from the preset of R140. -/
def crcAFast (s : List Byte) : Half := s.foldl crcByteFast 0x6363

/-- Run the CRC unit over a byte run: CRCR is loaded with the preset and holds the result (10 R34, 42 R147). -/
def crcUnit (run : List Byte) (s : State) : State := { s with crcr := crcA s.cfg run }

/-- CRC16 (R144). -/
def execCrc16 (s : State) : Host.Outcome State Fault Refusal :=
  let t := crcUnit s.data s
  .next (finish { t with res.rval := t.crcr })

/-- CRC_APPEND (R145). -/
def execCrcAppend (s : State) : Host.Outcome State Fault Refusal :=
  if s.dataLen + 2 > s.cfg.bufMax then .next (raise .parameter (some (zext16 s.dataLen)) s)
  else
    let t := crcUnit s.data s
    .next (finish { t with res := { t.res with
      rdata := s.data ++ crcBytes t.crcr, rlen := s.dataLen + 2, rval := t.crcr } })

/-- The CRC-16 Value that ends a byte run of at least two bytes, low byte first (R146). -/
def trailingCrc (bs : List Byte) : Half :=
  crcOfBytes (bs.getD (bs.length - 2) 0) (bs.getD (bs.length - 1) 0)

/-- CRC_CHECK (R146). -/
def execCrcCheck (s : State) : Host.Outcome State Fault Refusal :=
  if s.dataLen < 2 then .next (raise .parameter (some (zext16 s.dataLen)) s)
  else
    let t := crcUnit (s.data.take (s.dataLen - 2)) s
    let u := { t with res.rval := t.crcr }
    if t.crcr = trailingCrc s.data then .next (finish u) else .next (raise .integrity (some t.crcr) u)

end Sys2Proof.Machine
end

