-- ==== Sys2Proof/Machine/Frame.lean ====
section
/-! DEFINITION. The frame unit: Command Frame build and parse, acknowledgement match (40_frame.md, 30_encoding.md R80, R81). None
of its commands makes a transaction. -/

namespace Sys2Proof.Machine

/-- Σ s & 0xFF (00 R10). -/
def byteSum (s : List Byte) : Byte := s.foldl (· + ·) 0

/-- cks8(s) = (~(Σ s & 0xFF) + 1) & 0xFF (R100). -/
def cks8 (s : List Byte) : Byte := ~~~(byteSum s) + 1

/-- TFI(dir) (R80, R101). -/
def tfi (c : Config) : Dir → Byte
  | .h2c => c.frame.tfiH2C
  | .c2h => c.frame.tfiC2H

/-- LEN = (n + 1) & 0xFF (R80). -/
def frameLen (p : List Byte) : Byte := BitVec.ofNat 8 (p.length + 1)

/-- Frame(dir, p) (R101). -/
def buildFrame (c : Config) (dir : Dir) (p : List Byte) : List Byte :=
  [c.frame.pre0, c.frame.pre1, c.frame.start, frameLen p, cks8 [frameLen p], tfi c dir] ++ p ++
    [cks8 (tfi c dir :: p), c.frame.post]

/-- The reasons of R103. -/
inductive ParseError where
  | shortHeader
  | preamble
  | lcs
  | lenZero
  | shortBody
  | direction
  | dcs
deriving DecidableEq, Repr

/-- The reason numbers of R103. -/
def ParseError.reason : ParseError → Nat
  | .shortHeader => 1
  | .preamble => 2
  | .lcs => 3
  | .lenZero => 4
  | .shortBody => 5
  | .direction => 6
  | .dcs => 7

/-- Parse(dir, B) (R103): seven checks in order, then the LEN − 1 payload bytes. -/
def parseFrame (c : Config) (dir : Dir) (b : List Byte) : Except ParseError (List Byte) :=
  let len := b.getD 3 0
  if b.length < 6 then .error .shortHeader
  else if ¬(b.getD 0 0 = c.frame.pre0 ∧ b.getD 1 0 = c.frame.pre1 ∧ b.getD 2 0 = c.frame.start) then .error .preamble
  else if len + b.getD 4 0 ≠ 0 then .error .lcs
  else if len = 0 then .error .lenZero
  else if b.length < len.toNat + 6 then .error .shortBody
  else if b.getD 5 0 ≠ tfi c dir then .error .direction
  else if byteSum ((b.drop 5).take (len.toNat + 1)) ≠ 0 then .error .dcs
  else .ok ((b.drop 6).take (len.toNat - 1))

/-- AckEq(B) (R106): six bytes, each equal to ACK's. -/
def ackEq (c : Config) (b : List Byte) : Bool := b.length = 6 && b == c.ack

/-- FRAME_BUILD (R102). -/
def execFrameBuild (dir : Dir) (s : State) : Host.Outcome State Fault Refusal :=
  match exceeding s.dataLen s.cfg.framePayloadMax with
  | some k => .next (raise .parameter (some (zext16 k)) s)
  | none => .next (finish { s with res := { s.res with
      rdata := buildFrame s.cfg dir s.data, rlen := s.dataLen + 8 } })

/-- FRAME_PARSE (R104). -/
def execFrameParse (dir : Dir) (s : State) : Host.Outcome State Fault Refusal :=
  match parseFrame s.cfg dir s.data with
  | .ok p => .next (finish { s with res := { s.res with rdata := p, rlen := p.length } })
  | .error e => .next (raise .framing (some (zext16 e.reason)) { s with res.rval := zext16 e.reason })

/-- ACK_MATCH (R107). -/
def execAckMatch (s : State) : Host.Outcome State Fault Refusal :=
  .next (finish { s with res.rbool := ackEq s.cfg s.data })

end Sys2Proof.Machine
end

