-- ==== Sys2Proof/Machine/Flags.lean ====
section
/-! DEFINITION. The codes and the Boolean conditions of the rules. The block has no flags (10_state.md R27): its only status
outputs are STATUS and RBOOL, and the conditions below are what the rules test. -/

namespace Sys2Proof.Machine

/-- The STATUS code of R200. -/
def Status.code : Status → BitVec 4
  | .ok => 0
  | .transport => 1
  | .framing => 2
  | .timeout => 3
  | .tagAbsent => 4
  | .collision => 5
  | .integrity => 6
  | .auth => 7
  | .parameter => 8
  | .illegal => 9
  | .backend => 10

/-- The XSTATE value of R30. -/
def XState.code : XState → BitVec 3
  | .idle => 0
  | .commandSent => 1
  | .ackWait => 2
  | .ackOk => 3
  | .responseWait => 4
  | .responseParsed => 5
  | .failed => 6

/-- `(IRQV & (WAITM | IRQ_TIMER)) != 0`: a stop bit of the interrupt poll (43 R176). -/
def stopBit (c : Config) (waitm irqv : Byte) : Bool := irqv &&& (waitm ||| c.masks.irqTimer) ≠ 0

/-- `(ERRV & ERR_NORESP_MASK) != 0 and (IRQV & IRQ_RX) != 0`: no tag responded (43 R177). -/
def noResponse (c : Config) (errv irqv : Byte) : Bool :=
  errv &&& c.errNoResp ≠ 0 && irqv &&& c.masks.irqRx ≠ 0

/-- `(ERRV & ERR_COLL) != 0`: several tags answered (43 R177). -/
def collided (c : Config) (errv : Byte) : Bool := errv &&& c.masks.errColl ≠ 0

/-- `(DIVV & DIVIRQ_CRC) != 0`: the coprocessor is done (43 R181). -/
def crcReady (c : Config) (divv : Byte) : Bool := divv &&& c.masks.divIrqCrc ≠ 0

/-- The status byte equals READY (41 R124). -/
def isReadyByte (c : Config) (s : Byte) : Bool := s = c.link.ready

end Sys2Proof.Machine
end

