-- ==== Sys2Proof/Machine/LinkA.lean ====
section
/-! DEFINITION. The Controller-A link sequencer (41_link_a.md): select windows, the readiness wait, and its seven commands. Each
command is a list of lines (Ops.lean); loops over a byte sequence are unrolled, so SEQ_POS moves backwards only at the loop head
of the wait (10_state.md R31). -/

namespace Sys2Proof.Machine

/-- Window(marker, body) (R120): SEL 1, the marker, the body, SEL 0; `start` and `close` are what the rule does at the two
ends. -/
def window (marker : Byte) (start close : State → Flow) (body : List Line) : List Line :=
  [⟨.sel true, fun _ s => start s⟩, ⟨.tx marker, fun _ s => .next s⟩] ++ body ++ [⟨.sel false, fun _ s => close s⟩]

/-- SeqWrite(F) (R120). -/
def seqWrite (c : Config) (f : List Byte) (close : State → Flow) : List Line :=
  window c.link.mkWrite .next close (f.map fun b => ⟨.tx b, fun _ s => .next s⟩)

/-- SeqRead(n) (R120): the received bytes are gathered in order, from none. -/
def seqRead (c : Config) (n : Nat) (close : State → Flow) : List Line :=
  window c.link.mkRead (fun s => .next { s with locals.rx := [] }) close
    (List.replicate n ⟨.rx, fun v s => .next { s with locals.rx := s.locals.rx ++ [v] }⟩)

/-- SeqStatus() (R120). -/
def seqStatus (c : Config) (close : State → Flow) : List Line :=
  window c.link.mkStatus .next close [⟨.rx, fun v s => .next { s with locals.status := v }⟩]

/-- The number of lines of a window with `n` body lines. -/
def windowLines (n : Nat) : Nat := n + 3

/-- The number of lines of a wait: ELAPSED ← 0, the status window, the delay. -/
def waitLines : Nat := 1 + windowLines 1 + 1

/-- What SeqWait does after a status poll (R125): ready leads past the loop, to `exit`; with T ≠ 0 the step is counted and the
wait expires when ELAPSED > T; else the delay line is next. -/
def waitTest (t : Word) (exit : Nat) (expired : State → Flow) (s : State) : Flow :=
  if isReadyByte s.cfg s.locals.status then .goto exit s
  else if t = 0 then .next s
  else
    let u := { s with seq.elapsed := s.seq.elapsed + s.cfg.pollStepMs }
    if u.seq.elapsed > t.toNat then expired u else .next u

/-- SeqWait(T) (R125) with its first line at position `p`: ELAPSED ← 0 (with whatever else the rule does there, `start`), the
loop head at `p + 1`, the delay, and back. -/
def seqWait (c : Config) (p : Nat) (t : Word) (start : State → State) (expired : State → Flow) : List Line :=
  [⟨.internal, fun _ s => .next { start s with seq.elapsed := 0 }⟩] ++
    seqStatus c (waitTest t (p + waitLines) expired) ++
    [⟨.delay (c.pollStepMs * 1000), fun _ s => .goto (p + 1) s⟩]

/-- XSTATE ← x (10 R30). -/
def setX (x : XState) (s : State) : State := { s with xstate := x }

/-- The host→controller Command Frame of the latched bytes (R122). -/
def outFrame (s : State) : List Byte := buildFrame s.cfg .h2c s.data

/-- WRITE_COMMAND's lines (R122). -/
def writeCommandLines (s : State) : List Line := seqWrite s.cfg (outFrame s) .next

/-- WRITE_COMMAND (R122). -/
def execWriteCommand (s : State) : Host.Outcome State Fault Refusal :=
  runCommand (enter .ctrlA .writeCommand (exceeding s.dataLen s.cfg.framePayloadMax) id id s) writeCommandLines finish id

/-- READ_DATA's lines (R123). -/
def readDataLines (n : Half) (s : State) : List Line := seqRead s.cfg n.toNat .next

/-- READ_DATA's results (R123). -/
def readDataDone (n : Half) (s : State) : State :=
  finish { s with res := { s.res with rdata := s.locals.rx, rlen := n.toNat } }

/-- READ_DATA (R123). -/
def execReadData (n : Half) (s : State) : Host.Outcome State Fault Refusal :=
  runCommand (enter .ctrlA .readData (exceeding n.toNat s.cfg.rxMax) id id s) (readDataLines n) (readDataDone n) id

/-- IS_READY's lines (R124). -/
def isReadyLines (s : State) : List Line := seqStatus s.cfg .next

/-- IS_READY's results (R124). -/
def isReadyDone (s : State) : State :=
  finish { s with res := { s.res with
    rval := zextByte s.locals.status, rbool := isReadyByte s.cfg s.locals.status } }

/-- IS_READY (R124). -/
def execIsReady (s : State) : Host.Outcome State Fault Refusal :=
  runCommand (enter .ctrlA .isReady none id id s) isReadyLines isReadyDone id

/-- WAIT_READY's results (R125): the Boolean of the wait, and the last status byte read. -/
def waitReadyDone (ready : Bool) (s : State) : State :=
  finish { s with res := { s.res with rbool := ready, rval := zextByte s.locals.status } }

/-- WAIT_READY's lines (R125). -/
def waitReadyLines (t : Word) (s : State) : List Line :=
  seqWait s.cfg 1 t id fun u => .halt (waitReadyDone false u)

/-- WAIT_READY (R125). With T = 0 only READY ends the loop. -/
def execWaitReady (t : Word) (s : State) : Host.Outcome State Fault Refusal :=
  runCommand (enter .ctrlA .waitReady none id id s) (waitReadyLines t) (waitReadyDone true) id

/-- READ_ACK's lines (R126). -/
def readAckLines (s : State) : List Line := seqRead s.cfg 6 .next

/-- READ_ACK's results (R126). -/
def readAckDone (s : State) : State :=
  finish { s with res := { s.res with
    rdata := s.locals.rx, rlen := 6, rbool := ackEq s.cfg s.locals.rx } }

/-- READ_ACK (R126). -/
def execReadAck (s : State) : Host.Outcome State Fault Refusal :=
  runCommand (enter .ctrlA .readAck none id id s) readAckLines readAckDone id

/-- SEND_CHECK_ACK's negative answers (R127): RVAL ← step; RBOOL ← 0; finish(). -/
def sendCheckNo (step : Half) (s : State) : Flow :=
  .halt (finish { s with res := { s.res with rval := step, rbool := false } })

/-- The position of the line after the write window of a rule that starts with one. -/
def afterWrite (s : State) : Nat := 1 + windowLines (outFrame s).length

/-- SEND_CHECK_ACK's lines (R127). -/
def sendCheckAckLines (t : Word) (s : State) : List Line :=
  seqWrite s.cfg (outFrame s) .next ++
    seqWait s.cfg (afterWrite s) t id (sendCheckNo 1) ++
    seqRead s.cfg 6 (fun u => if ackEq u.cfg u.locals.rx then .next u else sendCheckNo 2 u) ++
    seqWait s.cfg (afterWrite s + waitLines + windowLines 6) t id (sendCheckNo 3)

/-- SEND_CHECK_ACK's positive answer (R127): RBOOL ← 1; finish(). -/
def sendCheckAckDone (s : State) : State := finish { s with res.rbool := true }

/-- SEND_CHECK_ACK (R127). -/
def execSendCheckAck (t : Word) (s : State) : Host.Outcome State Fault Refusal :=
  runCommand (enter .ctrlA .sendCheckAck (exceeding s.dataLen s.cfg.framePayloadMax) id id s) (sendCheckAckLines t)
    sendCheckAckDone id

/-- EXCHANGE's negative steps (R129): XSTATE ← FAILED; RVAL ← step; raise E_TIMEOUT(step). -/
def exchangeNo (step : Half) (s : State) : Flow :=
  .halt (raise .timeout (some step) { setX .failed s with res.rval := step })

/-- EXCHANGE's last line (R129): parse the response. -/
def exchangeParse (s : State) : State :=
  match parseFrame s.cfg .c2h s.locals.rx with
  | .ok q => finish (setX .responseParsed { s with res := { s.res with rdata := q, rlen := q.length } })
  | .error e => raise .framing (some (0x10 ||| zext16 e.reason))
      { setX .failed s with res.rval := 0x10 ||| zext16 e.reason }

/-- EXCHANGE's lines (R128, R129). -/
def exchangeLines (n : Half) (t : Word) (s : State) : List Line :=
  seqWrite s.cfg (outFrame s) (fun u => .next (setX .commandSent u)) ++
    seqWait s.cfg (afterWrite s) t (setX .ackWait) (exchangeNo 1) ++
    seqRead s.cfg 6 (fun u => if ackEq u.cfg u.locals.rx then .next (setX .ackOk u) else exchangeNo 2 u) ++
    seqWait s.cfg (afterWrite s + waitLines + windowLines 6) t (setX .responseWait) (exchangeNo 3) ++
    seqRead s.cfg n.toNat .next

/-- EXCHANGE's two preconditions, ILEN before n (R129, 60 R205). -/
def exchangeLimit (n : Half) (s : State) : Option Nat :=
  (exceeding s.dataLen s.cfg.framePayloadMax).or (exceeding n.toNat s.cfg.rxMax)

/-- EXCHANGE (R129). -/
def execExchange (n : Half) (t : Word) (s : State) : Host.Outcome State Fault Refusal :=
  runCommand (enter .ctrlA .exchange (exchangeLimit n s) (setX .failed) (setX .idle) s) (exchangeLines n t)
    exchangeParse (setX .failed)

end Sys2Proof.Machine
end

