-- ==== Sys2Proof/Machine/RegEngine.lean ====
section
/-! DEFINITION. The Controller-B register command engine (43_cmd_engine.md): register transactions, EXECUTE_COMMAND, CALC_CRC,
RESET and the antenna. Loops over the data and the FIFO are unrolled, so SEQ_POS moves backwards only at the two poll loops
(10_state.md R31). -/

namespace Sys2Proof.Machine

/-- RegRead(reg) (R160): the byte clocked back goes to `use`. -/
def regRead (c : Config) (reg : Byte) (use : Byte → State → Flow) : Line := ⟨.xfer (addrRead c reg) c.bus.dummy, use⟩

/-- RegWrite(reg, v) (R160): the byte clocked back is ignored. -/
def regWrite (c : Config) (reg v : Byte) : Line := ⟨.xfer (addrWrite c reg) v, fun _ s => .next s⟩

/-- VTMP ← v (R161). -/
def setVtmp (v : Byte) (s : State) : Flow := .next { s with scratch.vtmp := v }

/-- SetBits(reg, m) (R161): two transactions; the write uses VTMP. -/
def setBits (s : State) (reg m : Byte) : List Line :=
  [regRead s.cfg reg setVtmp, regWrite s.cfg reg (s.scratch.vtmp ||| m)]

/-- ClearBits(reg, m) (R161). -/
def clearBits (s : State) (reg m : Byte) : List Line :=
  [regRead s.cfg reg setVtmp, regWrite s.cfg reg (s.scratch.vtmp &&& ~~~m)]

/-- RVAL ← zext_16(v); finish(). -/
def finishWith (v : Byte) (s : State) : State := finish { s with res.rval := zextByte v }

/-- READ_REG's line (R162). -/
def readRegLines (reg : Byte) (s : State) : List Line := [regRead s.cfg reg fun v u => .halt (finishWith v u)]

/-- READ_REG (R162). -/
def execReadReg (reg : Byte) (s : State) : Host.Outcome State Fault Refusal :=
  runCommand (enter .ctrlB .readReg none id id s) (readRegLines reg) finish id

/-- WRITE_REG's line (R163). -/
def writeRegLines (reg val : Byte) (s : State) : List Line := [regWrite s.cfg reg val]

/-- WRITE_REG (R163). -/
def execWriteReg (reg val : Byte) (s : State) : Host.Outcome State Fault Refusal :=
  runCommand (enter .ctrlB .writeReg none id id s) (writeRegLines reg val) finish id

/-- SET_BITMASK's lines (R164). -/
def setBitmaskLines (reg mask : Byte) (s : State) : List Line := setBits s reg mask

/-- SET_BITMASK's result (R164): the value written. -/
def setBitmaskDone (mask : Byte) (s : State) : State := finishWith (s.scratch.vtmp ||| mask) s

/-- SET_BITMASK (R164). -/
def execSetBitmask (reg mask : Byte) (s : State) : Host.Outcome State Fault Refusal :=
  runCommand (enter .ctrlB .setBitmask none id id s) (setBitmaskLines reg mask)
    (setBitmaskDone mask) id

/-- CLEAR_BITMASK's lines (R165). -/
def clearBitmaskLines (reg mask : Byte) (s : State) : List Line := clearBits s reg mask

/-- CLEAR_BITMASK's result (R165): the value written. -/
def clearBitmaskDone (mask : Byte) (s : State) : State := finishWith (s.scratch.vtmp &&& ~~~mask) s

/-- CLEAR_BITMASK (R165). -/
def execClearBitmask (reg mask : Byte) (s : State) : Host.Outcome State Fault Refusal :=
  runCommand (enter .ctrlB .clearBitmask none id id s) (clearBitmaskLines reg mask)
    (clearBitmaskDone mask) id

/-- The FIFO writes of R174: one RegWrite for each byte of D, in order. -/
def fifoWrites (s : State) : List Line := s.data.map fun b => regWrite s.cfg s.cfg.regs.fifoData b

/-- The initial assignments of EXECUTE_COMMAND: (IEN, WAITM) ← ClassMasks(cmd) (R172), POLL_I ← 0 (10 R32; once the checks
have passed: DESIGN CHOICE, log 24). -/
def executeInit (cmd : Byte) (s : State) : State :=
  { s with
    scratch := { s.scratch with ien := (classMasks s.cfg cmd).1, waitm := (classMasks s.cfg cmd).2 }
    seq.pollI := 0 }

/-- The preamble, data and issue lines (R173, R174, R175). -/
def executeHead (cmd : Byte) (s : State) : List Line :=
  [regWrite s.cfg s.cfg.regs.comIen (s.scratch.ien ||| s.cfg.masks.comIenIrqInv)] ++
    clearBits s s.cfg.regs.comIrq s.cfg.masks.comIrqSet1 ++
    setBits s s.cfg.regs.fifoLevel s.cfg.masks.fifoLevelFlush ++
    fifoWrites s ++
    [regWrite s.cfg s.cfg.regs.command cmd] ++
    (if cmd = s.cfg.cmds.transceive then setBits s s.cfg.regs.bitFraming s.cfg.masks.bitFramingStartSend else [])

/-- One poll of PollIrq (R176); a stop bit leads to `exit`, the line after the loop. -/
def pollIrqTest (exit : Nat) (v : Byte) (s : State) : Flow :=
  let u := { s with scratch.irqv := v, seq.pollI := s.seq.pollI + 1 }
  if stopBit u.cfg u.scratch.waitm v then .goto exit u
  else if u.seq.pollI = u.cfg.irqPollMax then
    .halt (raise .tagAbsent none { u with res.rval := zextByte v })
  else .next u

/-- PollIrq() (R176) with its first line at position `p`: POLL_I ← 0, the loop head at `p + 1`, the delay, and back. -/
def pollIrq (c : Config) (p : Nat) : List Line :=
  [⟨.internal, fun _ s => .next { s with seq.pollI := 0 }⟩,
   regRead c c.regs.comIrq (pollIrqTest (p + 3)),
   ⟨.delay c.irqPollDelayUs, fun _ s => .goto (p + 1) s⟩]

/-- CheckErrors() (R177), then R170's `if cmd != TRANSCEIVE: finish()`. -/
def checkErrors (cmd v : Byte) (s : State) : Flow :=
  let u := { s with
    scratch.errv := v
    res.rval := (zextByte v <<< 8) ||| zextByte s.scratch.irqv }
  if noResponse u.cfg v u.scratch.irqv then .halt (raise .tagAbsent none u)
  else if collided u.cfg v then .halt (raise .collision none u)
  else if cmd = u.cfg.cmds.transceive then .next u
  else .halt (finish u)

/-- The bit length of R178. -/
def bitLength (lvl : BitVec 7) (lb : BitVec 3) : Half :=
  if lvl = 0 then 0
  else if lb ≠ 0 then BitVec.ofNat 16 ((lvl.toNat - 1) * 8 + lb.toNat)
  else BitVec.ofNat 16 (lvl.toNat * 8)

/-- k = min(LVL, P_RESP_MAX) (R178). -/
def readBackCount (s : State) : Nat := min s.scratch.lvl.toNat s.cfg.respMax

/-- ReadBack() (R178): LVL, LB with the bit length, then k FIFO reads. -/
def readBack (s : State) : List Line :=
  [regRead s.cfg s.cfg.regs.fifoLevel fun v u =>
      .next { u with scratch.lvl := (v &&& u.cfg.masks.fifoLevelCount).setWidth 7 },
   regRead s.cfg s.cfg.regs.control fun v u =>
      let lb := (v &&& u.cfg.masks.controlRxLastBits).setWidth 3
      .next { u with scratch.lb := lb, res.rbitlen := bitLength u.scratch.lvl lb }] ++
    List.replicate (readBackCount s)
      (regRead s.cfg s.cfg.regs.fifoData fun v u => .next { u with res.rdata := u.res.rdata ++ [v] })

/-- EXECUTE_COMMAND's lines (R170). -/
def executeLines (cmd : Byte) (s : State) : List Line :=
  executeHead cmd s ++ pollIrq s.cfg ((executeHead cmd s).length + 1) ++
    [regRead s.cfg s.cfg.regs.error (checkErrors cmd)] ++ readBack s

/-- The end of EXECUTE_COMMAND past the last FIFO read (R178, R170): RLEN ← k; finish(). -/
def executeDone (s : State) : State := finish { s with res.rlen := readBackCount s }

/-- EXECUTE_COMMAND (R170). -/
def execExecuteCommand (cmd : Byte) (s : State) : Host.Outcome State Fault Refusal :=
  runCommand (enter .ctrlB .executeCommand (exceeding s.dataLen s.cfg.fifoDepth) id (executeInit cmd) s) (executeLines cmd)
    executeDone id

/-- The lines of CALC_CRC before its poll (R180). -/
def calcCrcHead (s : State) : List Line :=
  clearBits s s.cfg.regs.divIrq s.cfg.masks.divIrqCrc ++
    setBits s s.cfg.regs.fifoLevel s.cfg.masks.fifoLevelFlush ++
    fifoWrites s ++ [regWrite s.cfg s.cfg.regs.command s.cfg.cmds.calcCrc]

/-- One poll of PollCrc (R181): `head` is the loop head; there is no delay, and an exhausted poll is no error. -/
def pollCrcTest (head : Nat) (v : Byte) (s : State) : Flow :=
  let u := { s with scratch.divv := v, seq.crcI := s.seq.crcI + 1 }
  if crcReady u.cfg v then .next { u with res.rbool := true }
  else if u.seq.crcI = u.cfg.crcPollMax then .next { u with res.rbool := false }
  else .goto head u

/-- PollCrc() (R181) with its first line at position `p`: CRC_I ← 0, the loop at `p + 1`, then the two result registers, low
first. -/
def pollCrc (c : Config) (p : Nat) : List Line :=
  [⟨.internal, fun _ s => .next { s with seq.crcI := 0 }⟩,
   regRead c c.regs.divIrq (pollCrcTest (p + 1)),
   regRead c c.regs.crcResultL fun v s => .next { s with locals.lo := v },
   regRead c c.regs.crcResultH fun v s => .halt (finish { s with res.rval := crcOfBytes s.locals.lo v })]

/-- CALC_CRC's lines (R180). -/
def calcCrcLines (s : State) : List Line := calcCrcHead s ++ pollCrc s.cfg ((calcCrcHead s).length + 1)

/-- The initial assignment of CALC_CRC: CRC_I ← 0 (10 R32; once the checks have passed: DESIGN CHOICE, log 24). -/
def calcCrcInit (s : State) : State := { s with seq.crcI := 0 }

/-- CALC_CRC (R180). -/
def execCalcCrc (s : State) : Host.Outcome State Fault Refusal :=
  runCommand (enter .ctrlB .calcCrc (exceeding s.dataLen s.cfg.fifoDepth) id calcCrcInit s) calcCrcLines finish id

/-- RESET's lines (R185, R186). -/
def resetLines (s : State) : List Line :=
  [regWrite s.cfg s.cfg.regs.command s.cfg.cmds.softReset, ⟨.delay s.cfg.resetSettleUs, fun _ u => .next u⟩] ++
    setBits s s.cfg.regs.txControl s.cfg.masks.txControlAnt ++
    s.cfg.resetProgram.map fun rv => regWrite s.cfg rv.1 rv.2

/-- RESET (R185): it re-initialises the remote device, not the block. -/
def execReset (s : State) : Host.Outcome State Fault Refusal :=
  runCommand (enter .ctrlB .reset none id id s) resetLines finish id

/-- ANTENNA_ON's lines (R190). -/
def antennaOnLines (s : State) : List Line := setBits s s.cfg.regs.txControl s.cfg.masks.txControlAnt

/-- ANTENNA_ON's result (R190): the value written. -/
def antennaOnDone (s : State) : State := finishWith (s.scratch.vtmp ||| s.cfg.masks.txControlAnt) s

/-- ANTENNA_ON (R190). -/
def execAntennaOn (s : State) : Host.Outcome State Fault Refusal :=
  runCommand (enter .ctrlB .antennaOn none id id s) antennaOnLines antennaOnDone id

/-- ANTENNA_OFF's lines (R191). -/
def antennaOffLines (s : State) : List Line := clearBits s s.cfg.regs.txControl s.cfg.masks.txControlAnt

/-- ANTENNA_OFF's result (R191): the value written. -/
def antennaOffDone (s : State) : State := finishWith (s.scratch.vtmp &&& ~~~s.cfg.masks.txControlAnt) s

/-- ANTENNA_OFF (R191). -/
def execAntennaOff (s : State) : Host.Outcome State Fault Refusal :=
  runCommand (enter .ctrlB .antennaOff none id id s) antennaOffLines antennaOffDone id

end Sys2Proof.Machine
end

