-- ==== Sys2Proof/Machine/Dispatch.lean ====
section
/-! DEFINITION. The meaning of each instruction, one arm per constructor. -/

namespace Sys2Proof.Machine

def exec (i : Instr) (s : State) : Host.Outcome State Fault Refusal :=
  match i with
  | .crc16 => Sys2Proof.Machine.execCrc16 s
  | .crcAppend => Sys2Proof.Machine.execCrcAppend s
  | .crcCheck => Sys2Proof.Machine.execCrcCheck s
  | .frameBuild dir => Sys2Proof.Machine.execFrameBuild dir s
  | .frameParse dir => Sys2Proof.Machine.execFrameParse dir s
  | .ackMatch => Sys2Proof.Machine.execAckMatch s
  | .writeCommand => Sys2Proof.Machine.execWriteCommand s
  | .readData n => Sys2Proof.Machine.execReadData n s
  | .isReady => Sys2Proof.Machine.execIsReady s
  | .waitReady t => Sys2Proof.Machine.execWaitReady t s
  | .readAck => Sys2Proof.Machine.execReadAck s
  | .sendCheckAck t => Sys2Proof.Machine.execSendCheckAck t s
  | .exchange n t => Sys2Proof.Machine.execExchange n t s
  | .readReg reg => Sys2Proof.Machine.execReadReg reg s
  | .writeReg reg val => Sys2Proof.Machine.execWriteReg reg val s
  | .setBitmask reg mask => Sys2Proof.Machine.execSetBitmask reg mask s
  | .clearBitmask reg mask => Sys2Proof.Machine.execClearBitmask reg mask s
  | .executeCommand cmd => Sys2Proof.Machine.execExecuteCommand cmd s
  | .calcCrc => Sys2Proof.Machine.execCalcCrc s
  | .reset => Sys2Proof.Machine.execReset s
  | .antennaOn => Sys2Proof.Machine.execAntennaOn s
  | .antennaOff => Sys2Proof.Machine.execAntennaOff s

end Sys2Proof.Machine
end

