-- ==== Sys2Proof/Machine/HostPort.lean ====
section
/-! DEFINITION. The host interface (10_state.md R20, R21, R44; 60_exceptions.md R201, R202; 70_reset_and_hazards.md R230, R231):
what one host action does, which ones are refused, and the block reset. -/

namespace Sys2Proof.Machine

/-- What a host read of a register returns (10 R20). -/
def readResult (r : ResultReg) (s : State) : HostValue :=
  match r with
  | .busy => .num s.busy.toNat
  | .status => .num s.res.status.code.toNat
  | .rbool => .num s.res.rbool.toNat
  | .rval => .num s.res.rval.toNat
  | .rbitlen => .num s.res.rbitlen.toNat
  | .rdata => .bytes s.res.rdata
  | .rlen => .num s.res.rlen
  | .xstate => .num s.xstate.code.toNat

/-- RST (70 R230, R231): every piece of block state takes its reset value at once; the trace gets no event. The configuration,
the environment and the host are not block state, and the trace is the observation of what has been sent
(notes/assumptions/9.md). -/
def blockReset (s : State) : State :=
  { State.initial s.cfg with
    trace := s.trace, env := s.env, draws := s.draws, host := s.host, hostRead := s.hostRead }

/-- Load IBUF and ILEN (10 R23). -/
def loadBuf (bytes : List Byte) (s : State) : State := { s with ibuf := bytes, ilen := bytes.length }

/-- What the host's schedule makes of a step: it acts, it is refused, or the block runs. -/
inductive Move where
  | acted (s : State)
  | refuse (r : Refusal)
  | block (s : State)

/-- The head of the host's schedule (notes/assumptions/4.md). With nothing pending, and while the host polls BUSY, the block
runs; a write or a result read while BUSY = 1 is refused (60 R202, 10 R44). -/
def hostMove (s : State) : Move :=
  match s.host with
  | [] => .block s
  | .run :: rest => .block { s with host := rest }
  | .awaitIdle :: rest => if s.busy then .block s else .acted { s with host := rest }
  | .rst :: rest => .acted (blockReset { s with host := rest })
  | .read r :: rest =>
    if s.busy && r != .busy then .refuse .readWhileBusy
    else .acted { s with host := rest, hostRead := some (readResult r s) }
  | .loadBuf bytes :: rest =>
    if s.busy then .refuse .writeWhileBusy
    else if bytes.length > s.cfg.bufMax then .refuse .bufTooLong
    else .acted (loadBuf bytes { s with host := rest })
  | .writeW1 w :: rest =>
    if s.busy then .refuse .writeWhileBusy else .acted { s with host := rest, w1 := w }
  | .writeW0 w :: rest =>
    if s.busy then .refuse .writeWhileBusy else .acted (startCommand w { s with host := rest })

/-- The instruction the block has latched (10 R22; 30 R74, R75). -/
def fetch (s : State) : Except DecodeError Instr := decodeWords s.latch.w0 s.latch.w1

/-- `raise E_ILLEGAL(W0[15:0])` (60 R201). -/
def raiseIllegal (s : State) : State := raise .illegal (some (s.latch.w0.extractLsb' 0 16)) s

/-- One step of the block, given the meaning of the instructions: it waits while BUSY = 0 (70 R232); else it ends an illegal
command (60 R201) or runs the latched one. -/
def blockStep (run : Instr → State → Host.Outcome State Fault Refusal) (s : State) : Host.Outcome State Fault Refusal :=
  if s.busy then
    match fetch s with
    | .error _ => .next (raiseIllegal s)
    | .ok i => run i s
  else .next s

/-- One step of the whole machine: the host's action, or the block's step. -/
def machineStep (run : Instr → State → Host.Outcome State Fault Refusal) (s : State) :
    Host.Outcome State Fault Refusal :=
  match hostMove s with
  | .acted t => .next t
  | .refuse r => .refused r
  | .block t => blockStep run t

/-- The state in which the host has just started the command (w0, w1) and the block's next step runs it: the host's writes of W1
and W0 have been made (R201), the next thing in the schedule lets the block run, and the instance is one of the backend the
command needs (30 R76). Notes/assumptions/6.md. -/
def placeCommand (w0 w1 : Word) (s : State) : State :=
  let b := ((Opcode.ofCode (opcField w0)).bind Opcode.backend).getD s.cfg.backend
  startCommand w0 { s with w1 := w1, host := .run :: s.host, cfg := { s.cfg with backend := b } }

end Sys2Proof.Machine
end

