-- ==== Sys2Proof/Machine/Step.lean ====
section
/-! DEFINITION. One step of the machine, and the placing of an instruction where the next step runs it. -/

namespace Sys2Proof.Machine

/-- One step (HostPort.lean, `machineStep`). -/
def step (s : State) : Host.Outcome State Fault Refusal := machineStep exec s

/-- `s` with a table word placed as the command the next step runs (HostPort.lean, `placeCommand`). -/
def State.withFetchWord (s : State) (nbits w : Nat) : State :=
  placeCommand (tableWords nbits w).1 (tableWords nbits w).2 s

end Sys2Proof.Machine
end

