-- ==== Sys2Proof/Machine/Asm.lean ====
section
/-! DEFINITION. The assembler of 30_encoding.md R79 and the pseudo-instructions of R87: one line of text to the words of a command
or a buffer load, and the host actions that run it. Text is handled as a list of characters. -/

namespace Sys2Proof.Machine

/-- What one source line assembles to (R79). -/
inductive SrcLine where
  /-- A blank line or a comment. -/
  | empty
  /-- The directive `.buf`: the host loads IBUF and ILEN. -/
  | buf (bytes : List Byte)
  /-- A command or the expansion of a pseudo-instruction: W0, then W1 when present. -/
  | words (ws : List Word)
deriving DecidableEq, Repr

/-- A blank between tokens. -/
def isBlank (ch : Char) : Bool := ch = ' ' || ch = '\t'

/-- The text before a comment, which starts with `;` (R79). -/
def dropComment (cs : List Char) : List Char := cs.takeWhile (· ≠ ';')

/-- A text without the blanks around it. -/
def trimBlanks (cs : List Char) : List Char := ((cs.dropWhile isBlank).reverse.dropWhile isBlank).reverse

/-- The operands of a line: the texts between commas; none for a blank text. -/
def splitCommas : List Char → List Char → List (List Char)
  | [], acc => [trimBlanks acc.reverse]
  | ch :: cs, acc => if ch = ',' then trimBlanks acc.reverse :: splitCommas cs [] else splitCommas cs (ch :: acc)

/-- The operand texts of a line after its mnemonic. -/
def operandTexts (cs : List Char) : List (List Char) :=
  if trimBlanks cs = [] then [] else splitCommas cs []

/-- The value of a digit in base 16. -/
def hexDigit (ch : Char) : Option Nat :=
  if '0' ≤ ch ∧ ch ≤ '9' then some (ch.toNat - '0'.toNat)
  else if 'a' ≤ ch ∧ ch ≤ 'f' then some (ch.toNat - 'a'.toNat + 10)
  else if 'A' ≤ ch ∧ ch ≤ 'F' then some (ch.toNat - 'A'.toNat + 10)
  else none

/-- The number written by digits of a base, continuing from `n`. -/
def digitsFrom (base : Nat) : Nat → List Char → Option Nat
  | n, [] => some n
  | n, ch :: cs =>
    match hexDigit ch with
    | some d => if d < base then digitsFrom base (n * base + d) cs else none
    | none => none

/-- A number: hexadecimal with `0x`, else decimal (R79). -/
def parseNumber : List Char → Option Nat
  | [] => none
  | '0' :: 'x' :: cs => if cs = [] then none else digitsFrom 16 0 cs
  | cs => digitsFrom 10 0 cs

/-- A number below a bound. -/
def numberBelow (bound : Nat) (cs : List Char) : Option Nat := (parseNumber cs).filter (· < bound)

/-- The register names of R84. -/
def regNames (c : Config) : List (String × Byte) :=
  [("COMMAND", c.regs.command), ("COMIEN", c.regs.comIen), ("COMIRQ", c.regs.comIrq), ("DIVIRQ", c.regs.divIrq),
   ("ERROR", c.regs.error), ("FIFODATA", c.regs.fifoData), ("FIFOLEVEL", c.regs.fifoLevel),
   ("CONTROL", c.regs.control), ("BITFRAMING", c.regs.bitFraming), ("MODE", c.regs.mode),
   ("TXCONTROL", c.regs.txControl), ("TXASK", c.regs.txAsk), ("CRCRESULT_H", c.regs.crcResultH),
   ("CRCRESULT_L", c.regs.crcResultL), ("TMODE", c.regs.tMode), ("TPRESCALER", c.regs.tPrescaler),
   ("TRELOAD_H", c.regs.tReloadH), ("TRELOAD_L", c.regs.tReloadL)]

/-- The device command names of R84. -/
def cmdNames (c : Config) : List (String × Byte) :=
  [("IDLE", c.cmds.idle), ("CALCCRC", c.cmds.calcCrc), ("TRANSCEIVE", c.cmds.transceive),
   ("MFAUTHENT", c.cmds.mfAuthent), ("SOFTRESET", c.cmds.softReset)]

/-- An operand that is a name of a list or a number below a bound. -/
def nameOrNumber (names : List (String × Byte)) (bound : Nat) (cs : List Char) : Option Byte :=
  match names.find? fun e => e.1.toList = cs with
  | some e => some e.2
  | none => (numberBelow bound cs).map (BitVec.ofNat 8)

/-- The operand `h2c` or `c2h` (R79). -/
def parseDir (cs : List Char) : Option Dir :=
  if cs = "h2c".toList then some .h2c else if cs = "c2h".toList then some .c2h else none

/-- The W0 of an opcode with its fields (R70). -/
def assembleW0 (o : Opcode) (fc fb fa : Byte) : Word := packW0 fc fb fa o.code

/-- The words of a command from its operand texts (R79). -/
def assembleCmd (c : Config) (o : Opcode) (ops : List (List Char)) : Option (List Word) :=
  match o.format, ops with
  | .n, [] => some [assembleW0 o 0 0 0]
  | .r, [r] => (nameOrNumber (regNames c) 64 r).map fun reg => [assembleW0 o 0 0 reg]
  | .rv, [r, v] =>
    (nameOrNumber (regNames c) 64 r).bind fun reg =>
      (numberBelow 256 v).map fun n => [assembleW0 o 0 (BitVec.ofNat 8 n) reg]
  | .c, [k] => (nameOrNumber (cmdNames c) 16 k).map fun cmd => [assembleW0 o 0 0 cmd]
  | .d, [d] => (parseDir d).map fun dir => [assembleW0 o 0 0 (if dir = .c2h then 1 else 0)]
  | .l, [k] => (numberBelow 65536 k).map fun n => [assembleW0 o (BitVec.ofNat 8 (n / 256)) (BitVec.ofNat 8 n) 0]
  | .t, [t] => (numberBelow (2 ^ 32) t).map fun n => [assembleW0 o 0 0 0, BitVec.ofNat 32 n]
  | .lt, [k, t] =>
    (numberBelow 65536 k).bind fun n => (numberBelow (2 ^ 32) t).map fun m =>
      [assembleW0 o (BitVec.ofNat 8 (n / 256)) (BitVec.ofNat 8 n) 0, BitVec.ofNat 32 m]
  | _, _ => none

/-- The pseudo-instruction names of R87. -/
def pseudoNames : List (String × Pseudo) :=
  [("FLUSH_FIFO", .flushFifo), ("DEVICE_IDLE", .deviceIdle), ("ANTENNA_ON_RMW", .antennaOnRmw),
   ("ANTENNA_OFF_RMW", .antennaOffRmw)]

/-- The bytes of `.buf b0, b1, ...` (R79). -/
def bufBytes : List (List Char) → Option (List Byte)
  | [] => some []
  | cs :: rest => (numberBelow 256 cs).bind fun n => (bufBytes rest).map fun bs => BitVec.ofNat 8 n :: bs

/-- Assemble one line from its first word and its operand texts (R79, R87). -/
def assembleParts (c : Config) (word : List Char) (ops : List (List Char)) : Option SrcLine :=
  if word = ".buf".toList then (bufBytes ops).map .buf
  else
    match Opcode.all.find? fun o => o.mnemonic.toList = word with
    | some o => (assembleCmd c o ops).map .words
    | none =>
      match pseudoNames.find? fun e => e.1.toList = word with
      | some e => if ops = [] then some (.words (encode (e.2.expand c))) else none
      | none => none

/-- Assemble one line of text (R79); `none` is a line the syntax does not allow. -/
def assembleLine (c : Config) (line : List Char) : Option SrcLine :=
  match trimBlanks (dropComment line) with
  | [] => some .empty
  | ch :: cs =>
    assembleParts c ((ch :: cs).takeWhile (!isBlank ·)) (operandTexts ((ch :: cs).dropWhile (!isBlank ·)))

/-- What the host does for one assembled line: load the buffer, or write W1 (when present) and W0 and wait for BUSY = 0 (60 R201,
R204). -/
def lineActions : SrcLine → List HostAction
  | .empty => []
  | .buf bytes => [.loadBuf bytes]
  | .words [] => []
  | .words [w0] => [.writeW0 w0, .awaitIdle]
  | .words (w0 :: w1 :: _) => [.writeW1 w1, .writeW0 w0, .awaitIdle]

/-- The host's schedule for a program of assembled lines, in order. -/
def programActions (prog : List SrcLine) : List HostAction := prog.flatMap lineActions

end Sys2Proof.Machine
end

