-- ==== Sys2Proof/Safety.lean ====
section
/-! DEFINITION. The words the claims use: the lines of a command, when a command is at a line, what counts as a safe state of the
block, and what the groups of commands leave unchanged. -/

namespace Sys2Proof.Machine

/-- The lines of a command's rule in a state; the commands of 40_frame.md and 42_crc.md have none (they end in one step). -/
def linesOf (i : Instr) (s : State) : List Line :=
  match i with
  | .crc16 | .crcAppend | .crcCheck | .frameBuild _ | .frameParse _ | .ackMatch => []
  | .writeCommand => writeCommandLines s
  | .readData n => readDataLines n s
  | .isReady => isReadyLines s
  | .waitReady t => waitReadyLines t s
  | .readAck => readAckLines s
  | .sendCheckAck t => sendCheckAckLines t s
  | .exchange n t => exchangeLines n t s
  | .readReg reg => readRegLines reg s
  | .writeReg reg val => writeRegLines reg val s
  | .setBitmask reg mask => setBitmaskLines reg mask s
  | .clearBitmask reg mask => clearBitmaskLines reg mask s
  | .executeCommand cmd => executeLines cmd s
  | .calcCrc => calcCrcLines s
  | .reset => resetLines s
  | .antennaOn => antennaOnLines s
  | .antennaOff => antennaOffLines s

/-- A primitive the environment answers: a byte sent, a byte received or a register transaction (00 R11, 60 R200). -/
def Prim.answered : Prim → Bool
  | .tx _ => true
  | .rx => true
  | .xfer _ _ => true
  | .internal => false
  | .sel _ => false
  | .delay _ => false

/-- The event a failed primitive records (20 R53). -/
def Prim.failEvent : Prim → List Event
  | .tx b => [.tx b false]
  | .rx => [.rx .fail]
  | .xfer a d => [.xfer a d .fail]
  | .internal => []
  | .sel _ => []
  | .delay _ => []

/-- The command has been started on an instance of the backend it needs, and its first line is next: SEQ_POS 0, the select line
free (60 R201). -/
def Ready (b : Backend) (s : State) : Prop := s.seq.pos = 0 ∧ s.cfg.backend = b ∧ s.pins.sel = false

/-- A command is at line `p` of its rule, past its checks (10 R31). -/
def AtLine (p : Nat) (s : State) : Prop := s.seq.pos = p ∧ 1 ≤ p

/-- The command ended with this STATUS: BUSY 0, SEQ_OP NONE, SEL 0 (60 R203). -/
def EndedWith (st : Status) (t : State) : Prop :=
  t.busy = false ∧ t.seq.op = none ∧ t.pins.sel = false ∧ t.res.status = st

/-- The results `raise` leaves beside STATUS and RVAL (60 R203). -/
def ClearedBesideRval (t : State) : Prop :=
  t.res.rbool = false ∧ t.res.rdata = [] ∧ t.res.rlen = 0 ∧ t.res.rbitlen = 0

/-- What no command writes: the configuration, the host's registers and latched operands, the host's schedule (10 R23, R38; 20
R66). -/
def SameHostSide (s t : State) : Prop :=
  t.cfg = s.cfg ∧ t.w0 = s.w0 ∧ t.w1 = s.w1 ∧ t.ibuf = s.ibuf ∧ t.ilen = s.ilen ∧ t.latch = s.latch ∧
  t.host = s.host ∧ t.hostRead = s.hostRead

/-- No transaction has been made: trace, environment and transaction count as before (00 R12). -/
def NoTransaction (s t : State) : Prop :=
  t.trace = s.trace ∧ t.env = s.env ∧ t.draws = s.draws ∧ t.locals.ordinal = s.locals.ordinal

/-- The command is rejected for its length or count `k` before any transaction (60 R200, R205): E_PARAMETER(k), with XSTATE = `x`. -/
def Rejects (i : Instr) (s : State) (k : Nat) (x : XState) : Prop :=
  ∃ t, exec i s = .next t ∧ EndedWith .parameter t ∧ t.res.rval = zext16 k ∧ ClearedBesideRval t ∧
    NoTransaction s t ∧ t.xstate = x

/-- The events that are transactions: TX, RX and XFER (00 R12, 60 R200). -/
def Event.isTransaction : Event → Bool
  | .tx _ _ => true
  | .rx _ => true
  | .xfer _ _ _ => true
  | .sel _ => false
  | .delay _ => false

/-- How many transactions a run of events holds: what the ordinal k of 60 R200 counts. -/
def transactions (events : List Event) : Nat := events.countP Event.isTransaction

/-- The link's output lines after an event whose transfer, where it is one, was Ok: a select drives SEL; a byte sent leaves CLK idle
and DOUT at its bit 7, the last one sent; a byte received leaves CLK idle and DOUT at 0; the register bus and a delay leave them
alone (10 R35; 41 R120, R121). -/
def linesAfter (p : Pins) : Event → Pins
  | .sel level => { p with sel := level }
  | .tx b _ => { p with clk := false, dout := b.getLsbD 7 }
  | .rx _ => { p with clk := false, dout := false }
  | .xfer _ _ _ => p
  | .delay _ => p

/-- The command runs one line that does not end it: its events, the position it leads to, the link lines those events leave (so SEL
is 1 from a window's select line on, until its deselect line), the ordinal counting exactly the transactions among them, and
one answer used up by each. -/
def Continues (i : Instr) (s : State) (events : List Event) (p : Nat) (t : State) : Prop :=
  exec i s = .next t ∧ t.trace = s.trace ++ events ∧ t.seq.pos = p ∧ t.busy = s.busy ∧ t.res = s.res ∧
  t.pins = events.foldl linesAfter s.pins ∧ t.locals.ordinal = s.locals.ordinal + transactions events ∧
  t.env = s.env.drop (transactions events)

/-- The lines of a write window at the head of a link command's rule (41 R120): select, write marker, the frame bytes in order.
`ok` is the rule's precondition. -/
def WriteWindowLines (i : Instr) (ok : State → Prop) : Prop :=
  ∀ (s : State) (v : Byte) (rest : List Answer),
    (Ready .ctrlA s → ok s → ∃ t, Continues i s [.sel true] 2 t) ∧
    (AtLine 2 s → s.env = .ok v :: rest → ∃ t, Continues i s [.tx s.cfg.link.mkWrite true] 3 t) ∧
    (∀ k b, AtLine (3 + k) s → (buildFrame s.cfg .h2c s.data)[k]? = some b → s.env = .ok v :: rest →
      ∃ t, Continues i s [.tx b true] (4 + k) t)

/-- The lines of a wait (41 R125) with its first line at `pos`: ELAPSED ← 0, a status window, and, after a poll that is not ready, the
deselect (which counts the step when T ≠ 0 and leaves time), the delay, and the loop back. A ready poll and an expired wait
are the rule's own. -/
def WaitLines (i : Instr) (w : Word) (pos : State → Nat) : Prop :=
  ∀ (s : State) (v : Byte) (rest : List Answer) (p : Nat), p = pos s →
    (AtLine p s → ∃ t, Continues i s [] (p + 1) t ∧ t.seq.elapsed = 0) ∧
    (AtLine (p + 1) s → ∃ t, Continues i s [.sel true] (p + 2) t ∧ t.seq.elapsed = s.seq.elapsed) ∧
    (AtLine (p + 2) s → s.env = .ok v :: rest →
      ∃ t, Continues i s [.tx s.cfg.link.mkStatus true] (p + 3) t ∧ t.seq.elapsed = s.seq.elapsed) ∧
    (AtLine (p + 3) s → s.env = .ok v :: rest →
      ∃ t, Continues i s [.rx (.ok v)] (p + 4) t ∧ t.locals.status = v ∧ t.seq.elapsed = s.seq.elapsed) ∧
    (AtLine (p + 4) s → s.locals.status ≠ s.cfg.link.ready → w = 0 →
      ∃ t, Continues i s [.sel false] (p + 5) t ∧ t.seq.elapsed = s.seq.elapsed) ∧
    (AtLine (p + 4) s → s.locals.status ≠ s.cfg.link.ready → w ≠ 0 → s.seq.elapsed + s.cfg.pollStepMs ≤ w.toNat →
      ∃ t, Continues i s [.sel false] (p + 5) t ∧ t.seq.elapsed = s.seq.elapsed + s.cfg.pollStepMs) ∧
    (AtLine (p + 5) s →
      ∃ t, Continues i s [.delay (s.cfg.pollStepMs * 1000)] (p + 1) t ∧ t.seq.elapsed = s.seq.elapsed)

/-- The lines of a read window of `n` bytes (41 R120) with its select line at `pos`: select, read marker, the bytes gathered in
order. -/
def ReadWindowLines (i : Instr) (pos : State → Nat) (n : Nat) : Prop :=
  ∀ (s : State) (v : Byte) (rest : List Answer) (p : Nat), p = pos s →
    (AtLine p s → ∃ t, Continues i s [.sel true] (p + 1) t ∧ t.locals.rx = []) ∧
    (AtLine (p + 1) s → s.env = .ok v :: rest →
      ∃ t, Continues i s [.tx s.cfg.link.mkRead true] (p + 2) t ∧ t.locals.rx = s.locals.rx) ∧
    (∀ k < n, AtLine (p + 2 + k) s → s.env = .ok v :: rest →
      ∃ t, Continues i s [.rx (.ok v)] (p + 3 + k) t ∧ t.locals.rx = s.locals.rx ++ [v])

/-- The address and data byte of the first transaction of a register command, which it makes in the step that starts it (43 R160 to
R165, R173, R180, R185, R190, R191); none for the other commands. -/
def firstTransfer (s : State) : Instr → Option (Byte × Byte)
  | .readReg reg => some (addrRead s.cfg reg, s.cfg.bus.dummy)
  | .writeReg reg val => some (addrWrite s.cfg reg, val)
  | .setBitmask reg _ => some (addrRead s.cfg reg, s.cfg.bus.dummy)
  | .clearBitmask reg _ => some (addrRead s.cfg reg, s.cfg.bus.dummy)
  | .executeCommand cmd =>
    some (addrWrite s.cfg s.cfg.regs.comIen, (classMasks s.cfg cmd).1 ||| s.cfg.masks.comIenIrqInv)
  | .calcCrc => some (addrRead s.cfg s.cfg.regs.divIrq, s.cfg.bus.dummy)
  | .reset => some (addrWrite s.cfg s.cfg.regs.command, s.cfg.cmds.softReset)
  | .antennaOn => some (addrRead s.cfg s.cfg.regs.txControl, s.cfg.bus.dummy)
  | .antennaOff => some (addrRead s.cfg s.cfg.regs.txControl, s.cfg.bus.dummy)
  | .crc16 | .crcAppend | .crcCheck | .frameBuild _ | .frameParse _ | .ackMatch | .writeCommand | .readData _ | .isReady
  | .waitReady _ | .readAck | .sendCheckAck _ | .exchange _ _ => none

/-- The command ended with E_TRANSPORT(k), k the ordinal of the failed transaction, and its results cleared (60 R200, R203). -/
def FailedTransfer (s t : State) : Prop :=
  EndedWith .transport t ∧ t.res.rval = zext16 (s.locals.ordinal + 1) ∧ ClearedBesideRval t

/-- A command that is one read-modify-write (43 R161): line 1 reads the register into VTMP, line 2 writes `f` of VTMP, whatever the
value, and ends the command with RVAL the value written; a failed transaction ends it with E_TRANSPORT. The two are separate
transactions (20 R59). -/
def ReadModifyWrite (i : Instr) (reg : Config → Byte) (f : Config → Byte → Byte) : Prop :=
  ∀ (s : State) (v : Byte) (rest : List Answer), s.pins.sel = false →
    (Ready .ctrlB s → s.env = .ok v :: rest →
      ∃ t, Continues i s [.xfer (addrRead s.cfg (reg s.cfg)) s.cfg.bus.dummy (.ok v)] 2 t ∧
        t.scratch = { s.scratch with vtmp := v } ∧ t.env = rest) ∧
    (AtLine 2 s → s.env = .ok v :: rest →
      ∃ t, exec i s = .next t ∧ EndedWith .ok t ∧ t.env = rest ∧
        t.trace = s.trace ++ [.xfer (addrWrite s.cfg (reg s.cfg)) (f s.cfg s.scratch.vtmp) (.ok v)] ∧
        t.res = { s.res with status := .ok, rval := (f s.cfg s.scratch.vtmp).setWidth 16 }) ∧
    (Ready .ctrlB s → s.env = .fail :: rest →
      ∃ t, exec i s = .next t ∧ FailedTransfer s t ∧
        t.trace = s.trace ++ [.xfer (addrRead s.cfg (reg s.cfg)) s.cfg.bus.dummy .fail]) ∧
    (AtLine 2 s → s.env = .fail :: rest →
      ∃ t, exec i s = .next t ∧ FailedTransfer s t ∧
        t.trace = s.trace ++ [.xfer (addrWrite s.cfg (reg s.cfg)) (f s.cfg s.scratch.vtmp) .fail])

/-- SEQ_OP is the opcode of the running command, or NONE when BUSY = 0 (10 R31). -/
def SeqOpAgrees (s : State) : Prop := s.seq.op = if s.busy then some (opcField s.latch.w0) else none

/-- SEQ_OP agrees with BUSY; while BUSY = 0 the select line is deasserted; while BUSY = 1 it is deasserted before the first line and
in every command that is not a Controller-A one (10 R31, 41 R120, 60 R203). -/
def IdleReleased (s : State) : Prop :=
  SeqOpAgrees s ∧ (s.busy = false → s.pins.sel = false) ∧
  (s.busy = true → (s.seq.pos = 0 ∨ ∀ i, fetch s = .ok i → i.opcode.backend ≠ some .ctrlA) → s.pins.sel = false)

/-- The position of EXECUTE_COMMAND's first FIFO read (43 R178): the head, PollIrq's three lines, the ERROR read, FIFOLEVEL and
CONTROL stand before it. -/
def readBackStart (cmd : Byte) (s : State) : Nat := (executeHead cmd s).length + 7

/-- How many bytes a running command has gathered at its position: READ_DATA and READ_ACK in their window (41 R123, R126), with
a count READ_DATA's check has passed; EXECUTE_COMMAND in RDATA (43 R178); every other command leaves RDATA empty until it
ends (10 R43). -/
def gathered (s : State) : Instr → Prop
  | .readData n => s.res.rdata = [] ∧ (s.seq.pos ≠ 0 → n.toNat ≤ s.cfg.rxMax) ∧
      (2 ≤ s.seq.pos → s.locals.rx.length = s.seq.pos - 3)
  | .readAck => s.res.rdata = [] ∧ (2 ≤ s.seq.pos → s.locals.rx.length = s.seq.pos - 3)
  | .executeCommand cmd => s.res.rdata.length = s.seq.pos - readBackStart cmd s
  | .crc16 | .crcAppend | .crcCheck | .frameBuild _ | .frameParse _ | .ackMatch | .writeCommand | .isReady
  | .waitReady _ | .sendCheckAck _ | .exchange _ _ | .readReg _ | .writeReg _ _ | .setBitmask _ _
  | .clearBitmask _ _ | .calcCrc | .reset | .antennaOn | .antennaOff => s.res.rdata = []

/-- The buffers respect P_BUF_MAX and ILEN is IBUF's length (10 R20, R23; 30 R86). While BUSY = 0, RLEN is RDATA's length and RDATA
fits (10 R29); while a command runs, RLEN is still 0 and RDATA holds what the command has gathered (10 R43). -/
def BuffersBounded (s : State) : Prop :=
  s.ilen = s.ibuf.length ∧ s.ibuf.length ≤ s.cfg.bufMax ∧ s.latch.ibuf.length ≤ s.cfg.bufMax ∧
  (s.busy = false → s.res.rlen = s.res.rdata.length ∧ s.res.rdata.length ≤ s.cfg.bufMax) ∧
  (s.busy = true → s.res.rlen = 0 ∧ ∀ i, fetch s = .ok i → gathered s i)

/-- While BUSY = 1 the latched operands equal W0, W1 and IBUF (10 R22, R23; 60 R202). -/
def LatchCurrent (s : State) : Prop :=
  s.busy = true → s.latch = { w0 := s.w0, w1 := s.w1, ibuf := s.ibuf.take s.ilen }

/-- SEQ_POS names a line of the running command's rule, or its start (10 R31). -/
def PositionValid (s : State) : Prop :=
  s.busy = true → ∀ i, fetch s = .ok i → s.seq.pos = 0 ∨ s.seq.pos ≤ (linesOf i s).length ∨ linesOf i s = []

/-- EXCHANGE's XSTATE at each position (41 R128): the write window of `w` lines, ELAPSED ← 0 of the first wait at `w + 1`, the
acknowledgement read up to line `w + 15`, ELAPSED ← 0 of the second wait at `w + 16`. -/
def exchangeStateAt (w p : Nat) : XState :=
  if p ≤ w then .idle
  else if p = w + 1 then .commandSent
  else if p ≤ w + waitLines + windowLines 6 then .ackWait
  else if p = w + waitLines + windowLines 6 + 1 then .ackOk
  else .responseWait

/-- EXCHANGE has passed its checks: it is running, past SEQ_POS 0. -/
def exchangeRunning (s : State) : Bool :=
  s.busy && decide (s.seq.pos ≠ 0) &&
    match fetch s with
    | .ok (.exchange _ _) => true
    | _ => false

/-- XSTATE is what SEQ_POS says while an EXCHANGE runs, and a final state (or IDLE) otherwise (10 R30, 41 R128). -/
def XStateConsistent (s : State) : Prop :=
  if exchangeRunning s then s.xstate = exchangeStateAt (windowLines (outFrame s).length) s.seq.pos
  else s.xstate = .idle ∨ s.xstate = .responseParsed ∨ s.xstate = .failed

/-- The moves of R128's table. -/
def exchangeMove : XState → XState → Bool
  | .idle, .commandSent => true
  | .commandSent, .ackWait => true
  | .ackWait, .ackOk => true
  | .ackOk, .responseWait => true
  | .responseWait, .responseParsed => true
  | _, .failed => true
  | _, _ => false

/-- The events of one status window that received `v` (41 R120). -/
def pollEvents (c : Config) (v : Byte) : List Event :=
  [.sel true, .tx c.link.mkStatus true, .rx (.ok v), .sel false]

/-- The answers of one status window that receives `v`: one for the marker, one for the byte. -/
def pollAnswers (v : Byte) : List Answer := [.ok 0, .ok v]

/-- Transactions that all answer Ok, with these bytes. -/
def okAnswers (vs : List Byte) : List Answer := vs.map Answer.ok

/-- The events of a write window that sends `f` (41 R120). -/
def writeEvents (c : Config) (f : List Byte) : List Event :=
  [.sel true, .tx c.link.mkWrite true] ++ f.map (Event.tx · true) ++ [.sel false]

/-- The events of a read window that receives `vs` (41 R120). -/
def readEvents (c : Config) (vs : List Byte) : List Event :=
  [.sel true, .tx c.link.mkRead true] ++ vs.map (fun v => Event.rx (.ok v)) ++ [.sel false]

/-- The event of a register read that answers `v` (43 R160). -/
def readEvent (c : Config) (reg v : Byte) : Event := .xfer (addrRead c reg) c.bus.dummy (.ok v)

/-- The event of a register write of `x`, with the byte clocked back `v` (43 R160). -/
def writeEvent (c : Config) (reg x v : Byte) : Event := .xfer (addrWrite c reg) x (.ok v)

/-- The opcodes R75 lists as unassigned. -/
def Unassigned (b : Byte) : Prop :=
  b.toNat ≤ 0x0F ∨ (0x13 ≤ b.toNat ∧ b.toNat ≤ 0x1F) ∨ (0x23 ≤ b.toNat ∧ b.toNat ≤ 0x2F) ∨
  (0x37 ≤ b.toNat ∧ b.toNat ≤ 0x3F) ∨ 0x49 ≤ b.toNat

end Sys2Proof.Machine
end

