-- ==== Sys2Proof/Certificates/Slice0/Obligations.lean ====
section
/-! DEFINITION. The statements for the provers. Each docstring names the rules of spec/ it formalises; where a statement rests on a
choice of the model, it names the assumption log's entry. -/

open Sys2Proof Sys2Proof.Machine

/-! ## Encoding -/

/-- 30 R70 to R73, R78: decoding the words of a well-formed instruction gives it back and leaves the words after it. -/
def Obligations.DecodeOfEncodedInstruction : Prop :=
  ∀ (i : Instr) (rest : List Word), i.WellFormed → decode (encode i ++ rest) = .ok (i, rest)

/-- 30 R70 to R75: a legal W0 is exactly the encoding of the well-formed instruction it decodes to, so no bit of it is dropped;
W1 is kept where the format has one. -/
def Obligations.EncodeOfDecodedWords : Prop :=
  ∀ (w0 w1 : Word) (i : Instr), decodeWords w0 w1 = .ok i →
    i.WellFormed ∧ encodeW0 i = w0 ∧ (i.opcode.format.hasW1 = true → encodeW1 i = w1)

/-- 30 R74, R79, R83, 42, 43: words written out from the encoding table decode to the instructions they stand for (a sanity
statement). -/
def Obligations.SpecWordsDecode : Prop :=
  decode [0x00000010] = .ok (.crc16, []) ∧ decode [0x00000120] = .ok (.frameBuild .c2h, []) ∧
  decode [0x000D0031] = .ok (.readData 13, []) ∧ decode [0x00000033, 0x00000019] = .ok (.waitReady 25, []) ∧
  decode [0x000D0036, 0x000003E8] = .ok (.exchange 13 1000, []) ∧ decode [0x00000440] = .ok (.readReg 4, []) ∧
  decode [0x008D2A41] = .ok (.writeReg 0x2A 0x8D, []) ∧ decode [0x00000C44] = .ok (.executeCommand 0xC, [])

/-- 30 R87: the pseudo-instructions' words, that the assembler expands their names to them, and that the two antenna ones run as
ANTENNA_ON and ANTENNA_OFF do. -/
def Obligations.PseudoInstructionsExpand : Prop :=
  (∀ c : Config, c.regs = {} →
    encode (Pseudo.flushFifo.expand c) = [0x00800A42] ∧ encode (Pseudo.deviceIdle.expand c) = [0x00000141] ∧
    encode (Pseudo.antennaOnRmw.expand c) = [0x00031442] ∧ encode (Pseudo.antennaOffRmw.expand c) = [0x00031443]) ∧
  (∀ s : State, s.cfg.backend = .ctrlB → s.cfg.regs = {} → s.cfg.masks = {} →
    exec (Pseudo.antennaOnRmw.expand s.cfg) s = exec .antennaOn s ∧
    exec (Pseudo.antennaOffRmw.expand s.cfg) s = exec .antennaOff s) ∧
  (∀ (b : Backend) (e : String × Word),
    e ∈ [("FLUSH_FIFO", 0x00800A42), ("DEVICE_IDLE", 0x00000141), ("ANTENNA_ON_RMW", 0x00031442),
      ("ANTENNA_OFF_RMW", 0x00031443)] →
    assembleLine (Config.standard b) e.1.toList = some (.words [e.2]))

/-- 30 R83: the address byte is 0x80 + 2·reg for a read and 2·reg for a write; the second byte is the dummy 0x00 or the data. -/
def Obligations.RegisterAddressByte : Prop :=
  ∀ (c : Config) (reg v : Byte) (use : Byte → State → Flow), c.bus = {} → RegOk reg →
    (regRead c reg use).prim = .xfer (BitVec.ofNat 8 (0x80 + 2 * reg.toNat)) 0x00 ∧
    (regWrite c reg v).prim = .xfer (BitVec.ofNat 8 (2 * reg.toNat)) v

/-! ## Start, host actions, reset -/

/-- 30 R75, 60 R201, R203: an unassigned opcode, or a 1 in a must-be-zero bit of the opcode's format, ends the command with
E_ILLEGAL(W0[15:0]) before any transaction. -/
def Obligations.IllegalCommandEnds : Prop :=
  ∀ s : State, s.busy = true → s.host = [] → s.pins.sel = false →
    (Unassigned (opcField s.latch.w0) ∨
      ∃ o ∈ Opcode.all, o.code = opcField s.latch.w0 ∧ s.latch.w0 &&& o.format.zeroBits ≠ 0) →
    ∃ t, step s = .next t ∧ EndedWith .illegal t ∧ t.res.rval = s.latch.w0.setWidth 16 ∧ ClearedBesideRval t ∧
      NoTransaction s t ∧ t.xstate = s.xstate

/-- 30 R76: a command of the other backend ends with E_BACKEND before any transaction; the commands marked "any" run in both. -/
def Obligations.WrongBackendEndsCommand : Prop :=
  (∀ (i : Instr) (b : Backend) (s : State), i.opcode.backend = some b → s.seq.pos = 0 → s.cfg.backend ≠ b →
    s.pins.sel = false →
    ∃ t, exec i s = .next t ∧ EndedWith .backend t ∧ t.res.rval = i.opcode.code.setWidth 16 ∧ ClearedBesideRval t ∧
      NoTransaction s t ∧ t.xstate = s.xstate) ∧
  (∀ (i : Instr) (s : State), i.opcode.backend = none → ∃ t, exec i s = .next t ∧ t.busy = false ∧
    t.res.status ≠ .backend)

/-- 60 R200, R205 (41 R122, R123, R127, R129; 43 R170, R180): each transport command with a length limit ends with E_PARAMETER before
any transaction when the limit is exceeded; EXCHANGE checks ILEN before n and leaves XSTATE = FAILED. -/
def Obligations.ParameterErrorsPrecedeTransactions : Prop :=
  ∀ s : State, s.seq.pos = 0 → s.pins.sel = false →
    (s.cfg.framePayloadMax < s.dataLen → s.cfg.backend = .ctrlA →
      Rejects .writeCommand s s.dataLen s.xstate ∧ (∀ w, Rejects (.sendCheckAck w) s s.dataLen s.xstate) ∧
      (∀ n w, Rejects (.exchange n w) s s.dataLen .failed)) ∧
    (∀ n : Half, s.cfg.rxMax < n.toNat → s.cfg.backend = .ctrlA →
      Rejects (.readData n) s n.toNat s.xstate ∧
      (s.dataLen ≤ s.cfg.framePayloadMax → ∀ w, Rejects (.exchange n w) s n.toNat .failed)) ∧
    (s.cfg.fifoDepth < s.dataLen → s.cfg.backend = .ctrlB →
      (∀ cmd, Rejects (.executeCommand cmd) s s.dataLen s.xstate) ∧ Rejects .calcCrc s s.dataLen s.xstate)

/-- 60 R200, R203, 41 R120, 43 R160: a failed transfer ends the command with E_TRANSPORT(k), k the ordinal of the transaction, after
the select line is deasserted; EXCHANGE leaves XSTATE = FAILED. The first clause is a failure at any line of a command that has
started; the second is the failure of a register command's first transaction, which it makes in the step that starts it (a
link command's first line makes none). That the failed event and its SEL(0) fall in one step is log 13. A k above 65535 has a
free value: log 7.
Line numbers: log 5. -/
def Obligations.TransportFailureEndsCommand : Prop :=
  (∀ (i : Instr) (b : Backend) (s : State) (l : Line) (rest : List Answer), i.opcode.backend = some b →
    s.seq.pos ≠ 0 → (linesOf i s)[s.seq.pos - 1]? = some l → l.prim.answered = true → s.env = .fail :: rest →
    ∃ t, exec i s = .next t ∧ FailedTransfer s t ∧
      t.trace = s.trace ++ l.prim.failEvent ++ (if s.pins.sel then [.sel false] else []) ∧ t.env = rest ∧
      t.xstate = (if i.opcode = .exchange then .failed else s.xstate)) ∧
  (∀ (i : Instr) (a d : Byte) (s : State) (rest : List Answer), firstTransfer s i = some (a, d) → Ready .ctrlB s →
    (s.dataLen ≤ s.cfg.fifoDepth ∨ ((∀ cmd, i ≠ .executeCommand cmd) ∧ i ≠ .calcCrc)) → s.env = .fail :: rest →
    ∃ t, exec i s = .next t ∧ FailedTransfer s t ∧ t.trace = s.trace ++ [.xfer a d .fail] ∧ t.env = rest ∧
      t.xstate = s.xstate)

/-- 60 R201, 10 R22, R23, R43: the host's write of W0 while BUSY = 0 latches the operands, sets BUSY and SEQ_OP, clears the results and
leaves XSTATE; the ordinal of the command's transactions starts from 0 (60 R200). That the position SEQ_POS (10 R31) of a
command's start is 0 is the model's own numbering: log 5, log 14. -/
def Obligations.WriteOfW0StartsCommand : Prop :=
  ∀ (s : State) (w : Word) (rest : List HostAction), s.host = .writeW0 w :: rest → s.busy = false →
    ∃ t, step s = .next t ∧ t.w0 = w ∧ t.latch.w0 = w ∧ t.latch.w1 = s.w1 ∧ t.latch.ibuf = s.ibuf.take s.ilen ∧
      t.busy = true ∧ t.seq.op = some (w.setWidth 8) ∧ t.seq.pos = 0 ∧ t.res.status = .ok ∧ t.res.rval = 0 ∧
      ClearedBesideRval t ∧ t.xstate = s.xstate ∧ NoTransaction s { t with locals := s.locals } ∧ t.locals.ordinal = 0 ∧
      t.host = rest

/-- 60 R202, 10 R44: a host write of W0, W1 or IBUF and a host read of a result register are refused while BUSY = 1, and a load of
IBUF above P_BUF_MAX always. -/
def Obligations.HostProtocolErrorsRefused : Prop :=
  ∀ (s : State) (rest : List HostAction),
    (s.busy = true →
      (∀ w, s.host = .writeW0 w :: rest → step s = .refused .writeWhileBusy) ∧
      (∀ w, s.host = .writeW1 w :: rest → step s = .refused .writeWhileBusy) ∧
      (∀ bs, s.host = .loadBuf bs :: rest → step s = .refused .writeWhileBusy) ∧
      (∀ r, r ≠ .busy → s.host = .read r :: rest → step s = .refused .readWhileBusy)) ∧
    (s.busy = false →
      ∀ bs, s.host = .loadBuf bs :: rest → s.cfg.bufMax < bs.length → step s = .refused .bufTooLong)

/-- 10 R20, R21, R23, R30, 60 R200: the numbers of the STATUS codes and of the XSTATE values; while BUSY = 0 the host may write W1,
load IBUF with ILEN and read every result register, and BUSY is readable at any time; RST makes no transaction and adds no
event to the trace (70 R231). What a read leaves in the state is log 12, and that the trace itself goes on after RST is log 9. -/
def Obligations.HostAccessWhileIdle : Prop :=
  [Status.ok, .transport, .framing, .timeout, .tagAbsent, .collision, .integrity, .auth, .parameter, .illegal,
    .backend].map Status.code = [0, 1, 2, 3, 4, 5, 6, 7, 8, 9, 10] ∧
  [XState.idle, .commandSent, .ackWait, .ackOk, .responseWait, .responseParsed, .failed].map XState.code =
    [0, 1, 2, 3, 4, 5, 6] ∧
  ∀ (s : State) (rest : List HostAction),
    (s.busy = false →
      (∀ w, s.host = .writeW1 w :: rest → step s = .next { s with host := rest, w1 := w }) ∧
      (∀ bs, s.host = .loadBuf bs :: rest → bs.length ≤ s.cfg.bufMax →
        step s = .next { s with host := rest, ibuf := bs, ilen := bs.length }) ∧
      (∀ r, s.host = .read r :: rest → r ≠ .busy →
        ∃ x, step s = .next { s with host := rest, hostRead := some x } ∧
          (r = .status → x = .num s.res.status.code.toNat) ∧ (r = .rbool → x = .num (if s.res.rbool then 1 else 0)) ∧
          (r = .rval → x = .num s.res.rval.toNat) ∧ (r = .rbitlen → x = .num s.res.rbitlen.toNat) ∧
          (r = .rdata → x = .bytes s.res.rdata) ∧ (r = .rlen → x = .num s.res.rlen) ∧
          (r = .xstate → x = .num s.xstate.code.toNat))) ∧
    (s.host = .read .busy :: rest →
      step s = .next { s with host := rest, hostRead := some (.num (if s.busy then 1 else 0)) }) ∧
    (s.host = .rst :: rest → ∃ t, step s = .next t ∧ t.trace = s.trace ∧ t.env = s.env ∧ t.draws = s.draws)

/-- 10 R42, 70 R230: RST puts every piece of block state to its reset value at once, whatever the block is doing. -/
def Obligations.BlockResetRestoresResetValues : Prop :=
  ∀ (s : State) (rest : List HostAction), s.host = .rst :: rest →
    ∃ t, step s = .next t ∧ t.busy = false ∧ t.w0 = 0 ∧ t.w1 = 0 ∧ t.ibuf = [] ∧ t.ilen = 0 ∧
      t.res.status = .ok ∧ t.res.rval = 0 ∧ ClearedBesideRval t ∧ t.xstate = .idle ∧ t.seq = { op := none, pos := 0 } ∧
      t.scratch = {} ∧ t.crcr = s.cfg.crcPreset ∧ t.pins = { sel := false, clk := false, dout := false }

/-- 10 R42, 95 Z1: the values after power-on. -/
def Obligations.ResetStateValues : Prop :=
  State.reset.busy = false ∧ State.reset.w0 = 0 ∧ State.reset.w1 = 0 ∧ State.reset.ibuf = [] ∧ State.reset.ilen = 0 ∧
  State.reset.res = { status := .ok, rbool := false, rval := 0, rbitlen := 0, rdata := [], rlen := 0 } ∧
  State.reset.xstate = .idle ∧
  State.reset.seq = { op := none, pos := 0, elapsed := 0, pollI := 0, crcI := 0 } ∧
  State.reset.scratch = { irqv := 0, errv := 0, lvl := 0, lb := 0, divv := 0, ien := 0, waitm := 0, vtmp := 0 } ∧
  State.reset.crcr = 0x6363 ∧ State.reset.pins = { sel := false, clk := false, dout := false } ∧ State.reset.trace = []

/-- 10 R22, R31, 70 R232, 60 R204: while BUSY = 1 a step of the block is exec of the latched instruction (with nothing pending, with
the host letting it run, and while the host polls BUSY); while BUSY = 0 and nothing pends the block waits. The host's schedule
is log 4. -/
def Obligations.StepRunsDecodedCommand : Prop :=
  (∀ (s : State) (i : Instr) (rest : List HostAction), s.busy = true → fetch s = .ok i →
    (s.host = [] → step s = exec i s) ∧ (s.host = .awaitIdle :: rest → step s = exec i s) ∧
    (s.host = .run :: rest → step s = exec i { s with host := rest })) ∧
  (∀ s : State, s.busy = false → s.host = [] → step s = .next s)

/-! ## CRC unit -/

/-- 42 R144: CRC16. That CRCR keeps the result after the command has ended is the model's choice (10 R34 leaves its value between
commands unobserved): log 18. -/
def Obligations.Crc16Result : Prop :=
  ∀ s : State, ∃ t, exec .crc16 s = .next t ∧ EndedWith .ok t ∧ t.crcr = crcA s.cfg s.data ∧
    t.res = { s.res with status := .ok, rval := crcA s.cfg s.data }

/-- 42 R145: CRC_APPEND, within its limit and above it. -/
def Obligations.CrcAppendResult : Prop :=
  ∀ s : State, 2 ≤ s.cfg.bufMax → s.pins.sel = false →
    (s.dataLen ≤ s.cfg.bufMax - 2 →
      ∃ t, exec .crcAppend s = .next t ∧ EndedWith .ok t ∧
        t.res.rdata = s.data ++ [(crcA s.cfg s.data).setWidth 8, (crcA s.cfg s.data >>> 8).setWidth 8] ∧
        t.res.rlen = s.dataLen + 2 ∧ t.res.rval = crcA s.cfg s.data ∧ t.res.rbool = s.res.rbool ∧
        t.res.rbitlen = s.res.rbitlen) ∧
    (s.cfg.bufMax - 2 < s.dataLen → Rejects .crcAppend s s.dataLen s.xstate)

/-- 42 R146: CRC_CHECK on at least two bytes ends OK exactly when the last two are the CRC of the rest, low byte first, which is when
the CRC of the whole buffer is 0, and with E_INTEGRITY otherwise; RVAL is the recomputed CRC, and a match writes no other
result. On fewer it ends with E_PARAMETER. -/
def Obligations.CrcCheckResult : Prop :=
  ∀ s : State, s.cfg.crcPolyRefl = 0x8408 → s.pins.sel = false →
    (∀ (d : List Byte) (lo hi : Byte), s.data = d ++ [lo, hi] →
      ∃ t, exec .crcCheck s = .next t ∧ t.busy = false ∧ t.res.rval = crcA s.cfg d ∧
        (hi ++ lo = crcA s.cfg d →
          EndedWith .ok t ∧ t.res = { s.res with status := .ok, rval := crcA s.cfg d }) ∧
        (hi ++ lo ≠ crcA s.cfg d → EndedWith .integrity t ∧ ClearedBesideRval t) ∧
        (t.res.status = .ok ↔ crcA s.cfg s.data = 0)) ∧
    (s.dataLen < 2 → Rejects .crcCheck s s.dataLen s.xstate)

/-- 42 R142: the empty run gives the preset; a run followed by its own CRC, low byte first, gives 0; for runs of equal length the
difference of the CRCs depends only on the difference of the runs; changing any one byte changes the CRC. -/
def Obligations.CrcProperties : Prop :=
  ∀ (c : Config) (s : List Byte), c.crcPreset = 0x6363 → c.crcPolyRefl = 0x8408 →
    crcA c [] = 0x6363 ∧
    crcA c (s ++ [(crcA c s).setWidth 8, (crcA c s >>> 8).setWidth 8]) = 0x0000 ∧
    (∀ s' u u' : List Byte, s'.length = s.length → u.length = s.length → u'.length = s.length →
      List.zipWith (· ^^^ ·) s s' = List.zipWith (· ^^^ ·) u u' → crcA c s ^^^ crcA c s' = crcA c u ^^^ crcA c u') ∧
    (∀ (k : Nat) (x : Byte), (h : k < s.length) → x ≠ s[k] → crcA c (s.set k x) ≠ crcA c s)

/-- 42 R141: the byte-wise form gives the same value for every run. -/
def Obligations.CrcByteWiseFormAgrees : Prop :=
  ∀ (b : Backend) (s : List Byte), crcA (Config.standard b) s = crcAFast s

/-! ## Frame unit -/

/-- 40 R100, R101, 30 R80: a byte run and its checksum sum to 0; TFI is the direction's own byte; the fields of a built frame are
those of the layout table, for any constants, and with the table's own bytes for the table's constants. -/
def Obligations.FrameFieldsAndChecksums : Prop :=
  (∀ s : List Byte, byteSum (s ++ [cks8 s]) = 0) ∧
  (∀ c : Config, tfi c .h2c = c.frame.tfiH2C ∧ tfi c .c2h = c.frame.tfiC2H) ∧
  (∀ (c : Config) (dir : Dir) (p : List Byte), p.length ≤ 254 →
    ∃ lcs dcs : Byte, buildFrame c dir p =
      [c.frame.pre0, c.frame.pre1, c.frame.start, BitVec.ofNat 8 (p.length + 1), lcs, tfi c dir] ++ p ++
        [dcs, c.frame.post] ∧
      (p.length + 1 + lcs.toNat) % 256 = 0 ∧
      ((tfi c dir).toNat + (p.map BitVec.toNat).sum + dcs.toNat) % 256 = 0 ∧
      (buildFrame c dir p).length = p.length + 8 ∧
      (c.frame = {} → buildFrame c dir p =
        [0x00, 0x00, 0xFF, BitVec.ofNat 8 (p.length + 1), lcs, if dir = .h2c then 0xD4 else 0xD5] ++ p ++ [dcs, 0x00]))

/-- 40 R102: FRAME_BUILD, within its limit and above it; nothing is sent. -/
def Obligations.FrameBuildResult : Prop :=
  ∀ (dir : Dir) (s : State), s.pins.sel = false →
    (s.dataLen ≤ s.cfg.framePayloadMax →
      ∃ t, exec (.frameBuild dir) s = .next t ∧ EndedWith .ok t ∧ NoTransaction s t ∧
        t.res = { s.res with status := .ok, rdata := buildFrame s.cfg dir s.data, rlen := s.dataLen + 8 }) ∧
    (s.cfg.framePayloadMax < s.dataLen → Rejects (.frameBuild dir) s s.dataLen s.xstate)

/-- 40 R104: FRAME_PARSE, both ways. -/
def Obligations.FrameParseResult : Prop :=
  ∀ (dir : Dir) (s : State), ∃ t, exec (.frameParse dir) s = .next t ∧
    (∀ p, parseFrame s.cfg dir s.data = .ok p →
      EndedWith .ok t ∧ t.res = { s.res with status := .ok, rdata := p, rlen := p.length }) ∧
    (∀ e, parseFrame s.cfg dir s.data = .error e →
      EndedWith .framing t ∧ t.res.rval = BitVec.ofNat 16 e.reason ∧ ClearedBesideRval t)

/-- 40 R106, R107: ACK_MATCH is true exactly on the six bytes of ACK. -/
def Obligations.AckMatchResult : Prop :=
  ∀ s : State, s.cfg.ack.length = 6 → ∃ t, exec .ackMatch s = .next t ∧ EndedWith .ok t ∧
    (t.res.rbool = true ↔ s.data.length = 6 ∧ ∀ k < 6, s.data[k]? = s.cfg.ack[k]?) ∧
    t.res.rval = s.res.rval ∧ t.res.rdata = s.res.rdata ∧ t.res.rlen = s.res.rlen ∧ t.res.rbitlen = s.res.rbitlen

/-- 40 R103: Parse makes seven checks in order, the first that fails gives its reason number, and the payload is the LEN - 1 bytes
after the direction byte; the postamble and what follows it are not looked at. -/
def Obligations.ParseChecksInOrder : Prop :=
  (∀ (c : Config) (dir : Dir) (b : List Byte) (len : Nat), len = (b.getD 3 0).toNat →
    parseFrame c dir b =
      if b.length < 6 then .error .shortHeader
      else if b.take 3 ≠ [c.frame.pre0, c.frame.pre1, c.frame.start] then .error .preamble
      else if (len + (b.getD 4 0).toNat) % 256 ≠ 0 then .error .lcs
      else if len = 0 then .error .lenZero
      else if b.length < len + 6 then .error .shortBody
      else if b[5]? ≠ some (tfi c dir) then .error .direction
      else if (((b.take (len + 6)).drop 5).map BitVec.toNat).sum % 256 ≠ 0 then .error .dcs
      else .ok ((b.take (len + 5)).drop 6)) ∧
  [ParseError.shortHeader, .preamble, .lcs, .lenZero, .shortBody, .direction, .dcs].map ParseError.reason =
    [1, 2, 3, 4, 5, 6, 7]

/-- 40 R105: a built frame parses back to its payload, for each direction; its DCS is the two's complement of the sum of the direction
byte and the payload; changing any single byte at offsets 0 to 6 + n makes Parse fail, changing the postamble does not. -/
def Obligations.FrameRoundTrip : Prop :=
  ∀ (c : Config) (dir : Dir) (p : List Byte), p.length ≤ c.framePayloadMax → c.framePayloadMax ≤ 254 →
    parseFrame c dir (buildFrame c dir p) = .ok p ∧
    ((buildFrame c dir p).getD (6 + p.length) 0).toNat =
      (256 - ((tfi c dir).toNat + (p.map BitVec.toNat).sum) % 256) % 256 ∧
    (∀ (k : Nat) (x : Byte), k ≤ 6 + p.length → (buildFrame c dir p)[k]? ≠ some x →
      ∃ e, parseFrame c dir ((buildFrame c dir p).set k x) = .error e) ∧
    (∀ x : Byte, parseFrame c dir ((buildFrame c dir p).set (7 + p.length) x) = .ok p)

/-! ## Link sequencer -/

/-- 41 R120, R122: WRITE_COMMAND's lines: select, write marker, the n + 8 frame bytes in order, deselect, which ends it. SEL is 1
from the select line to the deselect, and each byte sent leaves CLK at 0 and DOUT at its bit 7 (Continues); the pins of one
byte, least significant bit first, are those of 41 R121 and leave those lines.
Line numbers: log 5. A byte's pins move within one step: log 8. -/
def Obligations.WriteCommandLines : Prop :=
  WriteWindowLines .writeCommand (fun s => s.dataLen ≤ s.cfg.framePayloadMax) ∧
  (∀ s : State, AtLine (s.dataLen + 11) s → ∃ t, exec .writeCommand s = .next t ∧ EndedWith .ok t ∧
    t.trace = s.trace ++ [.sel false] ∧ t.res = { s.res with status := .ok }) ∧
  (∀ (b : Byte) (p : Pins), runPins (linkTxPins b) p = linesAfter p (.tx b true) ∧
    linkTxPins b =
      [.clk true, .dout (b.getLsbD 0), .clk false, .clk true, .dout (b.getLsbD 1), .clk false,
       .clk true, .dout (b.getLsbD 2), .clk false, .clk true, .dout (b.getLsbD 3), .clk false,
       .clk true, .dout (b.getLsbD 4), .clk false, .clk true, .dout (b.getLsbD 5), .clk false,
       .clk true, .dout (b.getLsbD 6), .clk false, .clk true, .dout (b.getLsbD 7), .clk false])

/-- 41 R122: the whole run of WRITE_COMMAND when no transfer fails, from its start to its end.
Line numbers and the count of steps: log 5. -/
def Obligations.WriteCommandRun : Prop :=
  ∀ (s : State) (vs : List Byte) (rest : List Answer), s.busy = true → s.host = [] → fetch s = .ok .writeCommand →
    Ready .ctrlA s → s.dataLen ≤ s.cfg.framePayloadMax → vs.length = s.dataLen + 9 → s.env = okAnswers vs ++ rest →
    ∃ t, Host.Core.run core (s.dataLen + 11) s = .next t ∧ EndedWith .ok t ∧ t.env = rest ∧
      t.trace = s.trace ++ writeEvents s.cfg (buildFrame s.cfg .h2c s.data) ∧
      t.res = { s.res with status := .ok }

/-- 41 R120, R123: READ_DATA's lines: select, read marker, n bytes received in order, deselect, which ends it with RDATA and
RLEN. SEL is 1 from the select line to the deselect, and each byte received leaves CLK and DOUT at 0 (Continues); the pins of
one byte are those of 41 R121 and leave those lines, and the levels a device drives for a byte, least significant bit first (20
R56), assemble to that byte.
Line numbers: log 5. A byte's pins move within one step: log 8. -/
def Obligations.ReadDataLines : Prop :=
  (∀ (n : Half) (s : State) (v : Byte) (rest : List Answer),
    (Ready .ctrlA s → n.toNat ≤ s.cfg.rxMax →
      ∃ t, Continues (.readData n) s [.sel true] 2 t ∧ t.locals.rx = []) ∧
    (AtLine 2 s → s.env = .ok v :: rest →
      ∃ t, Continues (.readData n) s [.tx s.cfg.link.mkRead true] 3 t ∧ t.locals.rx = s.locals.rx) ∧
    (∀ k < n.toNat, AtLine (3 + k) s → s.env = .ok v :: rest →
      ∃ t, Continues (.readData n) s [.rx (.ok v)] (4 + k) t ∧ t.locals.rx = s.locals.rx ++ [v]) ∧
    (AtLine (n.toNat + 3) s → ∃ t, exec (.readData n) s = .next t ∧ EndedWith .ok t ∧
      t.trace = s.trace ++ [.sel false] ∧
      t.res = { s.res with status := .ok, rdata := s.locals.rx, rlen := n.toNat })) ∧
  (∀ (v : Byte) (p : Pins), runPins linkRxPins p = linesAfter p (.rx (.ok v)) ∧ assemble (dinLevels v) = v ∧
    dinLevels v = [v.getLsbD 0, v.getLsbD 1, v.getLsbD 2, v.getLsbD 3, v.getLsbD 4, v.getLsbD 5, v.getLsbD 6,
      v.getLsbD 7]) ∧
  linkRxPins =
    [.dout false, .clk true, .clk false, .sample 0, .clk true, .clk false, .sample 1, .clk true, .clk false, .sample 2,
     .clk true, .clk false, .sample 3, .clk true, .clk false, .sample 4, .clk true, .clk false, .sample 5,
     .clk true, .clk false, .sample 6, .clk true, .clk false, .sample 7]

/-- 41 R124: IS_READY's lines; the last one ends it with the status byte and its comparison with READY.
Line numbers: log 5. -/
def Obligations.IsReadyLines : Prop :=
  ∀ (s : State) (v : Byte) (rest : List Answer),
    (Ready .ctrlA s → ∃ t, Continues .isReady s [.sel true] 2 t) ∧
    (AtLine 2 s → s.env = .ok v :: rest → ∃ t, Continues .isReady s [.tx s.cfg.link.mkStatus true] 3 t) ∧
    (AtLine 3 s → s.env = .ok v :: rest →
      ∃ t, Continues .isReady s [.rx (.ok v)] 4 t ∧ t.locals.status = v) ∧
    (AtLine 4 s → ∃ t, exec .isReady s = .next t ∧ EndedWith .ok t ∧ t.trace = s.trace ++ [.sel false] ∧
      t.res = { s.res with
        status := .ok, rval := s.locals.status.setWidth 16, rbool := decide (s.locals.status = s.cfg.link.ready) })

/-- 41 R126: READ_ACK receives six bytes and its last line ends it with them and their comparison with ACK.
Line numbers: log 5. -/
def Obligations.ReadAckLines : Prop :=
  ∀ (s : State) (v : Byte) (rest : List Answer),
    (Ready .ctrlA s → ∃ t, Continues .readAck s [.sel true] 2 t ∧ t.locals.rx = []) ∧
    (AtLine 2 s → s.env = .ok v :: rest →
      ∃ t, Continues .readAck s [.tx s.cfg.link.mkRead true] 3 t ∧ t.locals.rx = s.locals.rx) ∧
    (∀ k < 6, AtLine (3 + k) s → s.env = .ok v :: rest →
      ∃ t, Continues .readAck s [.rx (.ok v)] (4 + k) t ∧ t.locals.rx = s.locals.rx ++ [v]) ∧
    (AtLine 9 s → ∃ t, exec .readAck s = .next t ∧ EndedWith .ok t ∧ t.trace = s.trace ++ [.sel false] ∧
      t.res.rdata = s.locals.rx ∧ t.res.rlen = 6 ∧ t.res.rval = s.res.rval ∧ t.res.rbitlen = s.res.rbitlen ∧
      (t.res.rbool = true ↔ s.locals.rx.length = 6 ∧ s.locals.rx = s.cfg.ack))

/-- 41 R125: WAIT_READY's lines: ELAPSED ← 0, one status window a poll, the test after it, the delay and the loop back.
Line numbers: log 5. -/
def Obligations.WaitReadyLines : Prop :=
  ∀ (w : Word) (s : State) (v : Byte) (rest : List Answer),
    (Ready .ctrlA s → ∃ t, Continues (.waitReady w) s [] 2 t ∧ t.seq.elapsed = 0) ∧
    (AtLine 2 s → ∃ t, Continues (.waitReady w) s [.sel true] 3 t ∧ t.seq.elapsed = s.seq.elapsed) ∧
    (AtLine 3 s → s.env = .ok v :: rest →
      ∃ t, Continues (.waitReady w) s [.tx s.cfg.link.mkStatus true] 4 t ∧ t.seq.elapsed = s.seq.elapsed) ∧
    (AtLine 4 s → s.env = .ok v :: rest → ∃ t, Continues (.waitReady w) s [.rx (.ok v)] 5 t ∧
      t.locals.status = v ∧ t.seq.elapsed = s.seq.elapsed) ∧
    (AtLine 5 s → s.locals.status = s.cfg.link.ready →
      ∃ t, exec (.waitReady w) s = .next t ∧ EndedWith .ok t ∧ t.trace = s.trace ++ [.sel false] ∧
        t.res = { s.res with status := .ok, rbool := true, rval := s.locals.status.setWidth 16 }) ∧
    (AtLine 5 s → s.locals.status ≠ s.cfg.link.ready → w = 0 →
      ∃ t, Continues (.waitReady w) s [.sel false] 6 t ∧ t.seq.elapsed = s.seq.elapsed) ∧
    (AtLine 5 s → s.locals.status ≠ s.cfg.link.ready → w ≠ 0 → w.toNat < s.seq.elapsed + s.cfg.pollStepMs →
      ∃ t, exec (.waitReady w) s = .next t ∧ EndedWith .ok t ∧ t.trace = s.trace ++ [.sel false] ∧
        t.res = { s.res with status := .ok, rbool := false, rval := s.locals.status.setWidth 16 }) ∧
    (AtLine 5 s → s.locals.status ≠ s.cfg.link.ready → w ≠ 0 → s.seq.elapsed + s.cfg.pollStepMs ≤ w.toNat →
      ∃ t, Continues (.waitReady w) s [.sel false] 6 t ∧ t.seq.elapsed = s.seq.elapsed + s.cfg.pollStepMs) ∧
    (AtLine 6 s → ∃ t, Continues (.waitReady w) s [.delay (s.cfg.pollStepMs * 1000)] 2 t ∧
      t.seq.elapsed = s.seq.elapsed)

/-- 41 R125, 60 R215, 90 C2: with T = 0 and a device that is never ready, WAIT_READY is still polling after any number of polls,
with exactly those polls and delays in the trace: nothing cuts the run off.
Line numbers and the count of steps: log 5. -/
def Obligations.WaitReadyPollsForever : Prop :=
  ∀ (s : State) (vs : List Byte) (rest : List Answer), s.busy = true → s.host = [] → fetch s = .ok (.waitReady 0) →
    s.seq.pos = 2 → (∀ v ∈ vs, v ≠ s.cfg.link.ready) → s.env = vs.flatMap pollAnswers ++ rest →
    ∃ t, Host.Core.run core (5 * vs.length) s = .next t ∧ t.busy = true ∧ t.seq.pos = 2 ∧ t.latch = s.latch ∧
      t.env = rest ∧
      t.trace = s.trace ++ vs.flatMap fun v => pollEvents s.cfg v ++ [.delay (s.cfg.pollStepMs * 1000)]

/-- 41 R125 (bounds): with T ≠ 0 and a device that is never ready, WAIT_READY makes exactly floor(T / 10) + 1 polls and floor(T / 10)
delays and then answers false.
Line numbers and the count of steps: log 5. -/
def Obligations.WaitReadyExpires : Prop :=
  ∀ (w : Word) (s : State) (vs : List Byte) (v : Byte) (rest : List Answer), s.busy = true → s.host = [] →
    fetch s = .ok (.waitReady w) → Ready .ctrlA s → s.cfg.pollStepMs = 10 → w ≠ 0 → vs.length = w.toNat / 10 →
    (∀ u ∈ vs ++ [v], u ≠ s.cfg.link.ready) → s.env = (vs ++ [v]).flatMap pollAnswers ++ rest →
    ∃ t, Host.Core.run core (1 + 5 * (w.toNat / 10) + 4) s = .next t ∧ EndedWith .ok t ∧ t.env = rest ∧
      t.res = { s.res with status := .ok, rbool := false, rval := v.setWidth 16 } ∧
      t.trace = s.trace ++ (vs.flatMap fun u => pollEvents s.cfg u ++ [.delay 10000]) ++ pollEvents s.cfg v

/-- 41 R127: every line of SEND_CHECK_ACK, n = ILEN: the write window (lines 1 to n + 11), the first wait (n + 12 to n + 17), the
acknowledgement read (n + 18 to n + 26), the second wait (n + 27 to n + 32), ELAPSED starting from 0 at each wait (10 R32); and
its decisions, at the deselect line of the first status window (n + 16), of the acknowledgement read (n + 26) and of the second
status window (n + 31).
Line numbers: log 5. -/
def Obligations.SendCheckAckDecisions : Prop :=
  ∀ w : Word,
    WriteWindowLines (.sendCheckAck w) (fun s => s.dataLen ≤ s.cfg.framePayloadMax) ∧
    WaitLines (.sendCheckAck w) w (fun s => s.dataLen + 12) ∧
    ReadWindowLines (.sendCheckAck w) (fun s => s.dataLen + 18) 6 ∧
    WaitLines (.sendCheckAck w) w (fun s => s.dataLen + 27) ∧
    ∀ s : State,
      (AtLine (s.dataLen + 11) s → ∃ t, Continues (.sendCheckAck w) s [.sel false] (s.dataLen + 12) t) ∧
      (∀ p q : Nat, (p = s.dataLen + 16 ∧ q = 1 ∨ p = s.dataLen + 31 ∧ q = 3) → AtLine p s →
        s.locals.status ≠ s.cfg.link.ready → w ≠ 0 → w.toNat < s.seq.elapsed + s.cfg.pollStepMs →
        ∃ t, exec (.sendCheckAck w) s = .next t ∧ EndedWith .ok t ∧ t.trace = s.trace ++ [.sel false] ∧
          t.res = { s.res with status := .ok, rval := BitVec.ofNat 16 q, rbool := false }) ∧
      (AtLine (s.dataLen + 16) s → s.locals.status = s.cfg.link.ready →
        ∃ t, Continues (.sendCheckAck w) s [.sel false] (s.dataLen + 18) t) ∧
      (AtLine (s.dataLen + 26) s → s.locals.rx.length = 6 → s.locals.rx = s.cfg.ack →
        ∃ t, Continues (.sendCheckAck w) s [.sel false] (s.dataLen + 27) t) ∧
      (AtLine (s.dataLen + 26) s → ¬(s.locals.rx.length = 6 ∧ s.locals.rx = s.cfg.ack) →
        ∃ t, exec (.sendCheckAck w) s = .next t ∧ EndedWith .ok t ∧ t.trace = s.trace ++ [.sel false] ∧
          t.res = { s.res with status := .ok, rval := 2, rbool := false }) ∧
      (AtLine (s.dataLen + 31) s → s.locals.status = s.cfg.link.ready →
        ∃ t, exec (.sendCheckAck w) s = .next t ∧ EndedWith .ok t ∧ t.trace = s.trace ++ [.sel false] ∧
          t.res = { s.res with status := .ok, rbool := true })

/-- 41 R128, R129: every line of EXCHANGE, n = ILEN and m the response length: the lines of SEND_CHECK_ACK, with the moves of XSTATE
(a wait that is not ready and has time left goes on to its delay, WaitLines), then the response window (lines n + 33 to
n + 35 + m); and its decisions, at the same lines and at the deselect line of the response window.
Line numbers: log 5. -/
def Obligations.ExchangeDecisions : Prop :=
  ∀ (m : Half) (w : Word),
    WriteWindowLines (.exchange m w) (fun s => s.dataLen ≤ s.cfg.framePayloadMax ∧ m.toNat ≤ s.cfg.rxMax) ∧
    WaitLines (.exchange m w) w (fun s => s.dataLen + 12) ∧
    ReadWindowLines (.exchange m w) (fun s => s.dataLen + 18) 6 ∧
    WaitLines (.exchange m w) w (fun s => s.dataLen + 27) ∧
    ReadWindowLines (.exchange m w) (fun s => s.dataLen + 33) m.toNat ∧
    ∀ s : State,
      (AtLine (s.dataLen + 11) s →
        ∃ t, Continues (.exchange m w) s [.sel false] (s.dataLen + 12) t ∧ t.xstate = .commandSent) ∧
      (AtLine (s.dataLen + 12) s →
        ∃ t, Continues (.exchange m w) s [] (s.dataLen + 13) t ∧ t.xstate = .ackWait) ∧
      (AtLine (s.dataLen + 27) s →
        ∃ t, Continues (.exchange m w) s [] (s.dataLen + 28) t ∧ t.xstate = .responseWait) ∧
      (∀ p q : Nat, (p = s.dataLen + 16 ∧ q = 1 ∨ p = s.dataLen + 31 ∧ q = 3) → AtLine p s →
        s.locals.status ≠ s.cfg.link.ready → w ≠ 0 → w.toNat < s.seq.elapsed + s.cfg.pollStepMs →
        ∃ t, exec (.exchange m w) s = .next t ∧ EndedWith .timeout t ∧ t.trace = s.trace ++ [.sel false] ∧
          t.res.rval = BitVec.ofNat 16 q ∧ ClearedBesideRval t ∧ t.xstate = .failed) ∧
      (AtLine (s.dataLen + 16) s → s.locals.status = s.cfg.link.ready →
        ∃ t, Continues (.exchange m w) s [.sel false] (s.dataLen + 18) t ∧ t.xstate = s.xstate) ∧
      (AtLine (s.dataLen + 26) s → s.locals.rx.length = 6 → s.locals.rx = s.cfg.ack →
        ∃ t, Continues (.exchange m w) s [.sel false] (s.dataLen + 27) t ∧ t.xstate = .ackOk) ∧
      (AtLine (s.dataLen + 26) s → ¬(s.locals.rx.length = 6 ∧ s.locals.rx = s.cfg.ack) →
        ∃ t, exec (.exchange m w) s = .next t ∧ EndedWith .timeout t ∧ t.trace = s.trace ++ [.sel false] ∧
          t.res.rval = 2 ∧ ClearedBesideRval t ∧ t.xstate = .failed) ∧
      (AtLine (s.dataLen + 31) s → s.locals.status = s.cfg.link.ready →
        ∃ t, Continues (.exchange m w) s [.sel false] (s.dataLen + 33) t ∧ t.xstate = s.xstate) ∧
      (∀ q, AtLine (s.dataLen + 35 + m.toNat) s → parseFrame s.cfg .c2h s.locals.rx = .ok q →
        ∃ t, exec (.exchange m w) s = .next t ∧ EndedWith .ok t ∧ t.trace = s.trace ++ [.sel false] ∧
          t.res = { s.res with status := .ok, rdata := q, rlen := q.length } ∧ t.xstate = .responseParsed) ∧
      (∀ e, AtLine (s.dataLen + 35 + m.toNat) s → parseFrame s.cfg .c2h s.locals.rx = .error e →
        ∃ t, exec (.exchange m w) s = .next t ∧ EndedWith .framing t ∧ t.trace = s.trace ++ [.sel false] ∧
          t.res.rval = BitVec.ofNat 16 (0x10 + e.reason) ∧ ClearedBesideRval t ∧ t.xstate = .failed)

/-- 41 R129, R128: the whole run of EXCHANGE when no transfer fails, the device is ready at each first poll, acknowledges, and answers
a frame that parses: write, status, read(6), status and read(m) windows, and the payload in RDATA.
Line numbers and the count of steps: log 5. -/
def Obligations.ExchangeRun : Prop :=
  ∀ (m : Half) (w : Word) (s : State) (vs rs q : List Byte) (x y : Byte) (rest : List Answer),
    s.busy = true → s.host = [] → fetch s = .ok (.exchange m w) → Ready .ctrlA s →
    s.dataLen ≤ s.cfg.framePayloadMax → m.toNat ≤ s.cfg.rxMax → s.cfg.ack.length = 6 → vs.length = s.dataLen + 9 →
    rs.length = m.toNat → parseFrame s.cfg .c2h rs = .ok q →
    s.env = okAnswers vs ++ pollAnswers s.cfg.link.ready ++ okAnswers (x :: s.cfg.ack) ++
      pollAnswers s.cfg.link.ready ++ okAnswers (y :: rs) ++ rest →
    ∃ t, Host.Core.run core (s.dataLen + 33 + m.toNat) s = .next t ∧ EndedWith .ok t ∧ t.env = rest ∧
      t.xstate = .responseParsed ∧ t.res = { s.res with status := .ok, rdata := q, rlen := q.length } ∧
      t.trace = s.trace ++ writeEvents s.cfg (buildFrame s.cfg .h2c s.data) ++ pollEvents s.cfg s.cfg.link.ready ++
        readEvents s.cfg s.cfg.ack ++ pollEvents s.cfg s.cfg.link.ready ++ readEvents s.cfg rs

/-- 41 R128: from a state in which XSTATE agrees with SEQ_POS, every step keeps that agreement, and a step of a running EXCHANGE
leaves XSTATE or makes a move of R128's table.
Line numbers: log 5. -/
def Obligations.ExchangeFollowsStateMachine : Prop :=
  ∀ s t : State, XStateConsistent s → step s = .next t →
    XStateConsistent t ∧
    (exchangeRunning s = true → s.host = [] → t.xstate = s.xstate ∨ exchangeMove s.xstate t.xstate = true)

/-! ## Register command engine -/

/-- 43 R160, R162, R163: READ_REG and WRITE_REG are one transaction each, which ends the command: RVAL is the byte read, the byte
clocked back by a write is ignored, and a failed transaction ends it with E_TRANSPORT. -/
def Obligations.RegisterAccessResults : Prop :=
  ∀ (reg val v : Byte) (rest : List Answer) (s : State), Ready .ctrlB s →
    (s.env = .ok v :: rest →
      (∃ t, exec (.readReg reg) s = .next t ∧ EndedWith .ok t ∧
        t.res = { s.res with status := .ok, rval := v.setWidth 16 } ∧ t.env = rest ∧
        t.trace = s.trace ++ [.xfer (addrRead s.cfg reg) s.cfg.bus.dummy (.ok v)]) ∧
      (∃ t, exec (.writeReg reg val) s = .next t ∧ EndedWith .ok t ∧ t.res = { s.res with status := .ok } ∧
        t.env = rest ∧ t.trace = s.trace ++ [.xfer (addrWrite s.cfg reg) val (.ok v)])) ∧
    (s.env = .fail :: rest →
      (∃ t, exec (.readReg reg) s = .next t ∧ FailedTransfer s t ∧
        t.trace = s.trace ++ [.xfer (addrRead s.cfg reg) s.cfg.bus.dummy .fail]) ∧
      (∃ t, exec (.writeReg reg val) s = .next t ∧ FailedTransfer s t ∧
        t.trace = s.trace ++ [.xfer (addrWrite s.cfg reg) val .fail]))

/-- 43 R161, R164, R165, R190, R191, 20 R59: SET_BITMASK, CLEAR_BITMASK, ANTENNA_ON and ANTENNA_OFF read the register into VTMP, then
always write it with the mask's bits set or cleared; RVAL is the value written. The antenna ones do it on TXCONTROL with the
antenna driver bits.
Line numbers: log 5. -/
def Obligations.ReadModifyWriteCommands : Prop :=
  (∀ reg mask : Byte, ReadModifyWrite (.setBitmask reg mask) (fun _ => reg) fun _ v => v ||| mask) ∧
  (∀ reg mask : Byte, ReadModifyWrite (.clearBitmask reg mask) (fun _ => reg) fun _ v => v &&& ~~~mask) ∧
  ReadModifyWrite .antennaOn (fun c => c.regs.txControl) (fun c v => v ||| c.masks.txControlAnt) ∧
  ReadModifyWrite .antennaOff (fun c => c.regs.txControl) (fun c v => v &&& ~~~c.masks.txControlAnt)

/-- 43 R172, 30 R85: the class masks of the default table; and, after the first step of EXECUTE_COMMAND, IEN and WAITM, with the
COMIEN write (43 R173) and POLL_I = 0 (10 R32). That one step both selects the masks and makes that write is log 5. -/
def Obligations.CommandClassMasks : Prop :=
  (∀ c : Config, c.cmds = {} → c.classes = {} → ∀ cmd : Byte,
    classMasks c cmd = if cmd = 0xE then (0x12, 0x10) else if cmd = 0xC then (0x77, 0x30) else (0x00, 0x00)) ∧
  (∀ (cmd v : Byte) (rest : List Answer) (s : State), Ready .ctrlB s → s.dataLen ≤ s.cfg.fifoDepth →
    s.env = .ok v :: rest →
    ∃ t, exec (.executeCommand cmd) s = .next t ∧ t.busy = s.busy ∧ t.res = s.res ∧
      t.trace = s.trace ++
        [.xfer (addrWrite s.cfg s.cfg.regs.comIen) ((classMasks s.cfg cmd).1 ||| s.cfg.masks.comIenIrqInv) (.ok v)] ∧
      (t.scratch.ien, t.scratch.waitm) = classMasks s.cfg cmd ∧ t.seq.pollI = 0)

/-- 43 R170, R173, R174: the run of EXECUTE_COMMAND from its start to its command write, when no transaction fails: the enable mask,
the pending-flag clear, the FIFO flush, the data bytes in order, the command; the results are kept, and IEN and WAITM are those of
the class (43 R172).
Line numbers and the count of steps: log 5. -/
def Obligations.ExecuteIssuesCommand : Prop :=
  ∀ (cmd a irq b lvl d e : Byte) (fs : List Byte) (rest : List Answer) (s : State), s.busy = true → s.host = [] →
    fetch s = .ok (.executeCommand cmd) → Ready .ctrlB s → s.dataLen ≤ s.cfg.fifoDepth → fs.length = s.dataLen →
    s.env = okAnswers ([a, irq, b, lvl, d] ++ fs ++ [e]) ++ rest →
    ∃ t, Host.Core.run core (s.dataLen + 6) s = .next t ∧ t.busy = true ∧ t.seq.pos = s.dataLen + 7 ∧ t.env = rest ∧
      t.res = s.res ∧ (t.scratch.ien, t.scratch.waitm) = classMasks s.cfg cmd ∧
      t.trace = s.trace ++
        [writeEvent s.cfg s.cfg.regs.comIen ((classMasks s.cfg cmd).1 ||| s.cfg.masks.comIenIrqInv) a,
         readEvent s.cfg s.cfg.regs.comIrq irq,
         writeEvent s.cfg s.cfg.regs.comIrq (irq &&& ~~~s.cfg.masks.comIrqSet1) b,
         readEvent s.cfg s.cfg.regs.fifoLevel lvl,
         writeEvent s.cfg s.cfg.regs.fifoLevel (lvl ||| s.cfg.masks.fifoLevelFlush) d] ++
        List.zipWith (writeEvent s.cfg s.cfg.regs.fifoData) s.data fs ++
        [writeEvent s.cfg s.cfg.regs.command cmd e]

/-- 43 R175: after its command write (line n + 6), EXECUTE_COMMAND sets the start-send bit for TRANSCEIVE only: two transactions at
lines n + 7 and n + 8, after which POLL_I ← 0 is next; every other code goes from line n + 7, POLL_I ← 0, to the poll.
Line numbers: log 5. -/
def Obligations.ExecuteStartSend : Prop :=
  ∀ (cmd v : Byte) (rest : List Answer) (s : State),
    (cmd = s.cfg.cmds.transceive →
      (AtLine (s.dataLen + 7) s → s.env = .ok v :: rest →
        ∃ t, Continues (.executeCommand cmd) s
          [.xfer (addrRead s.cfg s.cfg.regs.bitFraming) s.cfg.bus.dummy (.ok v)] (s.dataLen + 8) t ∧
          t.scratch.vtmp = v) ∧
      (AtLine (s.dataLen + 8) s → s.env = .ok v :: rest →
        ∃ t, Continues (.executeCommand cmd) s
          [.xfer (addrWrite s.cfg s.cfg.regs.bitFraming) (s.scratch.vtmp ||| s.cfg.masks.bitFramingStartSend) (.ok v)]
          (s.dataLen + 9) t) ∧
      (AtLine (s.dataLen + 9) s →
        ∃ t, Continues (.executeCommand cmd) s [] (s.dataLen + 10) t ∧ t.seq.pollI = 0)) ∧
    (cmd ≠ s.cfg.cmds.transceive → AtLine (s.dataLen + 7) s →
      ∃ t, Continues (.executeCommand cmd) s [] (s.dataLen + 8) t ∧ t.seq.pollI = 0)

/-- 43 R176: PollIrq of EXECUTE_COMMAND, with h its lines before it: POLL_I ← 0 (line h + 1), then at each poll (h + 2) a stop bit
goes on to the error read (line h + 4), the last poll without one raises E_TAG_ABSENT, any other poll goes to the delay (h + 3)
and back (h + 2).
Line numbers: log 5. -/
def Obligations.ExecutePoll : Prop :=
  ∀ (cmd v : Byte) (rest : List Answer) (s : State) (h : Nat), h = (executeHead cmd s).length →
    (AtLine (h + 1) s → ∃ t, Continues (.executeCommand cmd) s [] (h + 2) t ∧ t.seq.pollI = 0) ∧
    (AtLine (h + 2) s → s.env = .ok v :: rest → v &&& (s.scratch.waitm ||| s.cfg.masks.irqTimer) ≠ 0 →
      ∃ t, Continues (.executeCommand cmd) s
        [.xfer (addrRead s.cfg s.cfg.regs.comIrq) s.cfg.bus.dummy (.ok v)] (h + 4) t ∧
        t.scratch.irqv = v ∧ t.seq.pollI = s.seq.pollI + 1) ∧
    (AtLine (h + 2) s → s.env = .ok v :: rest → v &&& (s.scratch.waitm ||| s.cfg.masks.irqTimer) = 0 →
      s.seq.pollI + 1 ≠ s.cfg.irqPollMax →
      ∃ t, Continues (.executeCommand cmd) s
        [.xfer (addrRead s.cfg s.cfg.regs.comIrq) s.cfg.bus.dummy (.ok v)] (h + 3) t ∧
        t.scratch.irqv = v ∧ t.seq.pollI = s.seq.pollI + 1) ∧
    (AtLine (h + 2) s → s.pins.sel = false → s.env = .ok v :: rest →
      v &&& (s.scratch.waitm ||| s.cfg.masks.irqTimer) = 0 → s.seq.pollI + 1 = s.cfg.irqPollMax →
      ∃ t, exec (.executeCommand cmd) s = .next t ∧ EndedWith .tagAbsent t ∧ t.res.rval = v.setWidth 16 ∧
        ClearedBesideRval t ∧
        t.trace = s.trace ++ [.xfer (addrRead s.cfg s.cfg.regs.comIrq) s.cfg.bus.dummy (.ok v)]) ∧
    (AtLine (h + 3) s →
      ∃ t, Continues (.executeCommand cmd) s [.delay s.cfg.irqPollDelayUs] (h + 2) t ∧ t.seq.pollI = s.seq.pollI)

/-- 43 R176, 95 S5: when no poll has a stop bit, EXECUTE_COMMAND makes exactly P_IRQ_POLL_MAX polls, with a delay between two of
them and none after the last, and ends with E_TAG_ABSENT.
Line numbers and the count of steps: log 5. -/
def Obligations.ExecuteExhaustsPolls : Prop :=
  ∀ (cmd : Byte) (s : State) (vs : List Byte) (v : Byte) (rest : List Answer), s.busy = true → s.host = [] →
    fetch s = .ok (.executeCommand cmd) → AtLine ((executeHead cmd s).length + 1) s → s.pins.sel = false →
    vs.length + 1 = s.cfg.irqPollMax → (∀ u ∈ vs ++ [v], u &&& (s.scratch.waitm ||| s.cfg.masks.irqTimer) = 0) →
    s.env = okAnswers (vs ++ [v]) ++ rest →
    ∃ t, Host.Core.run core (1 + 2 * vs.length + 1) s = .next t ∧ EndedWith .tagAbsent t ∧
      t.res.rval = v.setWidth 16 ∧ ClearedBesideRval t ∧ t.env = rest ∧
      t.trace = s.trace ++
        (vs.flatMap fun u => [readEvent s.cfg s.cfg.regs.comIrq u, .delay s.cfg.irqPollDelayUs]) ++
        [readEvent s.cfg s.cfg.regs.comIrq v]

/-- 43 R177, R179: the error read of EXECUTE_COMMAND (line h + 4): no response, then collision, then success, which ends a command
other than TRANSCEIVE. A success writes RVAL and no other result, whether the command ends or goes on (10 R25, R43).
Line numbers: log 5. -/
def Obligations.ExecuteErrorCheck : Prop :=
  ∀ (cmd v : Byte) (rest : List Answer) (s : State), AtLine ((executeHead cmd s).length + 4) s → s.pins.sel = false →
    s.env = .ok v :: rest →
    ∃ t, exec (.executeCommand cmd) s = .next t ∧ t.res.rval = v ++ s.scratch.irqv ∧ t.scratch.errv = v ∧
      t.trace = s.trace ++ [.xfer (addrRead s.cfg s.cfg.regs.error) s.cfg.bus.dummy (.ok v)] ∧
      (if v &&& (s.cfg.masks.errProtocol ||| s.cfg.masks.errBufOvfl) ≠ 0 ∧ s.scratch.irqv &&& s.cfg.masks.irqRx ≠ 0 then
        EndedWith .tagAbsent t ∧ ClearedBesideRval t
      else if v &&& s.cfg.masks.errColl ≠ 0 then EndedWith .collision t ∧ ClearedBesideRval t
      else if cmd = s.cfg.cmds.transceive then
        t.busy = s.busy ∧ t.seq.pos = (executeHead cmd s).length + 5 ∧
          t.res = { s.res with rval := v ++ s.scratch.irqv }
      else EndedWith .ok t ∧ t.res = { s.res with status := .ok, rval := v ++ s.scratch.irqv })

/-- 43 R178: the read-back of a transceive: LVL (line h + 5), LB with the bit length (h + 6), then k = min(LVL, P_RESP_MAX) FIFO reads
from line h + 7; the last line ends the command with RLEN = k. RVAL, which the error read has set to ERRV << 8 | IRQV, and RBOOL
are kept (43 R179), and so is LVL, so k is the same at every line.
Line numbers: log 5. -/
def Obligations.ExecuteReadBack : Prop :=
  ∀ (cmd v : Byte) (rest : List Answer) (s : State) (h k : Nat), h = (executeHead cmd s).length →
    k = min s.scratch.lvl.toNat s.cfg.respMax → s.pins.sel = false → s.env = .ok v :: rest → s.cfg.masks = {} →
    (AtLine (h + 5) s → ∃ t, Continues (.executeCommand cmd) s
      [.xfer (addrRead s.cfg s.cfg.regs.fifoLevel) s.cfg.bus.dummy (.ok v)] (h + 6) t ∧
      t.scratch.lvl.toNat = v.toNat % 128) ∧
    (AtLine (h + 6) s → ∃ t, exec (.executeCommand cmd) s = .next t ∧
      t.trace = s.trace ++ [.xfer (addrRead s.cfg s.cfg.regs.control) s.cfg.bus.dummy (.ok v)] ∧
      t.scratch.lb.toNat = v.toNat % 8 ∧ t.scratch.lvl = s.scratch.lvl ∧ t.res.rdata = s.res.rdata ∧
      t.res.rval = s.res.rval ∧ t.res.rbool = s.res.rbool ∧
      t.res.rbitlen.toNat = (if s.scratch.lvl = 0 then 0
        else if v.toNat % 8 ≠ 0 then (s.scratch.lvl.toNat - 1) * 8 + v.toNat % 8 else s.scratch.lvl.toNat * 8) ∧
      (if k = 0 then EndedWith .ok t ∧ t.res.rlen = 0
       else t.busy = s.busy ∧ t.seq.pos = h + 7 ∧ t.res.rlen = s.res.rlen)) ∧
    (∀ j, 1 ≤ j → j ≤ k → AtLine (h + 6 + j) s → ∃ t, exec (.executeCommand cmd) s = .next t ∧
      t.trace = s.trace ++ [.xfer (addrRead s.cfg s.cfg.regs.fifoData) s.cfg.bus.dummy (.ok v)] ∧
      t.scratch.lvl = s.scratch.lvl ∧ t.res.rdata = s.res.rdata ++ [v] ∧ t.res.rval = s.res.rval ∧
      t.res.rbool = s.res.rbool ∧ t.res.rbitlen = s.res.rbitlen ∧
      (if j = k then EndedWith .ok t ∧ t.res.rlen = k
       else t.busy = s.busy ∧ t.seq.pos = h + 7 + j ∧ t.res.rlen = s.res.rlen))

/-- 43 R180: the run of CALC_CRC from its start to its command write, when no transaction fails: the CRC-ready flag cleared, the FIFO
flushed, the data bytes in order, the command; the results are kept.
Line numbers and the count of steps: log 5. -/
def Obligations.CalcCrcIssuesCommand : Prop :=
  ∀ (irq b lvl d e : Byte) (fs : List Byte) (rest : List Answer) (s : State), s.busy = true → s.host = [] →
    fetch s = .ok .calcCrc → Ready .ctrlB s → s.dataLen ≤ s.cfg.fifoDepth → fs.length = s.dataLen →
    s.env = okAnswers ([irq, b, lvl, d] ++ fs ++ [e]) ++ rest →
    ∃ t, Host.Core.run core (s.dataLen + 5) s = .next t ∧ t.busy = true ∧ t.seq.pos = s.dataLen + 6 ∧ t.env = rest ∧
      t.res = s.res ∧
      t.trace = s.trace ++
        [readEvent s.cfg s.cfg.regs.divIrq irq,
         writeEvent s.cfg s.cfg.regs.divIrq (irq &&& ~~~s.cfg.masks.divIrqCrc) b,
         readEvent s.cfg s.cfg.regs.fifoLevel lvl,
         writeEvent s.cfg s.cfg.regs.fifoLevel (lvl ||| s.cfg.masks.fifoLevelFlush) d] ++
        List.zipWith (writeEvent s.cfg s.cfg.regs.fifoData) s.data fs ++
        [writeEvent s.cfg s.cfg.regs.command s.cfg.cmds.calcCrc e]

/-- 43 R181: CALC_CRC's poll (h its lines before PollCrc), with no delay and no error when exhausted, and the two result reads, low
first; the second ends the command.
Line numbers: log 5. -/
def Obligations.CalcCrcPollAndResult : Prop :=
  ∀ (v : Byte) (rest : List Answer) (s : State) (h : Nat), h = (calcCrcHead s).length → s.env = .ok v :: rest →
    (AtLine (h + 1) s → ∃ t, Continues .calcCrc s [] (h + 2) t ∧ t.seq.crcI = 0) ∧
    (AtLine (h + 2) s → ∃ t, exec .calcCrc s = .next t ∧ t.busy = s.busy ∧ t.scratch.divv = v ∧
      t.seq.crcI = s.seq.crcI + 1 ∧
      t.trace = s.trace ++ [.xfer (addrRead s.cfg s.cfg.regs.divIrq) s.cfg.bus.dummy (.ok v)] ∧
      (if v &&& s.cfg.masks.divIrqCrc ≠ 0 then t.res = { s.res with rbool := true } ∧ t.seq.pos = h + 3
       else if s.seq.crcI + 1 = s.cfg.crcPollMax then t.res = { s.res with rbool := false } ∧ t.seq.pos = h + 3
       else t.res = s.res ∧ t.seq.pos = h + 2)) ∧
    (AtLine (h + 3) s → ∃ t, Continues .calcCrc s
      [.xfer (addrRead s.cfg s.cfg.regs.crcResultL) s.cfg.bus.dummy (.ok v)] (h + 4) t ∧ t.locals.lo = v) ∧
    (AtLine (h + 4) s → s.pins.sel = false → ∃ t, exec .calcCrc s = .next t ∧ EndedWith .ok t ∧
      t.trace = s.trace ++ [.xfer (addrRead s.cfg s.cfg.regs.crcResultH) s.cfg.bus.dummy (.ok v)] ∧
      t.res = { s.res with status := .ok, rval := v ++ s.locals.lo })

/-- 42 R148: under DEV_CRC (the low read has given CRC_A(D) & 0xFF and the high read gives CRC_A(D) >> 8), CALC_CRC ends with the RVAL
of CRC16 on the same bytes.
Line numbers: log 5. -/
def Obligations.CalcCrcAgreesWithCrc16 : Prop :=
  ∀ (rest : List Answer) (s : State), AtLine ((calcCrcHead s).length + 4) s →
    s.locals.lo = (crcA s.cfg s.data).setWidth 8 → s.env = .ok ((crcA s.cfg s.data >>> 8).setWidth 8) :: rest →
    ∃ t u, exec .calcCrc s = .next t ∧ exec .crc16 s = .next u ∧ t.res.status = .ok ∧ t.res.rval = u.res.rval

/-- 43 R185: RESET's lines, for any RESET_PROGRAM: soft reset, settle delay, antenna bits by read-modify-write, then the program's
writes in order; the last line (the antenna write, when the program is empty) ends it.
Line numbers: log 5. -/
def Obligations.ResetLines : Prop :=
  ∀ (v : Byte) (rest : List Answer) (s : State), s.env = .ok v :: rest → s.pins.sel = false →
    (Ready .ctrlB s → ∃ t, Continues .reset s
      [.xfer (addrWrite s.cfg s.cfg.regs.command) s.cfg.cmds.softReset (.ok v)] 2 t) ∧
    (AtLine 2 s → ∃ t, Continues .reset s [.delay s.cfg.resetSettleUs] 3 t) ∧
    (AtLine 3 s → ∃ t, Continues .reset s
      [.xfer (addrRead s.cfg s.cfg.regs.txControl) s.cfg.bus.dummy (.ok v)] 4 t ∧ t.scratch.vtmp = v) ∧
    (AtLine 4 s → s.cfg.resetProgram ≠ [] → ∃ t, Continues .reset s
      [.xfer (addrWrite s.cfg s.cfg.regs.txControl) (s.scratch.vtmp ||| s.cfg.masks.txControlAnt) (.ok v)] 5 t) ∧
    (AtLine 4 s → s.cfg.resetProgram = [] → ∃ t, exec .reset s = .next t ∧ EndedWith .ok t ∧
      t.trace = s.trace ++
        [.xfer (addrWrite s.cfg s.cfg.regs.txControl) (s.scratch.vtmp ||| s.cfg.masks.txControlAnt) (.ok v)] ∧
      t.res = { s.res with status := .ok }) ∧
    (∀ k reg x, AtLine (5 + k) s → s.cfg.resetProgram[k]? = some (reg, x) →
      ∃ t, exec .reset s = .next t ∧ t.trace = s.trace ++ [.xfer (addrWrite s.cfg reg) x (.ok v)] ∧
        (if k + 1 = s.cfg.resetProgram.length then EndedWith .ok t ∧ t.res = { s.res with status := .ok }
         else t.busy = s.busy ∧ t.seq.pos = 6 + k ∧ t.res = s.res))

/-! ## Frames: what a command leaves unchanged -/

/-- 20 R66, 10 R23, R38: no command writes the configuration, W0, W1, IBUF, ILEN or the latched operands, and no step at all writes the
configuration. -/
def Obligations.HostRegistersAreNeverWritten : Prop :=
  (∀ (i : Instr) (s t : State), exec i s = .next t → SameHostSide s t) ∧
  (∀ s t : State, step s = .next t → t.cfg = s.cfg)

/-- 40, 42 (30 R76, "uses no transport"): CRC16, CRC_APPEND, CRC_CHECK, FRAME_BUILD, FRAME_PARSE and ACK_MATCH change nothing but the
results, CRCR (the CRC commands only, 10 R34), BUSY and SEQ_OP: no transaction, no line, no counter, no scratch register, no
XSTATE; RBITLEN keeps its value or is cleared by raise. That SEQ_POS keeps its value in the ended state is the model's choice: log 14. -/
def Obligations.FrameOfBufferCommands : Prop :=
  ∀ (i : Instr) (s t : State), i.opcode.backend = none → s.pins.sel = false → exec i s = .next t →
    SameHostSide s t ∧ NoTransaction s t ∧ t.xstate = s.xstate ∧ t.scratch = s.scratch ∧ t.locals = s.locals ∧
    t.pins = s.pins ∧ t.seq = { s.seq with op := none } ∧ (t.res.rbitlen = s.res.rbitlen ∨ t.res.rbitlen = 0) ∧
    (i ≠ .ackMatch → t.res.rbool = s.res.rbool ∨ t.res.rbool = false) ∧
    (t.crcr ≠ s.crcr → i = .crc16 ∨ i = .crcAppend ∨ i = .crcCheck)

/-- 41 (10 R30, R32, R33, R34; 20 R54): the link commands leave the scratch registers, CRCR, POLL_I, CRC_I and (but for EXCHANGE) XSTATE
alone, never write RBITLEN but to clear it, and make no register transaction: each step adds at most two events, none of them an
XFER. SEL is at the level of the last SEL event among them (10 R35, 41 R120), else unchanged; the ordinal grows by one with each
TX or RX event, Ok or Fail (60 R200), which uses up one answer. ELAPSED is written by the commands with a wait only (10 R32). That
the counters keep their values when a command ends is log 14; that a failed byte's SEL(0) falls in the same step is log 13. -/
def Obligations.FrameOfLinkCommands : Prop :=
  ∀ (i : Instr) (s t : State), i.opcode.backend = some .ctrlA → exec i s = .next t →
    SameHostSide s t ∧ t.scratch = s.scratch ∧ t.crcr = s.crcr ∧ t.locals.lo = s.locals.lo ∧
    t.seq.pollI = s.seq.pollI ∧ t.seq.crcI = s.seq.crcI ∧ (i.opcode ≠ .exchange → t.xstate = s.xstate) ∧
    (i.opcode ≠ .waitReady → i.opcode ≠ .sendCheckAck → i.opcode ≠ .exchange → t.seq.elapsed = s.seq.elapsed) ∧
    (t.res.rbitlen = s.res.rbitlen ∨ t.res.rbitlen = 0) ∧
    ∃ ev : List Event, t.trace = s.trace ++ ev ∧ ev.length ≤ 2 ∧ (∀ e ∈ ev, ∀ a d r, e ≠ .xfer a d r) ∧
      t.pins.sel = (ev.foldl linesAfter s.pins).sel ∧ t.locals.ordinal = s.locals.ordinal + transactions ev ∧
      t.env = s.env.drop (transactions ev)

/-- 43 (10 R30, R32, R33, R34; 20 R60, 41 R120): the register commands leave CRCR, XSTATE, ELAPSED, the received bytes and the link lines
alone, and a step adds at most one event, an XFER or a DELAY; READ_REG and WRITE_REG leave every scratch register and counter
alone, the read-modify-write commands and RESET all but VTMP, CALC_CRC all but VTMP, DIVV and CRC_I, EXECUTE_COMMAND leaves DIVV
and CRC_I, and, once started, IEN and WAITM (43 R172). The ordinal grows by one with each XFER event, Ok or Fail (60 R200), which uses up one answer. That the counters keep
their values when a command ends is log 14. -/
def Obligations.FrameOfRegisterCommands : Prop :=
  ∀ (i : Instr) (s t : State), i.opcode.backend = some .ctrlB → s.pins.sel = false → exec i s = .next t →
    SameHostSide s t ∧ t.crcr = s.crcr ∧ t.xstate = s.xstate ∧ t.pins = s.pins ∧ t.seq.elapsed = s.seq.elapsed ∧
    t.locals.rx = s.locals.rx ∧ t.locals.status = s.locals.status ∧
    (∃ ev : List Event, t.trace = s.trace ++ ev ∧ ev.length ≤ 1 ∧
      (∀ e ∈ ev, (∃ a d r, e = .xfer a d r) ∨ ∃ us, e = .delay us) ∧
      t.locals.ordinal = s.locals.ordinal + transactions ev ∧ t.env = s.env.drop (transactions ev)) ∧
    (∀ reg val, i = .readReg reg ∨ i = .writeReg reg val → t.scratch = s.scratch) ∧
    ((∀ cmd, i ≠ .executeCommand cmd) → t.seq.pollI = s.seq.pollI ∧
      (t.res.rbitlen = s.res.rbitlen ∨ t.res.rbitlen = 0) ∧
      ({ t.scratch with vtmp := s.scratch.vtmp, divv := s.scratch.divv } : Scratch) = s.scratch) ∧
    (∀ cmd, i = .executeCommand cmd → s.seq.pos ≠ 0 →
      t.scratch.ien = s.scratch.ien ∧ t.scratch.waitm = s.scratch.waitm) ∧
    (i ≠ .calcCrc → t.scratch.divv = s.scratch.divv ∧ t.seq.crcI = s.seq.crcI ∧ t.locals.lo = s.locals.lo)

/-! ## Invariants: from every state that meets them, not only from reset -/

/-- The invariants below hold after power-on. -/
def Obligations.ResetMeetsInvariants : Prop :=
  State.reset.cfg.Wf ∧ IdleReleased State.reset ∧ BuffersBounded State.reset ∧ LatchCurrent State.reset ∧
  PositionValid State.reset ∧ XStateConsistent State.reset

/-- 60 R203, R206, 41 R120, 10 R31: SEQ_OP is the running command's opcode while BUSY is 1 and NONE while BUSY is 0; whenever BUSY
is 0 the select line is deasserted: every window the block opens is closed, and no command ends with the device selected; and no
command but a Controller-A one ever runs with it asserted. -/
def Obligations.EveryStepReleasesWhenIdle : Prop :=
  ∀ s t : State, IdleReleased s → step s = .next t → IdleReleased t

/-- 10 R20, R22, R29, 30 R86, 43 R178: the buffers never exceed P_BUF_MAX, RLEN is RDATA's length whenever BUSY is 0, and the latched
operands stay the host's registers while a command runs.
Line numbers: log 5. -/
def Obligations.EveryStepKeepsBuffersBounded : Prop :=
  ∀ s t : State, s.cfg.Wf → BuffersBounded s → LatchCurrent s → step s = .next t →
    BuffersBounded t ∧ LatchCurrent t

/-- 10 R31: SEQ_POS stays a line of the running command's rule.
Line numbers: log 5. -/
def Obligations.EveryStepKeepsPositionValid : Prop :=
  ∀ s t : State, PositionValid s → step s = .next t → PositionValid t

/-- 60 R215 ("Stuck states. The block has none"): a step never faults, and it is refused only for a host action that 60 R202 or
10 R44 forbids. -/
def Obligations.MachineNeverFaults : Prop :=
  ∀ s : State, PositionValid s →
    (∀ f, step s ≠ .fault f) ∧
    (∀ r, step s = .refused r → ∃ a rest, s.host = a :: rest ∧
      (s.busy = true ∧ ((∃ w, a = .writeW0 w) ∨ (∃ w, a = .writeW1 w) ∨ (∃ bs, a = .loadBuf bs) ∨
          ∃ q, q ≠ .busy ∧ a = .read q) ∨
        ∃ bs, a = .loadBuf bs ∧ s.cfg.bufMax < bs.length))
end

