-- ==== Sys2Proof/Laws/State.lean ====
section
/-! SUPPORT. The small lemmas of each named update of the state: one per field, so that no later proof unfolds a record
update. -/

namespace Sys2Proof.Machine

/-! ### logEvent -/

@[simp] theorem logEvent_cfg (e : Event) (s : State) : (logEvent e s).cfg = s.cfg := rfl
@[simp] theorem logEvent_w0 (e : Event) (s : State) : (logEvent e s).w0 = s.w0 := rfl
@[simp] theorem logEvent_w1 (e : Event) (s : State) : (logEvent e s).w1 = s.w1 := rfl
@[simp] theorem logEvent_ibuf (e : Event) (s : State) : (logEvent e s).ibuf = s.ibuf := rfl
@[simp] theorem logEvent_ilen (e : Event) (s : State) : (logEvent e s).ilen = s.ilen := rfl
@[simp] theorem logEvent_busy (e : Event) (s : State) : (logEvent e s).busy = s.busy := rfl
@[simp] theorem logEvent_res (e : Event) (s : State) : (logEvent e s).res = s.res := rfl
@[simp] theorem logEvent_xstate (e : Event) (s : State) : (logEvent e s).xstate = s.xstate := rfl
@[simp] theorem logEvent_latch (e : Event) (s : State) : (logEvent e s).latch = s.latch := rfl
@[simp] theorem logEvent_seq (e : Event) (s : State) : (logEvent e s).seq = s.seq := rfl
@[simp] theorem logEvent_scratch (e : Event) (s : State) : (logEvent e s).scratch = s.scratch := rfl
@[simp] theorem logEvent_crcr (e : Event) (s : State) : (logEvent e s).crcr = s.crcr := rfl
@[simp] theorem logEvent_locals (e : Event) (s : State) : (logEvent e s).locals = s.locals := rfl
@[simp] theorem logEvent_pins (e : Event) (s : State) : (logEvent e s).pins = s.pins := rfl
@[simp] theorem logEvent_trace (e : Event) (s : State) : (logEvent e s).trace = s.trace ++ [e] := rfl
@[simp] theorem logEvent_env (e : Event) (s : State) : (logEvent e s).env = s.env := rfl
@[simp] theorem logEvent_draws (e : Event) (s : State) : (logEvent e s).draws = s.draws := rfl
@[simp] theorem logEvent_host (e : Event) (s : State) : (logEvent e s).host = s.host := rfl
@[simp] theorem logEvent_hostRead (e : Event) (s : State) : (logEvent e s).hostRead = s.hostRead := rfl

/-! ### takeAnswer -/

@[simp] theorem takeAnswer_cfg (s : State) : (takeAnswer s).cfg = s.cfg := rfl
@[simp] theorem takeAnswer_w0 (s : State) : (takeAnswer s).w0 = s.w0 := rfl
@[simp] theorem takeAnswer_w1 (s : State) : (takeAnswer s).w1 = s.w1 := rfl
@[simp] theorem takeAnswer_ibuf (s : State) : (takeAnswer s).ibuf = s.ibuf := rfl
@[simp] theorem takeAnswer_ilen (s : State) : (takeAnswer s).ilen = s.ilen := rfl
@[simp] theorem takeAnswer_busy (s : State) : (takeAnswer s).busy = s.busy := rfl
@[simp] theorem takeAnswer_res (s : State) : (takeAnswer s).res = s.res := rfl
@[simp] theorem takeAnswer_xstate (s : State) : (takeAnswer s).xstate = s.xstate := rfl
@[simp] theorem takeAnswer_latch (s : State) : (takeAnswer s).latch = s.latch := rfl
@[simp] theorem takeAnswer_seq (s : State) : (takeAnswer s).seq = s.seq := rfl
@[simp] theorem takeAnswer_scratch (s : State) : (takeAnswer s).scratch = s.scratch := rfl
@[simp] theorem takeAnswer_crcr (s : State) : (takeAnswer s).crcr = s.crcr := rfl
@[simp] theorem takeAnswer_locals (s : State) : (takeAnswer s).locals = { s.locals with ordinal := s.locals.ordinal + 1 } := rfl
@[simp] theorem takeAnswer_pins (s : State) : (takeAnswer s).pins = s.pins := rfl
@[simp] theorem takeAnswer_trace (s : State) : (takeAnswer s).trace = s.trace := rfl
@[simp] theorem takeAnswer_env (s : State) : (takeAnswer s).env = s.env.tail := rfl
@[simp] theorem takeAnswer_draws (s : State) : (takeAnswer s).draws = s.draws + 1 := rfl
@[simp] theorem takeAnswer_host (s : State) : (takeAnswer s).host = s.host := rfl
@[simp] theorem takeAnswer_hostRead (s : State) : (takeAnswer s).hostRead = s.hostRead := rfl

/-! ### driveSel -/

@[simp] theorem driveSel_cfg (l : Bool) (s : State) : (driveSel l s).cfg = s.cfg := rfl
@[simp] theorem driveSel_w0 (l : Bool) (s : State) : (driveSel l s).w0 = s.w0 := rfl
@[simp] theorem driveSel_w1 (l : Bool) (s : State) : (driveSel l s).w1 = s.w1 := rfl
@[simp] theorem driveSel_ibuf (l : Bool) (s : State) : (driveSel l s).ibuf = s.ibuf := rfl
@[simp] theorem driveSel_ilen (l : Bool) (s : State) : (driveSel l s).ilen = s.ilen := rfl
@[simp] theorem driveSel_busy (l : Bool) (s : State) : (driveSel l s).busy = s.busy := rfl
@[simp] theorem driveSel_res (l : Bool) (s : State) : (driveSel l s).res = s.res := rfl
@[simp] theorem driveSel_xstate (l : Bool) (s : State) : (driveSel l s).xstate = s.xstate := rfl
@[simp] theorem driveSel_latch (l : Bool) (s : State) : (driveSel l s).latch = s.latch := rfl
@[simp] theorem driveSel_seq (l : Bool) (s : State) : (driveSel l s).seq = s.seq := rfl
@[simp] theorem driveSel_scratch (l : Bool) (s : State) : (driveSel l s).scratch = s.scratch := rfl
@[simp] theorem driveSel_crcr (l : Bool) (s : State) : (driveSel l s).crcr = s.crcr := rfl
@[simp] theorem driveSel_locals (l : Bool) (s : State) : (driveSel l s).locals = s.locals := rfl
@[simp] theorem driveSel_pins (l : Bool) (s : State) : (driveSel l s).pins = { s.pins with sel := l } := rfl
@[simp] theorem driveSel_trace (l : Bool) (s : State) : (driveSel l s).trace = s.trace ++ [.sel l] := rfl
@[simp] theorem driveSel_env (l : Bool) (s : State) : (driveSel l s).env = s.env := rfl
@[simp] theorem driveSel_draws (l : Bool) (s : State) : (driveSel l s).draws = s.draws := rfl
@[simp] theorem driveSel_host (l : Bool) (s : State) : (driveSel l s).host = s.host := rfl
@[simp] theorem driveSel_hostRead (l : Bool) (s : State) : (driveSel l s).hostRead = s.hostRead := rfl

/-! ### delayUs -/

@[simp] theorem delayUs_cfg (t : Nat) (s : State) : (delayUs t s).cfg = s.cfg := rfl
@[simp] theorem delayUs_w0 (t : Nat) (s : State) : (delayUs t s).w0 = s.w0 := rfl
@[simp] theorem delayUs_w1 (t : Nat) (s : State) : (delayUs t s).w1 = s.w1 := rfl
@[simp] theorem delayUs_ibuf (t : Nat) (s : State) : (delayUs t s).ibuf = s.ibuf := rfl
@[simp] theorem delayUs_ilen (t : Nat) (s : State) : (delayUs t s).ilen = s.ilen := rfl
@[simp] theorem delayUs_busy (t : Nat) (s : State) : (delayUs t s).busy = s.busy := rfl
@[simp] theorem delayUs_res (t : Nat) (s : State) : (delayUs t s).res = s.res := rfl
@[simp] theorem delayUs_xstate (t : Nat) (s : State) : (delayUs t s).xstate = s.xstate := rfl
@[simp] theorem delayUs_latch (t : Nat) (s : State) : (delayUs t s).latch = s.latch := rfl
@[simp] theorem delayUs_seq (t : Nat) (s : State) : (delayUs t s).seq = s.seq := rfl
@[simp] theorem delayUs_scratch (t : Nat) (s : State) : (delayUs t s).scratch = s.scratch := rfl
@[simp] theorem delayUs_crcr (t : Nat) (s : State) : (delayUs t s).crcr = s.crcr := rfl
@[simp] theorem delayUs_locals (t : Nat) (s : State) : (delayUs t s).locals = s.locals := rfl
@[simp] theorem delayUs_pins (t : Nat) (s : State) : (delayUs t s).pins = s.pins := rfl
@[simp] theorem delayUs_trace (t : Nat) (s : State) : (delayUs t s).trace = s.trace ++ [.delay t] := rfl
@[simp] theorem delayUs_env (t : Nat) (s : State) : (delayUs t s).env = s.env := rfl
@[simp] theorem delayUs_draws (t : Nat) (s : State) : (delayUs t s).draws = s.draws := rfl
@[simp] theorem delayUs_host (t : Nat) (s : State) : (delayUs t s).host = s.host := rfl
@[simp] theorem delayUs_hostRead (t : Nat) (s : State) : (delayUs t s).hostRead = s.hostRead := rfl

/-- The event of the select deassertion that ends a command, when SEL is asserted (60 R203). -/
def closeEvents (p : Pins) : List Event := if p.sel then [.sel false] else []

@[simp] theorem closeEvents_of_released (p : Pins) (h : p.sel = false) : closeEvents p = [] := by simp [closeEvents, h]

/-! ### closeWindow -/

@[simp] theorem closeWindow_cfg (s : State) : (closeWindow s).cfg = s.cfg := by unfold closeWindow; split <;> rfl
@[simp] theorem closeWindow_w0 (s : State) : (closeWindow s).w0 = s.w0 := by unfold closeWindow; split <;> rfl
@[simp] theorem closeWindow_w1 (s : State) : (closeWindow s).w1 = s.w1 := by unfold closeWindow; split <;> rfl
@[simp] theorem closeWindow_ibuf (s : State) : (closeWindow s).ibuf = s.ibuf := by unfold closeWindow; split <;> rfl
@[simp] theorem closeWindow_ilen (s : State) : (closeWindow s).ilen = s.ilen := by unfold closeWindow; split <;> rfl
@[simp] theorem closeWindow_busy (s : State) : (closeWindow s).busy = s.busy := by unfold closeWindow; split <;> rfl
@[simp] theorem closeWindow_res (s : State) : (closeWindow s).res = s.res := by unfold closeWindow; split <;> rfl
@[simp] theorem closeWindow_xstate (s : State) : (closeWindow s).xstate = s.xstate := by unfold closeWindow; split <;> rfl
@[simp] theorem closeWindow_latch (s : State) : (closeWindow s).latch = s.latch := by unfold closeWindow; split <;> rfl
@[simp] theorem closeWindow_seq (s : State) : (closeWindow s).seq = s.seq := by unfold closeWindow; split <;> rfl
@[simp] theorem closeWindow_scratch (s : State) : (closeWindow s).scratch = s.scratch := by unfold closeWindow; split <;> rfl
@[simp] theorem closeWindow_crcr (s : State) : (closeWindow s).crcr = s.crcr := by unfold closeWindow; split <;> rfl
@[simp] theorem closeWindow_locals (s : State) : (closeWindow s).locals = s.locals := by unfold closeWindow; split <;> rfl
@[simp] theorem closeWindow_pins (s : State) : (closeWindow s).pins = { s.pins with sel := false } := by
  unfold closeWindow; split
  · rfl
  · rename_i h; cases hp : s.pins; simp_all
@[simp] theorem closeWindow_trace (s : State) : (closeWindow s).trace = s.trace ++ closeEvents s.pins := by
  unfold closeWindow closeEvents; split <;> simp [driveSel, logEvent]
@[simp] theorem closeWindow_env (s : State) : (closeWindow s).env = s.env := by unfold closeWindow; split <;> rfl
@[simp] theorem closeWindow_draws (s : State) : (closeWindow s).draws = s.draws := by unfold closeWindow; split <;> rfl
@[simp] theorem closeWindow_host (s : State) : (closeWindow s).host = s.host := by unfold closeWindow; split <;> rfl
@[simp] theorem closeWindow_hostRead (s : State) : (closeWindow s).hostRead = s.hostRead := by unfold closeWindow; split <;> rfl

/-! ### endCommand -/

@[simp] theorem endCommand_cfg (st : Status) (s : State) : (endCommand st s).cfg = s.cfg := rfl
@[simp] theorem endCommand_w0 (st : Status) (s : State) : (endCommand st s).w0 = s.w0 := rfl
@[simp] theorem endCommand_w1 (st : Status) (s : State) : (endCommand st s).w1 = s.w1 := rfl
@[simp] theorem endCommand_ibuf (st : Status) (s : State) : (endCommand st s).ibuf = s.ibuf := rfl
@[simp] theorem endCommand_ilen (st : Status) (s : State) : (endCommand st s).ilen = s.ilen := rfl
@[simp] theorem endCommand_busy (st : Status) (s : State) : (endCommand st s).busy = false := rfl
@[simp] theorem endCommand_res (st : Status) (s : State) : (endCommand st s).res = { s.res with status := st } := rfl
@[simp] theorem endCommand_xstate (st : Status) (s : State) : (endCommand st s).xstate = s.xstate := rfl
@[simp] theorem endCommand_latch (st : Status) (s : State) : (endCommand st s).latch = s.latch := rfl
@[simp] theorem endCommand_seq (st : Status) (s : State) : (endCommand st s).seq = { s.seq with op := none } := rfl
@[simp] theorem endCommand_scratch (st : Status) (s : State) : (endCommand st s).scratch = s.scratch := rfl
@[simp] theorem endCommand_crcr (st : Status) (s : State) : (endCommand st s).crcr = s.crcr := rfl
@[simp] theorem endCommand_locals (st : Status) (s : State) : (endCommand st s).locals = s.locals := rfl
@[simp] theorem endCommand_pins (st : Status) (s : State) : (endCommand st s).pins = s.pins := rfl
@[simp] theorem endCommand_trace (st : Status) (s : State) : (endCommand st s).trace = s.trace := rfl
@[simp] theorem endCommand_env (st : Status) (s : State) : (endCommand st s).env = s.env := rfl
@[simp] theorem endCommand_draws (st : Status) (s : State) : (endCommand st s).draws = s.draws := rfl
@[simp] theorem endCommand_host (st : Status) (s : State) : (endCommand st s).host = s.host := rfl
@[simp] theorem endCommand_hostRead (st : Status) (s : State) : (endCommand st s).hostRead = s.hostRead := rfl

/-! ### finish -/

@[simp] theorem finish_cfg (s : State) : (finish s).cfg = s.cfg := by simp [finish]
@[simp] theorem finish_w0 (s : State) : (finish s).w0 = s.w0 := by simp [finish]
@[simp] theorem finish_w1 (s : State) : (finish s).w1 = s.w1 := by simp [finish]
@[simp] theorem finish_ibuf (s : State) : (finish s).ibuf = s.ibuf := by simp [finish]
@[simp] theorem finish_ilen (s : State) : (finish s).ilen = s.ilen := by simp [finish]
@[simp] theorem finish_busy (s : State) : (finish s).busy = false := by simp [finish]
@[simp] theorem finish_res (s : State) : (finish s).res = { s.res with status := .ok } := by simp [finish]
@[simp] theorem finish_xstate (s : State) : (finish s).xstate = s.xstate := by simp [finish]
@[simp] theorem finish_latch (s : State) : (finish s).latch = s.latch := by simp [finish]
@[simp] theorem finish_seq (s : State) : (finish s).seq = { s.seq with op := none } := by simp [finish]
@[simp] theorem finish_scratch (s : State) : (finish s).scratch = s.scratch := by simp [finish]
@[simp] theorem finish_crcr (s : State) : (finish s).crcr = s.crcr := by simp [finish]
@[simp] theorem finish_locals (s : State) : (finish s).locals = s.locals := by simp [finish]
@[simp] theorem finish_pins (s : State) : (finish s).pins = { s.pins with sel := false } := by simp [finish]
@[simp] theorem finish_trace (s : State) : (finish s).trace = s.trace ++ closeEvents s.pins := by simp [finish]
@[simp] theorem finish_env (s : State) : (finish s).env = s.env := by simp [finish]
@[simp] theorem finish_draws (s : State) : (finish s).draws = s.draws := by simp [finish]
@[simp] theorem finish_host (s : State) : (finish s).host = s.host := by simp [finish]
@[simp] theorem finish_hostRead (s : State) : (finish s).hostRead = s.hostRead := by simp [finish]

/-! ### raise -/

@[simp] theorem raise_cfg (st : Status) (info : Option Half) (s : State) : (raise st info s).cfg = s.cfg := by simp [raise]
@[simp] theorem raise_w0 (st : Status) (info : Option Half) (s : State) : (raise st info s).w0 = s.w0 := by simp [raise]
@[simp] theorem raise_w1 (st : Status) (info : Option Half) (s : State) : (raise st info s).w1 = s.w1 := by simp [raise]
@[simp] theorem raise_ibuf (st : Status) (info : Option Half) (s : State) : (raise st info s).ibuf = s.ibuf := by simp [raise]
@[simp] theorem raise_ilen (st : Status) (info : Option Half) (s : State) : (raise st info s).ilen = s.ilen := by simp [raise]
@[simp] theorem raise_busy (st : Status) (info : Option Half) (s : State) : (raise st info s).busy = false := by simp [raise]
@[simp] theorem raise_res (st : Status) (info : Option Half) (s : State) : (raise st info s).res = { status := st, rbool := false, rval := info.getD s.res.rval, rbitlen := 0, rdata := [], rlen := 0 } := by simp [raise]
@[simp] theorem raise_xstate (st : Status) (info : Option Half) (s : State) : (raise st info s).xstate = s.xstate := by simp [raise]
@[simp] theorem raise_latch (st : Status) (info : Option Half) (s : State) : (raise st info s).latch = s.latch := by simp [raise]
@[simp] theorem raise_seq (st : Status) (info : Option Half) (s : State) : (raise st info s).seq = { s.seq with op := none } := by simp [raise]
@[simp] theorem raise_scratch (st : Status) (info : Option Half) (s : State) : (raise st info s).scratch = s.scratch := by simp [raise]
@[simp] theorem raise_crcr (st : Status) (info : Option Half) (s : State) : (raise st info s).crcr = s.crcr := by simp [raise]
@[simp] theorem raise_locals (st : Status) (info : Option Half) (s : State) : (raise st info s).locals = s.locals := by simp [raise]
@[simp] theorem raise_pins (st : Status) (info : Option Half) (s : State) : (raise st info s).pins = { s.pins with sel := false } := by simp [raise]
@[simp] theorem raise_trace (st : Status) (info : Option Half) (s : State) : (raise st info s).trace = s.trace ++ closeEvents s.pins := by simp [raise]
@[simp] theorem raise_env (st : Status) (info : Option Half) (s : State) : (raise st info s).env = s.env := by simp [raise]
@[simp] theorem raise_draws (st : Status) (info : Option Half) (s : State) : (raise st info s).draws = s.draws := by simp [raise]
@[simp] theorem raise_host (st : Status) (info : Option Half) (s : State) : (raise st info s).host = s.host := by simp [raise]
@[simp] theorem raise_hostRead (st : Status) (info : Option Half) (s : State) : (raise st info s).hostRead = s.hostRead := by simp [raise]

/-! ### startCommand -/

@[simp] theorem startCommand_cfg (w : Word) (s : State) : (startCommand w s).cfg = s.cfg := rfl
@[simp] theorem startCommand_w0 (w : Word) (s : State) : (startCommand w s).w0 = w := rfl
@[simp] theorem startCommand_w1 (w : Word) (s : State) : (startCommand w s).w1 = s.w1 := rfl
@[simp] theorem startCommand_ibuf (w : Word) (s : State) : (startCommand w s).ibuf = s.ibuf := rfl
@[simp] theorem startCommand_ilen (w : Word) (s : State) : (startCommand w s).ilen = s.ilen := rfl
@[simp] theorem startCommand_busy (w : Word) (s : State) : (startCommand w s).busy = true := rfl
@[simp] theorem startCommand_res (w : Word) (s : State) : (startCommand w s).res = {} := rfl
@[simp] theorem startCommand_xstate (w : Word) (s : State) : (startCommand w s).xstate = s.xstate := rfl
@[simp] theorem startCommand_latch (w : Word) (s : State) : (startCommand w s).latch = { w0 := w, w1 := s.w1, ibuf := s.ibuf.take s.ilen } := rfl
@[simp] theorem startCommand_seq (w : Word) (s : State) : (startCommand w s).seq = { s.seq with op := some (opcField w), pos := 0 } := rfl
@[simp] theorem startCommand_scratch (w : Word) (s : State) : (startCommand w s).scratch = s.scratch := rfl
@[simp] theorem startCommand_crcr (w : Word) (s : State) : (startCommand w s).crcr = s.crcr := rfl
@[simp] theorem startCommand_locals (w : Word) (s : State) : (startCommand w s).locals = {} := rfl
@[simp] theorem startCommand_pins (w : Word) (s : State) : (startCommand w s).pins = s.pins := rfl
@[simp] theorem startCommand_trace (w : Word) (s : State) : (startCommand w s).trace = s.trace := rfl
@[simp] theorem startCommand_env (w : Word) (s : State) : (startCommand w s).env = s.env := rfl
@[simp] theorem startCommand_draws (w : Word) (s : State) : (startCommand w s).draws = s.draws := rfl
@[simp] theorem startCommand_host (w : Word) (s : State) : (startCommand w s).host = s.host := rfl
@[simp] theorem startCommand_hostRead (w : Word) (s : State) : (startCommand w s).hostRead = s.hostRead := rfl

/-! ### setX -/

@[simp] theorem setX_cfg (x : XState) (s : State) : (setX x s).cfg = s.cfg := rfl
@[simp] theorem setX_w0 (x : XState) (s : State) : (setX x s).w0 = s.w0 := rfl
@[simp] theorem setX_w1 (x : XState) (s : State) : (setX x s).w1 = s.w1 := rfl
@[simp] theorem setX_ibuf (x : XState) (s : State) : (setX x s).ibuf = s.ibuf := rfl
@[simp] theorem setX_ilen (x : XState) (s : State) : (setX x s).ilen = s.ilen := rfl
@[simp] theorem setX_busy (x : XState) (s : State) : (setX x s).busy = s.busy := rfl
@[simp] theorem setX_res (x : XState) (s : State) : (setX x s).res = s.res := rfl
@[simp] theorem setX_xstate (x : XState) (s : State) : (setX x s).xstate = x := rfl
@[simp] theorem setX_latch (x : XState) (s : State) : (setX x s).latch = s.latch := rfl
@[simp] theorem setX_seq (x : XState) (s : State) : (setX x s).seq = s.seq := rfl
@[simp] theorem setX_scratch (x : XState) (s : State) : (setX x s).scratch = s.scratch := rfl
@[simp] theorem setX_crcr (x : XState) (s : State) : (setX x s).crcr = s.crcr := rfl
@[simp] theorem setX_locals (x : XState) (s : State) : (setX x s).locals = s.locals := rfl
@[simp] theorem setX_pins (x : XState) (s : State) : (setX x s).pins = s.pins := rfl
@[simp] theorem setX_trace (x : XState) (s : State) : (setX x s).trace = s.trace := rfl
@[simp] theorem setX_env (x : XState) (s : State) : (setX x s).env = s.env := rfl
@[simp] theorem setX_draws (x : XState) (s : State) : (setX x s).draws = s.draws := rfl
@[simp] theorem setX_host (x : XState) (s : State) : (setX x s).host = s.host := rfl
@[simp] theorem setX_hostRead (x : XState) (s : State) : (setX x s).hostRead = s.hostRead := rfl

/-! ### crcUnit -/

@[simp] theorem crcUnit_cfg (run : List Byte) (s : State) : (crcUnit run s).cfg = s.cfg := rfl
@[simp] theorem crcUnit_w0 (run : List Byte) (s : State) : (crcUnit run s).w0 = s.w0 := rfl
@[simp] theorem crcUnit_w1 (run : List Byte) (s : State) : (crcUnit run s).w1 = s.w1 := rfl
@[simp] theorem crcUnit_ibuf (run : List Byte) (s : State) : (crcUnit run s).ibuf = s.ibuf := rfl
@[simp] theorem crcUnit_ilen (run : List Byte) (s : State) : (crcUnit run s).ilen = s.ilen := rfl
@[simp] theorem crcUnit_busy (run : List Byte) (s : State) : (crcUnit run s).busy = s.busy := rfl
@[simp] theorem crcUnit_res (run : List Byte) (s : State) : (crcUnit run s).res = s.res := rfl
@[simp] theorem crcUnit_xstate (run : List Byte) (s : State) : (crcUnit run s).xstate = s.xstate := rfl
@[simp] theorem crcUnit_latch (run : List Byte) (s : State) : (crcUnit run s).latch = s.latch := rfl
@[simp] theorem crcUnit_seq (run : List Byte) (s : State) : (crcUnit run s).seq = s.seq := rfl
@[simp] theorem crcUnit_scratch (run : List Byte) (s : State) : (crcUnit run s).scratch = s.scratch := rfl
@[simp] theorem crcUnit_crcr (run : List Byte) (s : State) : (crcUnit run s).crcr = crcA s.cfg run := rfl
@[simp] theorem crcUnit_locals (run : List Byte) (s : State) : (crcUnit run s).locals = s.locals := rfl
@[simp] theorem crcUnit_pins (run : List Byte) (s : State) : (crcUnit run s).pins = s.pins := rfl
@[simp] theorem crcUnit_trace (run : List Byte) (s : State) : (crcUnit run s).trace = s.trace := rfl
@[simp] theorem crcUnit_env (run : List Byte) (s : State) : (crcUnit run s).env = s.env := rfl
@[simp] theorem crcUnit_draws (run : List Byte) (s : State) : (crcUnit run s).draws = s.draws := rfl
@[simp] theorem crcUnit_host (run : List Byte) (s : State) : (crcUnit run s).host = s.host := rfl
@[simp] theorem crcUnit_hostRead (run : List Byte) (s : State) : (crcUnit run s).hostRead = s.hostRead := rfl

/-! ### loadBuf -/

@[simp] theorem loadBuf_cfg (bs : List Byte) (s : State) : (loadBuf bs s).cfg = s.cfg := rfl
@[simp] theorem loadBuf_w0 (bs : List Byte) (s : State) : (loadBuf bs s).w0 = s.w0 := rfl
@[simp] theorem loadBuf_w1 (bs : List Byte) (s : State) : (loadBuf bs s).w1 = s.w1 := rfl
@[simp] theorem loadBuf_ibuf (bs : List Byte) (s : State) : (loadBuf bs s).ibuf = bs := rfl
@[simp] theorem loadBuf_ilen (bs : List Byte) (s : State) : (loadBuf bs s).ilen = bs.length := rfl
@[simp] theorem loadBuf_busy (bs : List Byte) (s : State) : (loadBuf bs s).busy = s.busy := rfl
@[simp] theorem loadBuf_res (bs : List Byte) (s : State) : (loadBuf bs s).res = s.res := rfl
@[simp] theorem loadBuf_xstate (bs : List Byte) (s : State) : (loadBuf bs s).xstate = s.xstate := rfl
@[simp] theorem loadBuf_latch (bs : List Byte) (s : State) : (loadBuf bs s).latch = s.latch := rfl
@[simp] theorem loadBuf_seq (bs : List Byte) (s : State) : (loadBuf bs s).seq = s.seq := rfl
@[simp] theorem loadBuf_scratch (bs : List Byte) (s : State) : (loadBuf bs s).scratch = s.scratch := rfl
@[simp] theorem loadBuf_crcr (bs : List Byte) (s : State) : (loadBuf bs s).crcr = s.crcr := rfl
@[simp] theorem loadBuf_locals (bs : List Byte) (s : State) : (loadBuf bs s).locals = s.locals := rfl
@[simp] theorem loadBuf_pins (bs : List Byte) (s : State) : (loadBuf bs s).pins = s.pins := rfl
@[simp] theorem loadBuf_trace (bs : List Byte) (s : State) : (loadBuf bs s).trace = s.trace := rfl
@[simp] theorem loadBuf_env (bs : List Byte) (s : State) : (loadBuf bs s).env = s.env := rfl
@[simp] theorem loadBuf_draws (bs : List Byte) (s : State) : (loadBuf bs s).draws = s.draws := rfl
@[simp] theorem loadBuf_host (bs : List Byte) (s : State) : (loadBuf bs s).host = s.host := rfl
@[simp] theorem loadBuf_hostRead (bs : List Byte) (s : State) : (loadBuf bs s).hostRead = s.hostRead := rfl

/-! ### finishWith -/

@[simp] theorem finishWith_cfg (v : Byte) (s : State) : (finishWith v s).cfg = s.cfg := by simp [finishWith]
@[simp] theorem finishWith_w0 (v : Byte) (s : State) : (finishWith v s).w0 = s.w0 := by simp [finishWith]
@[simp] theorem finishWith_w1 (v : Byte) (s : State) : (finishWith v s).w1 = s.w1 := by simp [finishWith]
@[simp] theorem finishWith_ibuf (v : Byte) (s : State) : (finishWith v s).ibuf = s.ibuf := by simp [finishWith]
@[simp] theorem finishWith_ilen (v : Byte) (s : State) : (finishWith v s).ilen = s.ilen := by simp [finishWith]
@[simp] theorem finishWith_busy (v : Byte) (s : State) : (finishWith v s).busy = false := by simp [finishWith]
@[simp] theorem finishWith_res (v : Byte) (s : State) : (finishWith v s).res = { s.res with status := .ok, rval := zextByte v } := by simp [finishWith]
@[simp] theorem finishWith_xstate (v : Byte) (s : State) : (finishWith v s).xstate = s.xstate := by simp [finishWith]
@[simp] theorem finishWith_latch (v : Byte) (s : State) : (finishWith v s).latch = s.latch := by simp [finishWith]
@[simp] theorem finishWith_seq (v : Byte) (s : State) : (finishWith v s).seq = { s.seq with op := none } := by simp [finishWith]
@[simp] theorem finishWith_scratch (v : Byte) (s : State) : (finishWith v s).scratch = s.scratch := by simp [finishWith]
@[simp] theorem finishWith_crcr (v : Byte) (s : State) : (finishWith v s).crcr = s.crcr := by simp [finishWith]
@[simp] theorem finishWith_locals (v : Byte) (s : State) : (finishWith v s).locals = s.locals := by simp [finishWith]
@[simp] theorem finishWith_pins (v : Byte) (s : State) : (finishWith v s).pins = { s.pins with sel := false } := by simp [finishWith]
@[simp] theorem finishWith_trace (v : Byte) (s : State) : (finishWith v s).trace = s.trace ++ closeEvents s.pins := by simp [finishWith]
@[simp] theorem finishWith_env (v : Byte) (s : State) : (finishWith v s).env = s.env := by simp [finishWith]
@[simp] theorem finishWith_draws (v : Byte) (s : State) : (finishWith v s).draws = s.draws := by simp [finishWith]
@[simp] theorem finishWith_host (v : Byte) (s : State) : (finishWith v s).host = s.host := by simp [finishWith]
@[simp] theorem finishWith_hostRead (v : Byte) (s : State) : (finishWith v s).hostRead = s.hostRead := by simp [finishWith]

/-! ### blockReset: every piece of block state takes its reset value, the rest stays -/

theorem blockReset_eq (s : State) : blockReset s = { State.initial s.cfg with
    trace := s.trace, env := s.env, draws := s.draws, host := s.host, hostRead := s.hostRead } := rfl

end Sys2Proof.Machine
end

