-- ==== Sys2Proof/Laws/Crc.lean ====
section
/-! SUPPORT. The CRC unit's algebra: one shift is linear, and with the top bit of the polynomial set it loses nothing (42_crc.md
R142). -/

namespace Sys2Proof.Machine

/-- One shift is linear (R142 item 3). -/
theorem crcShift_xor (p x y : Half) : crcShift p (x ^^^ y) = crcShift p x ^^^ crcShift p y := by
  unfold crcShift
  rw [BitVec.getLsbD_xor, BitVec.ushiftRight_xor_distrib]
  cases x.getLsbD 0 <;> cases y.getLsbD 0 <;> simp only [Bool.xor_true, Bool.xor_false, Bool.not_true, Bool.not_false,
    Bool.false_eq_true, if_true, if_false]
  · rw [BitVec.xor_assoc]
  · rw [BitVec.xor_assoc, BitVec.xor_comm (y >>> 1), BitVec.xor_assoc]
  · rw [BitVec.xor_assoc, BitVec.xor_comm p, BitVec.xor_assoc, BitVec.xor_self, BitVec.xor_zero]

@[simp] theorem crcShift_zero (p : Half) : crcShift p 0 = 0 := by simp [crcShift]

/-- A shift that gives 0 started at 0, when the polynomial's top bit is set. -/
theorem crcShift_eq_zero {p x : Half} (hp : p.getLsbD 15 = true) (h : crcShift p x = 0) : x = 0 := by
  unfold crcShift at h
  by_cases h0 : x.getLsbD 0
  · rw [if_pos h0] at h
    have := congrArg (·.getLsbD 15) h
    rw [BitVec.getLsbD_eq_getElem (by decide)] at hp
    simp at this
    rw [this] at hp; cases hp
  · rw [if_neg h0] at h
    apply BitVec.eq_of_getLsbD_eq
    intro i hi
    cases i with
    | zero => simpa using h0
    | succ n =>
      have := congrArg (·.getLsbD n) h
      rw [BitVec.getLsbD_ushiftRight] at this
      rw [Nat.add_comm, this]; simp

/-- Eight shifts, as R141 makes for one byte. -/
def crcShift8 (p x : Half) : Half := (crcShift p)^[8] x

theorem crcByte_eq (p c : Half) (b : Byte) : crcByte p c b = crcShift8 p (c ^^^ zextByte b) := rfl

theorem crcIterate_xor (p : Half) (n : Nat) (x y : Half) :
    (crcShift p)^[n] (x ^^^ y) = (crcShift p)^[n] x ^^^ (crcShift p)^[n] y := by
  induction n generalizing x y with
  | zero => rfl
  | succ n ih => simp only [Function.iterate_succ, Function.comp, crcShift_xor, ih]

theorem crcShift8_xor (p x y : Half) : crcShift8 p (x ^^^ y) = crcShift8 p x ^^^ crcShift8 p y := crcIterate_xor p 8 x y

theorem crcIterate_eq_zero {p : Half} (hp : p.getLsbD 15 = true) {n : Nat} {x : Half} (h : (crcShift p)^[n] x = 0) :
    x = 0 := by
  induction n generalizing x with
  | zero => exact h
  | succ n ih => exact crcShift_eq_zero hp (ih h)

theorem crcShift8_injective {p x y : Half} (hp : p.getLsbD 15 = true) (h : crcShift8 p x = crcShift8 p y) : x = y := by
  have e : crcShift8 p (x ^^^ y) = 0 := by rw [crcShift8_xor, h, BitVec.xor_self]; rfl
  exact BitVec.xor_eq_zero_iff.mp (crcIterate_eq_zero hp e)

/-- A value whose low byte is 0 is only shifted down. -/
theorem crcShift8_high (p : Half) (b : Byte) : crcShift8 p (zextByte b <<< 8) = zextByte b := by
  have step : ∀ k, k < 8 → ∀ b : Byte, crcShift p (zextByte b <<< (k + 1)) = zextByte b <<< k := by
    intro k hk b
    have h0 : (zextByte b <<< (k + 1)).getLsbD 0 = false := by simp
    have h := b.isLt
    unfold crcShift; rw [h0]; simp only [Bool.false_eq_true, if_false]
    apply BitVec.eq_of_toNat_eq
    have hb : (zextByte b).toNat = b.toNat := by simp [zextByte]; omega
    simp only [BitVec.toNat_ushiftRight, BitVec.toNat_shiftLeft, hb, Nat.shiftLeft_eq, Nat.shiftRight_eq_div_pow]
    have h1 : b.toNat * 2 ^ (k + 1) < 2 ^ 16 := by
      calc b.toNat * 2 ^ (k + 1) < 2 ^ 8 * 2 ^ (k + 1) := by apply Nat.mul_lt_mul_of_pos_right h; positivity
        _ = 2 ^ (8 + (k + 1)) := (Nat.pow_add 2 8 (k + 1)).symm
        _ ≤ 2 ^ 16 := Nat.pow_le_pow_right (by decide) (by omega)
    rw [Nat.mod_eq_of_lt h1, Nat.pow_succ, ← Nat.mul_assoc]
    rw [Nat.mod_eq_of_lt (by rw [Nat.pow_succ, ← Nat.mul_assoc] at h1; omega)]
    omega
  have e : ∀ n, n ≤ 8 → (crcShift p)^[n] (zextByte b <<< n) = zextByte b := by
    intro n hn
    induction n with
    | zero => simp
    | succ n ih => rw [Function.iterate_succ, Function.comp, step n (by omega), ih (by omega)]
  exact e 8 (le_refl 8)

end Sys2Proof.Machine
end

