-- ==== Sys2Proof/Laws/Decode.lean ====
section
/-! SUPPORT. The four byte fields of W0 (30_encoding.md R70): packing and reading them back, and the must-be-zero test field by
field. -/

namespace Sys2Proof

/-- W0 as a number. -/
theorem packW0_toNat (fc fb fa opc : Byte) :
    (packW0 fc fb fa opc).toNat = fc.toNat * 16777216 + fb.toNat * 65536 + fa.toNat * 256 + opc.toNat := by
  have h1 := fb.isLt
  have h2 := fa.isLt
  have h3 := opc.isLt
  unfold packW0
  erw [BitVec.toNat_append, BitVec.toNat_append, BitVec.toNat_append]
  rw [← Nat.shiftLeft_add_eq_or_of_lt h3, ← Nat.shiftLeft_add_eq_or_of_lt h2, ← Nat.shiftLeft_add_eq_or_of_lt h1]
  simp only [Nat.shiftLeft_eq]
  omega

/-- Reading a field as a number. -/
theorem field_toNat (w : Word) (s n : Nat) : (w.extractLsb' s n).toNat = w.toNat / 2 ^ s % 2 ^ n := by
  rw [BitVec.extractLsb'_toNat, Nat.shiftRight_eq_div_pow]

@[simp] theorem opcField_packW0 (fc fb fa opc : Byte) : opcField (packW0 fc fb fa opc) = opc := by
  have := opc.isLt
  apply BitVec.eq_of_toNat_eq
  rw [opcField, field_toNat, packW0_toNat]; omega

@[simp] theorem byte1_packW0 (fc fb fa opc : Byte) : (packW0 fc fb fa opc).extractLsb' 8 8 = fa := by
  have h1 := opc.isLt
  have h2 := fa.isLt
  apply BitVec.eq_of_toNat_eq
  rw [field_toNat, packW0_toNat]; omega

@[simp] theorem valField_packW0 (fc fb fa opc : Byte) : valField (packW0 fc fb fa opc) = fb := by
  have h1 := opc.isLt
  have h2 := fa.isLt
  have h3 := fb.isLt
  apply BitVec.eq_of_toNat_eq
  rw [valField, field_toNat, packW0_toNat]; omega

theorem lenField_packW0 (fc fb fa opc : Byte) : (lenField (packW0 fc fb fa opc)).toNat = fc.toNat * 256 + fb.toNat := by
  have h1 := opc.isLt
  have h2 := fa.isLt
  have h3 := fb.isLt
  have h4 := fc.isLt
  rw [lenField, field_toNat, packW0_toNat]; omega

theorem regField_packW0 (fc fb fa opc : Byte) (h : fa.toNat < 64) : regField (packW0 fc fb fa opc) = fa := by
  have h1 := opc.isLt
  apply BitVec.eq_of_toNat_eq
  rw [regField, BitVec.toNat_setWidth, field_toNat, packW0_toNat]; omega

theorem cmdField_packW0 (fc fb fa opc : Byte) (h : fa.toNat < 16) : cmdField (packW0 fc fb fa opc) = fa := by
  have h1 := opc.isLt
  apply BitVec.eq_of_toNat_eq
  rw [cmdField, BitVec.toNat_setWidth, field_toNat, packW0_toNat]; omega

/-- W0 is its four bytes. -/
theorem packW0_bytes (w : Word) :
    packW0 (w.extractLsb' 24 8) (w.extractLsb' 16 8) (w.extractLsb' 8 8) (w.extractLsb' 0 8) = w := by
  have := w.isLt
  apply BitVec.eq_of_toNat_eq
  rw [packW0_toNat, field_toNat, field_toNat, field_toNat, field_toNat]; omega

/-- Masking W0 is masking its bytes. -/
theorem packW0_and (a b c d a' b' c' d' : Byte) :
    packW0 a b c d &&& packW0 a' b' c' d' = packW0 (a &&& a') (b &&& b') (c &&& c') (d &&& d') := by
  unfold packW0
  erw [BitVec.and_append, BitVec.and_append, BitVec.and_append]

/-- W0 is 0 exactly when its four bytes are. -/
theorem packW0_eq_zero (a b c d : Byte) : packW0 a b c d = 0 ↔ a = 0 ∧ b = 0 ∧ c = 0 ∧ d = 0 := by
  constructor
  · intro h
    have e := congrArg BitVec.toNat h
    rw [packW0_toNat] at e
    simp at e
    refine ⟨?_, ?_, ?_, ?_⟩ <;> apply BitVec.eq_of_toNat_eq <;> simp <;> omega
  · rintro ⟨rfl, rfl, rfl, rfl⟩; decide

/-- The bytes of a format's must-be-zero mask (R72), FC first; OPC has none. -/
def Format.zeroBytes : Format → Byte × Byte × Byte
  | .n => (0xFF, 0xFF, 0xFF)
  | .r => (0xFF, 0xFF, 0xC0)
  | .rv => (0xFF, 0x00, 0xC0)
  | .c => (0xFF, 0xFF, 0xF0)
  | .d => (0xFF, 0xFF, 0xFE)
  | .l => (0x00, 0x00, 0xFF)
  | .t => (0xFF, 0xFF, 0xFF)
  | .lt => (0x00, 0x00, 0xFF)

/-- The must-be-zero test, byte by byte. -/
theorem zeroBits_packW0 (f : Format) (a b c d : Byte) : packW0 a b c d &&& f.zeroBits = 0 ↔
    a &&& f.zeroBytes.1 = 0 ∧ b &&& f.zeroBytes.2.1 = 0 ∧ c &&& f.zeroBytes.2.2 = 0 := by
  have h : f.zeroBits = packW0 f.zeroBytes.1 f.zeroBytes.2.1 f.zeroBytes.2.2 0 := by cases f <;> decide
  rw [h, packW0_and, packW0_eq_zero]; simp

/-- The row of R74 an opcode names is the opcode's own. -/
@[simp] theorem ofCode_code (o : Opcode) : Opcode.ofCode o.code = some o := by cases o <;> decide

/-- An opcode byte that names a row is that row's code. -/
theorem code_of_ofCode {b : Byte} {o : Opcode} (h : Opcode.ofCode b = some o) : o.code = b := by
  have := List.find?_some h; simpa using this

end Sys2Proof
end

