-- ==== Sys2Proof/Laws/Wire.lean ====
section
/-! SUPPORT. What the pin sequences of 41_link_a.md R121 leave on the lines, and the bit order of a received byte (20_memory.md
R56). -/

namespace Sys2Proof.Machine

/-- `LinkTx(b)` leaves SEL alone, CLK idle at 0, and DOUT at bit 7, the last bit sent. -/
theorem runPins_linkTxPins (b : Byte) (p : Pins) :
    runPins (linkTxPins b) p = { p with clk := false, dout := b.getLsbD 7 } := by
  simp [linkTxPins, runPins, List.range, List.range.loop, pinOp]

/-- `LinkRx()` leaves SEL alone and both driven lines at 0. -/
theorem runPins_linkRxPins (p : Pins) : runPins linkRxPins p = { p with clk := false, dout := false } := by
  simp [linkRxPins, runPins, List.range, List.range.loop, pinOp]

/-- The byte assembled from the levels a device drives for `v` is `v`. -/
theorem assemble_dinLevels : ∀ v : Byte, assemble (dinLevels v) = v := by decide +kernel

end Sys2Proof.Machine
end

