-- ==== Sys2Proof/Laws/Ops.lean ====
section
/-! SUPPORT. What each shared operation of Machine/Ops.lean can do, said once: the transport primitives, one line of a program, the
checks at a command's start. -/

namespace Sys2Proof.Machine

/-! ### Which primitives the environment answers -/

@[simp] theorem answered_internal : Prim.internal.answered = false := rfl
@[simp] theorem answered_sel (l : Bool) : (Prim.sel l).answered = false := rfl
@[simp] theorem answered_tx (b : Byte) : (Prim.tx b).answered = true := rfl
@[simp] theorem answered_rx : Prim.rx.answered = true := rfl
@[simp] theorem answered_xfer (a d : Byte) : (Prim.xfer a d).answered = true := rfl
@[simp] theorem answered_delay (t : Nat) : (Prim.delay t).answered = false := rfl

/-! ### The environment's answer -/

@[simp] theorem nextAnswer_cons {s : State} {a : Answer} {rest : List Answer} (h : s.env = a :: rest) :
    nextAnswer s = a := by simp [nextAnswer, h]

/-! ### perform: which fields a primitive can touch -/

@[simp] theorem perform_cfg (p : Prim) (s : State) : (perform p s).2.cfg = s.cfg := by cases p <;> rfl
@[simp] theorem perform_w0 (p : Prim) (s : State) : (perform p s).2.w0 = s.w0 := by cases p <;> rfl
@[simp] theorem perform_w1 (p : Prim) (s : State) : (perform p s).2.w1 = s.w1 := by cases p <;> rfl
@[simp] theorem perform_ibuf (p : Prim) (s : State) : (perform p s).2.ibuf = s.ibuf := by cases p <;> rfl
@[simp] theorem perform_ilen (p : Prim) (s : State) : (perform p s).2.ilen = s.ilen := by cases p <;> rfl
@[simp] theorem perform_busy (p : Prim) (s : State) : (perform p s).2.busy = s.busy := by cases p <;> rfl
@[simp] theorem perform_res (p : Prim) (s : State) : (perform p s).2.res = s.res := by cases p <;> rfl
@[simp] theorem perform_xstate (p : Prim) (s : State) : (perform p s).2.xstate = s.xstate := by cases p <;> rfl
@[simp] theorem perform_latch (p : Prim) (s : State) : (perform p s).2.latch = s.latch := by cases p <;> rfl
@[simp] theorem perform_seq (p : Prim) (s : State) : (perform p s).2.seq = s.seq := by cases p <;> rfl
@[simp] theorem perform_scratch (p : Prim) (s : State) : (perform p s).2.scratch = s.scratch := by cases p <;> rfl
@[simp] theorem perform_crcr (p : Prim) (s : State) : (perform p s).2.crcr = s.crcr := by cases p <;> rfl
@[simp] theorem perform_host (p : Prim) (s : State) : (perform p s).2.host = s.host := by cases p <;> rfl
@[simp] theorem perform_hostRead (p : Prim) (s : State) : (perform p s).2.hostRead = s.hostRead := by
  cases p <;> rfl
@[simp] theorem perform_rx (p : Prim) (s : State) : (perform p s).2.locals.rx = s.locals.rx := by cases p <;> rfl
@[simp] theorem perform_status (p : Prim) (s : State) : (perform p s).2.locals.status = s.locals.status := by
  cases p <;> rfl
@[simp] theorem perform_lo (p : Prim) (s : State) : (perform p s).2.locals.lo = s.locals.lo := by cases p <;> rfl

/-- The ordinal counts exactly the primitives the environment answers (60 R200). -/
@[simp] theorem perform_ordinal (p : Prim) (s : State) :
    (perform p s).2.locals.ordinal = s.locals.ordinal + (if p.answered then 1 else 0) := by cases p <;> rfl

/-- Likewise the transaction count and the environment's answers. -/
@[simp] theorem perform_draws (p : Prim) (s : State) :
    (perform p s).2.draws = s.draws + (if p.answered then 1 else 0) := by cases p <;> rfl

@[simp] theorem perform_env (p : Prim) (s : State) :
    (perform p s).2.env = if p.answered then s.env.tail else s.env := by cases p <;> rfl

/-- The answer of a primitive: the environment's, or Ok for one that cannot fail. -/
@[simp] theorem perform_answer (p : Prim) (s : State) :
    (perform p s).1 = if p.answered then nextAnswer s else .ok 0 := by cases p <;> rfl

/-- The answer of a transaction when the environment has one scripted. -/
theorem perform_answer_of {s : State} {a : Answer} {rest : List Answer} (h : s.env = a :: rest) {p : Prim}
    (hp : p.answered = true) : (perform p s).1 = a := by simp [hp, h, nextAnswer]

/-- The events of a primitive with its answer (20 R53). -/
def Prim.events : Prim → Answer → List Event
  | .internal, _ => []
  | .sel l, _ => [.sel l]
  | .tx b, a => [.tx b (isOk a)]
  | .rx, a => [.rx a]
  | .xfer x d, a => [.xfer x d a]
  | .delay t, _ => [.delay t]

@[simp] theorem events_internal (r : Answer) : Prim.internal.events r = [] := rfl
@[simp] theorem events_sel (l : Bool) (r : Answer) : (Prim.sel l).events r = [.sel l] := rfl
@[simp] theorem events_tx (b : Byte) (r : Answer) : (Prim.tx b).events r = [.tx b (isOk r)] := rfl
@[simp] theorem events_rx (r : Answer) : Prim.rx.events r = [.rx r] := rfl
@[simp] theorem events_xfer (a d : Byte) (r : Answer) : (Prim.xfer a d).events r = [.xfer a d r] := rfl
@[simp] theorem events_delay (t : Nat) (r : Answer) : (Prim.delay t).events r = [.delay t] := rfl

@[simp] theorem perform_trace (p : Prim) (s : State) :
    (perform p s).2.trace = s.trace ++ p.events (nextAnswer s) := by
  cases p <;> simp [perform, linkTx, linkRx, regXfer, Prim.events]

theorem Prim.events_fail (p : Prim) : p.answered = true → p.events .fail = p.failEvent := by
  cases p <;> simp [Prim.events, Prim.failEvent, Prim.answered, isOk]

theorem Prim.events_length_le (p : Prim) (a : Answer) : (p.events a).length ≤ 1 := by
  cases p <;> simp [Prim.events]

/-! ### Counting transactions (60 R200) -/

@[simp] theorem transactions_nil : transactions [] = 0 := rfl
@[simp] theorem transactions_append (a b : List Event) : transactions (a ++ b) = transactions a + transactions b :=
  List.countP_append
@[simp] theorem transactions_sel (l : Bool) : transactions [.sel l] = 0 := rfl
@[simp] theorem transactions_tx (b : Byte) (r : Bool) : transactions [.tx b r] = 1 := rfl
@[simp] theorem transactions_rx (r : Answer) : transactions [.rx r] = 1 := rfl
@[simp] theorem transactions_xfer (a d : Byte) (r : Answer) : transactions [.xfer a d r] = 1 := rfl
@[simp] theorem transactions_delay (t : Nat) : transactions [.delay t] = 0 := rfl

/-- A primitive's events hold one transaction exactly when the environment answers it. -/
theorem transactions_events (p : Prim) (a : Answer) : transactions (p.events a) = if p.answered then 1 else 0 := by
  cases p <;> rfl

/-! ### The link lines -/

@[simp] theorem linesAfter_sel (p : Pins) (l : Bool) : linesAfter p (.sel l) = { p with sel := l } := rfl
@[simp] theorem linesAfter_tx (p : Pins) (b : Byte) (r : Bool) :
    linesAfter p (.tx b r) = { p with clk := false, dout := b.getLsbD 7 } := rfl
@[simp] theorem linesAfter_rx (p : Pins) (r : Answer) :
    linesAfter p (.rx r) = { p with clk := false, dout := false } := rfl
@[simp] theorem linesAfter_xfer (p : Pins) (a d : Byte) (r : Answer) : linesAfter p (.xfer a d r) = p := rfl
@[simp] theorem linesAfter_delay (p : Pins) (t : Nat) : linesAfter p (.delay t) = p := rfl

/-- The lines after a primitive that answered Ok are those its events leave (41 R120, R121). -/
theorem perform_pins_of_ok {p : Prim} {s : State} {v : Byte} (h : (perform p s).1 = .ok v) :
    (perform p s).2.pins = (p.events (nextAnswer s)).foldl linesAfter s.pins := by
  cases p with
  | tx b =>
    have e : nextAnswer s = .ok v := h
    show txLines b (nextAnswer s) s.draws s.pins = _
    rw [e]; exact runPins_linkTxPins b s.pins
  | rx => exact runPins_linkRxPins s.pins
  | _ => rfl

/-- SEL after a primitive, whatever the answer, is what its events leave: only a select drives it. -/
theorem perform_sel (p : Prim) (s : State) :
    (perform p s).2.pins.sel = ((p.events (nextAnswer s)).foldl linesAfter s.pins).sel := by
  cases p with
  | tx b =>
    show (txLines b (nextAnswer s) s.draws s.pins).sel = s.pins.sel
    unfold txLines; split
    · rw [runPins_linkTxPins]
    · rfl
  | rx => exact congrArg Pins.sel (runPins_linkRxPins s.pins)
  | _ => rfl

/-- Only the select primitive drives SEL. -/
theorem perform_sel_of_ne (p : Prim) (s : State) (h : ∀ l, p ≠ .sel l) : (perform p s).2.pins.sel = s.pins.sel := by
  cases p with
  | sel l => exact absurd rfl (h l)
  | _ => rw [perform_sel]; rfl

/-- The register bus and the delays leave every link line alone. -/
theorem perform_pins_of_bus (p : Prim) (s : State) (h : (∃ a d, p = .xfer a d) ∨ (∃ t, p = .delay t) ∨ p = .internal) :
    (perform p s).2.pins = s.pins := by
  obtain ⟨_, _, rfl⟩ | ⟨_, rfl⟩ | rfl := h <;> rfl

/-! ### One line, one program step -/

/-- The state a flow carries. -/
def Flow.state : Flow → State
  | .next s => s
  | .goto _ s => s
  | .halt s => s

@[simp] theorem Flow.state_next (s : State) : (Flow.next s).state = s := rfl
@[simp] theorem Flow.state_goto (p : Nat) (s : State) : (Flow.goto p s).state = s := rfl
@[simp] theorem Flow.state_halt (s : State) : (Flow.halt s).state = s := rfl

/-- What following a flow can do: the command has halted, another line of the program is next, or the rule's end is reached. -/
theorem follow_cases (prog : List Line) (done : State → State) (f : Flow) :
    (f = .halt (follow prog done f)) ∨
    (∃ p, p ≤ prog.length ∧ follow prog done f = { f.state with seq.pos := p } ∧
      (f = .next f.state ∧ p = f.state.seq.pos + 1 ∨ f = .goto p f.state)) ∨
    (∃ p, prog.length < p ∧ follow prog done f = done f.state ∧
      (f = .next f.state ∧ p = f.state.seq.pos + 1 ∨ f = .goto p f.state)) := by
  cases f with
  | halt s => exact .inl rfl
  | next s =>
    by_cases h : s.seq.pos + 1 ≤ prog.length
    · exact .inr (.inl ⟨_, h, by simp [follow, land, h], .inl ⟨rfl, rfl⟩⟩)
    · exact .inr (.inr ⟨_, Nat.lt_of_not_le h, by simp [follow, land, h], .inl ⟨rfl, rfl⟩⟩)
  | goto p s =>
    by_cases h : p ≤ prog.length
    · exact .inr (.inl ⟨p, h, by simp [follow, land, h], .inr rfl⟩)
    · exact .inr (.inr ⟨p, Nat.lt_of_not_le h, by simp [follow, land, h], .inr rfl⟩)

theorem runLine_ok {prog : List Line} {done onFail : State → State} {l : Line} {s : State} {v : Byte}
    (h : (perform l.prim s).1 = .ok v) :
    runLine prog done onFail l s = follow prog done (l.after v (perform l.prim s).2) := by
  unfold runLine; split <;> simp_all

theorem runLine_fail {prog : List Line} {done onFail : State → State} {l : Line} {s : State}
    (h : (perform l.prim s).1 = .fail) :
    runLine prog done onFail l s =
      raise .transport (some (zext16 (perform l.prim s).2.locals.ordinal)) (onFail (perform l.prim s).2) := by
  unfold runLine; split <;> simp_all

/-- One line either raises E_TRANSPORT or follows its flow. -/
theorem runLine_cases (prog : List Line) (done onFail : State → State) (l : Line) (s : State) :
    (∃ v, (perform l.prim s).1 = .ok v ∧
      runLine prog done onFail l s = follow prog done (l.after v (perform l.prim s).2)) ∨
    ((perform l.prim s).1 = .fail ∧ runLine prog done onFail l s =
      raise .transport (some (zext16 (perform l.prim s).2.locals.ordinal)) (onFail (perform l.prim s).2)) := by
  cases h : (perform l.prim s).1 with
  | ok v => exact .inl ⟨v, rfl, runLine_ok h⟩
  | fail => exact .inr ⟨rfl, runLine_fail h⟩

/-- A program step answers next exactly where SEQ_POS names a line, and then it runs that line. -/
theorem runProgram_next {prog : List Line} {done onFail : State → State} {s t : State} :
    runProgram prog done onFail s = .next t ↔
      ∃ l, prog[s.seq.pos - 1]? = some l ∧ t = runLine prog done onFail l s := by
  unfold runProgram; split
  · simp_all
  · rename_i l h; simp only [Host.Outcome.next.injEq, h, Option.some.injEq]
    exact ⟨fun e => ⟨l, rfl, e.symm⟩, fun ⟨_, e, e'⟩ => by rw [e', e]⟩

theorem runProgram_of_line {prog : List Line} {done onFail : State → State} {s : State} {l : Line}
    (h : prog[s.seq.pos - 1]? = some l) : runProgram prog done onFail s = .next (runLine prog done onFail l s) :=
  runProgram_next.mpr ⟨l, h, rfl⟩

/-! ### The checks at a command's start -/

/-- Past SEQ_POS 0 there are no checks. -/
theorem enter_of_pos {need : Backend} {o : Opcode} {limit : Option Nat} {onFail init : State → State} {s : State}
    (h : s.seq.pos ≠ 0) : enter need o limit onFail init s = .go s := by simp [enter, h]

theorem enter_of_backend {need : Backend} {o : Opcode} {limit : Option Nat} {onFail init : State → State} {s : State}
    (h : s.seq.pos = 0) (hb : s.cfg.backend ≠ need) :
    enter need o limit onFail init s = .ended (raise .backend (some (zextByte o.code)) s) := by
  simp [enter, h, hb]

theorem enter_of_limit {need : Backend} {o : Opcode} {k : Nat} {onFail init : State → State} {s : State}
    (h : s.seq.pos = 0) (hb : s.cfg.backend = need) :
    enter need o (some k) onFail init s = .ended (raise .parameter (some (zext16 k)) (onFail s)) := by
  simp [enter, h, hb]

theorem enter_of_ready {need : Backend} {o : Opcode} {onFail init : State → State} {s : State}
    (h : s.seq.pos = 0) (hb : s.cfg.backend = need) :
    enter need o none onFail init s = .go { init s with seq.pos := 1 } := by simp [enter, h, hb]

/-- What the checks can do. -/
theorem enter_cases (need : Backend) (o : Opcode) (limit : Option Nat) (onFail init : State → State) (s : State) :
    (s.seq.pos ≠ 0 ∧ enter need o limit onFail init s = .go s) ∨
    (s.seq.pos = 0 ∧ s.cfg.backend ≠ need ∧
      enter need o limit onFail init s = .ended (raise .backend (some (zextByte o.code)) s)) ∨
    (∃ k, s.seq.pos = 0 ∧ s.cfg.backend = need ∧ limit = some k ∧
      enter need o limit onFail init s = .ended (raise .parameter (some (zext16 k)) (onFail s))) ∨
    (s.seq.pos = 0 ∧ s.cfg.backend = need ∧ limit = none ∧
      enter need o limit onFail init s = .go { init s with seq.pos := 1 }) := by
  unfold enter; split
  · split
    · split <;> simp_all
    · simp_all
  · simp_all

@[simp] theorem exceeding_eq_none (k n : Nat) : exceeding k n = none ↔ k ≤ n := by unfold exceeding; split <;> simp <;> omega

theorem exceeding_of_le {k n : Nat} (h : k ≤ n) : exceeding k n = none := by simp [h]

theorem exceeding_of_lt {k n : Nat} (h : n < k) : exceeding k n = some k := by simp [exceeding, h]

end Sys2Proof.Machine
end

