-- ==== Sys2Proof/Laws/Exec.lean ====
section
/-! SUPPORT. exec and step taken apart once: a transport command is its checks and one line of its program, and a step is a host
action or the block's step. -/

namespace Sys2Proof.Machine

/-- The precondition of a command's rule (its offending number, if any). -/
def limitOf (i : Instr) (s : State) : Option Nat :=
  match i with
  | .writeCommand => exceeding s.dataLen s.cfg.framePayloadMax
  | .readData n => exceeding n.toNat s.cfg.rxMax
  | .sendCheckAck _ => exceeding s.dataLen s.cfg.framePayloadMax
  | .exchange n _ => exchangeLimit n s
  | .executeCommand _ => exceeding s.dataLen s.cfg.fifoDepth
  | .calcCrc => exceeding s.dataLen s.cfg.fifoDepth
  | .crc16 | .crcAppend | .crcCheck | .frameBuild _ | .frameParse _ | .ackMatch | .isReady | .waitReady _
  | .readAck | .readReg _ | .writeReg _ _ | .setBitmask _ _ | .clearBitmask _ _ | .reset | .antennaOn
  | .antennaOff => none

/-- The initial assignments of a command's rule. -/
def initOf (i : Instr) : State → State :=
  match i with
  | .exchange _ _ => setX .idle
  | .executeCommand cmd => executeInit cmd
  | .calcCrc => calcCrcInit
  | .crc16 | .crcAppend | .crcCheck | .frameBuild _ | .frameParse _ | .ackMatch | .writeCommand | .readData _
  | .isReady | .waitReady _ | .readAck | .sendCheckAck _ | .readReg _ | .writeReg _ _ | .setBitmask _ _
  | .clearBitmask _ _ | .reset | .antennaOn | .antennaOff => id

/-- What a command's rule does before it raises E_PARAMETER or E_TRANSPORT. -/
def failOf (i : Instr) : State → State :=
  match i with
  | .exchange _ _ => setX .failed
  | .crc16 | .crcAppend | .crcCheck | .frameBuild _ | .frameParse _ | .ackMatch | .writeCommand | .readData _
  | .isReady | .waitReady _ | .readAck | .sendCheckAck _ | .readReg _ | .writeReg _ _ | .setBitmask _ _
  | .clearBitmask _ _ | .executeCommand _ | .calcCrc | .reset | .antennaOn | .antennaOff => id

/-- The end of a command's rule, after its last line. -/
def doneOf (i : Instr) : State → State :=
  match i with
  | .readData n => readDataDone n
  | .isReady => isReadyDone
  | .waitReady _ => waitReadyDone true
  | .readAck => readAckDone
  | .sendCheckAck _ => sendCheckAckDone
  | .exchange _ _ => exchangeParse
  | .setBitmask _ m => setBitmaskDone m
  | .clearBitmask _ m => clearBitmaskDone m
  | .executeCommand _ => executeDone
  | .antennaOn => antennaOnDone
  | .antennaOff => antennaOffDone
  | .crc16 | .crcAppend | .crcCheck | .frameBuild _ | .frameParse _ | .ackMatch | .writeCommand | .readReg _
  | .writeReg _ _ | .calcCrc | .reset => finish

/-- A command that uses the transport is its checks and one line of its program. -/
theorem exec_transport {i : Instr} {b : Backend} (h : i.opcode.backend = some b) (s : State) :
    exec i s = runCommand (enter b i.opcode (limitOf i s) (failOf i) (initOf i) s) (linesOf i) (doneOf i) (failOf i) := by
  cases i <;> simp only [Instr.opcode, Opcode.backend, reduceCtorEq, Option.some.injEq] at h <;> subst h <;> rfl

/-- At a line: past the checks, exec runs exactly that line. -/
theorem exec_at_line {i : Instr} {b : Backend} (h : i.opcode.backend = some b) {s : State} {l : Line}
    (hp : s.seq.pos ≠ 0) (hl : (linesOf i s)[s.seq.pos - 1]? = some l) :
    exec i s = .next (runLine (linesOf i s) (doneOf i) (failOf i) l s) := by
  rw [exec_transport h, enter_of_pos hp]; exact runProgram_of_line hl

/-- At the start, with the checks passed, exec makes the initial assignments and runs the first line. -/
theorem exec_at_start {i : Instr} {b : Backend} (h : i.opcode.backend = some b) {s : State} {l : Line}
    (hp : s.seq.pos = 0) (hb : s.cfg.backend = b) (hk : limitOf i s = none)
    (hl : (linesOf i { initOf i s with seq.pos := 1 })[0]? = some l) :
    exec i s = .next (runLine (linesOf i { initOf i s with seq.pos := 1 }) (doneOf i) (failOf i) l
      { initOf i s with seq.pos := 1 }) := by
  rw [exec_transport h, hk, enter_of_ready hp hb]; exact runProgram_of_line hl

/-- What a transport command can do when it answers next: a check ended it, or it ran a line (after its initial assignments, at
the start). -/
theorem exec_transport_next {i : Instr} {b : Backend} (h : i.opcode.backend = some b) {s t : State}
    (ht : exec i s = .next t) :
    (s.seq.pos = 0 ∧ s.cfg.backend ≠ b ∧ t = raise .backend (some (zextByte i.opcode.code)) s) ∨
    (∃ k, s.seq.pos = 0 ∧ s.cfg.backend = b ∧ limitOf i s = some k ∧
      t = raise .parameter (some (zext16 k)) (failOf i s)) ∨
    (∃ u l, (s.seq.pos ≠ 0 ∧ u = s ∨
        s.seq.pos = 0 ∧ s.cfg.backend = b ∧ limitOf i s = none ∧ u = { initOf i s with seq.pos := 1 }) ∧
      (linesOf i u)[u.seq.pos - 1]? = some l ∧ t = runLine (linesOf i u) (doneOf i) (failOf i) l u) := by
  rw [exec_transport h] at ht
  obtain ⟨hp, he⟩ | ⟨hp, hb, he⟩ | ⟨k, hp, hb, hk, he⟩ | ⟨hp, hb, hk, he⟩ :=
    enter_cases b i.opcode (limitOf i s) (failOf i) (initOf i) s <;> rw [he] at ht
  · obtain ⟨l, hl, e⟩ := runProgram_next.mp ht
    exact .inr (.inr ⟨s, l, .inl ⟨hp, rfl⟩, hl, e⟩)
  · exact .inl ⟨hp, hb, (Host.Outcome.next.inj ht).symm⟩
  · exact .inr (.inl ⟨k, hp, hb, hk, (Host.Outcome.next.inj ht).symm⟩)
  · obtain ⟨l, hl, e⟩ := runProgram_next.mp ht
    exact .inr (.inr ⟨_, l, .inr ⟨hp, hb, hk, rfl⟩, hl, e⟩)

/-- A reflexive and transitive relation that every part of a command respects holds from before exec to after it. -/
theorem exec_rel {R : State → State → Prop} {i : Instr} {b : Backend} (h : i.opcode.backend = some b)
    (trans : ∀ x y z, R x y → R y z → R x z)
    (hperf : ∀ s, ∀ l ∈ linesOf i s, ∀ u, R u (perform l.prim u).2) (hraise : ∀ st info s, R s (raise st info s))
    (hpos : ∀ p s, R s { s with seq.pos := p }) (hinit : ∀ s, R s (initOf i s)) (hfail : ∀ s, R s (failOf i s))
    (hdone : ∀ s, R s (doneOf i s)) (hafter : ∀ s, ∀ l ∈ linesOf i s, ∀ v u, R u (l.after v u).state)
    {s t : State} (ht : exec i s = .next t) : R s t := by
  have refl : ∀ x, R x x := fun x => hpos x.seq.pos x
  obtain ⟨_, _, rfl⟩ | ⟨k, _, _, _, rfl⟩ | ⟨u, l, hu, hl, rfl⟩ := exec_transport_next h ht
  · exact hraise ..
  · exact trans _ _ _ (hfail s) (hraise ..)
  · have hsu : R s u := by
      obtain ⟨_, rfl⟩ | ⟨_, _, _, rfl⟩ := hu
      · exact refl _
      · exact trans _ _ _ (hinit s) (hpos 1 _)
    have hm := List.mem_of_getElem? hl
    refine trans _ _ _ hsu (trans _ _ _ (hperf u l hm u) ?_)
    obtain ⟨v, _, e⟩ | ⟨_, e⟩ := runLine_cases (linesOf i u) (doneOf i) (failOf i) l u <;> rw [e]
    · have ha := hafter u l hm v (perform l.prim u).2
      refine trans _ _ _ ha ?_
      obtain e | ⟨p, _, e, _⟩ | ⟨p, _, e, _⟩ := follow_cases (linesOf i u) (doneOf i) (l.after v (perform l.prim u).2)
      · generalize follow (linesOf i u) (doneOf i) (l.after v (perform l.prim u).2) = w at e ⊢
        rw [e]; exact refl _
      · rw [e]; exact hpos ..
      · rw [e]; exact hdone _
    · exact trans _ _ _ (hfail _) (hraise ..)

/-! ### The step -/

theorem step_block {s : State} (h : s.host = []) : step s = blockStep exec s := by simp [step, machineStep, hostMove, h]

theorem step_run {s : State} {rest : List HostAction} (h : s.host = .run :: rest) :
    step s = blockStep exec { s with host := rest } := by simp [step, machineStep, hostMove, h]

/-- What a step can do when it answers next: the host acts, or the block runs from a state that differs from `s` in the host's
schedule at most. -/
theorem step_next {s t : State} (h : step s = .next t) :
    hostMove s = .acted t ∨ (∃ u, hostMove s = .block u ∧ blockStep exec u = .next t) := by
  unfold step machineStep at h
  split at h
  · exact .inl (by simp_all)
  · simp at h
  · exact .inr ⟨_, ‹_›, h⟩

/-- The block runs from `s` itself but for the host's schedule. -/
theorem hostMove_block {s u : State} (h : hostMove s = .block u) : ∃ hs, u = { s with host := hs } := by
  unfold hostMove at h
  split at h
  · rename_i hh; cases h; exact ⟨s.host, rfl⟩
  · cases h; exact ⟨_, rfl⟩
  · split at h
    · cases h; exact ⟨s.host, rfl⟩
    · cases h
  all_goals first | cases h | (split at h <;> first | cases h | (split at h <;> cases h))

/-- The host's actions, one by one. -/
theorem hostMove_acted {s t : State} (h : hostMove s = .acted t) :
    (∃ rest, s.host = .awaitIdle :: rest ∧ s.busy = false ∧ t = { s with host := rest }) ∨
    (∃ rest, s.host = .rst :: rest ∧ t = blockReset { s with host := rest }) ∨
    (∃ r rest, s.host = .read r :: rest ∧ t = { s with host := rest, hostRead := some (readResult r s) }) ∨
    (∃ bs rest, s.host = .loadBuf bs :: rest ∧ s.busy = false ∧ bs.length ≤ s.cfg.bufMax ∧
      t = loadBuf bs { s with host := rest }) ∨
    (∃ w rest, s.host = .writeW1 w :: rest ∧ s.busy = false ∧ t = { s with host := rest, w1 := w }) ∨
    (∃ w rest, s.host = .writeW0 w :: rest ∧ s.busy = false ∧ t = startCommand w { s with host := rest }) := by
  unfold hostMove at h
  split at h
  · cases h
  · cases h
  · split at h
    · cases h
    · cases h; exact .inl ⟨_, ‹_›, by simp_all, rfl⟩
  · cases h; exact .inr (.inl ⟨_, ‹_›, rfl⟩)
  · split at h
    · cases h
    · cases h; exact .inr (.inr (.inl ⟨_, _, ‹_›, rfl⟩))
  · split at h
    · cases h
    · split at h
      · cases h
      · cases h; exact .inr (.inr (.inr (.inl ⟨_, _, ‹_›, by simp_all, by omega, rfl⟩)))
  · split at h
    · cases h
    · cases h; exact .inr (.inr (.inr (.inr (.inl ⟨_, _, ‹_›, by simp_all, rfl⟩))))
  · split at h
    · cases h
    · cases h; exact .inr (.inr (.inr (.inr (.inr ⟨_, _, ‹_›, by simp_all, rfl⟩))))

/-- What the block's step can do when it answers next. -/
theorem blockStep_next {s t : State} (h : blockStep exec s = .next t) :
    (s.busy = false ∧ t = s) ∨ (s.busy = true ∧ (∃ e, fetch s = .error e) ∧ t = raiseIllegal s) ∨
    (∃ i, s.busy = true ∧ fetch s = .ok i ∧ exec i s = .next t) := by
  unfold blockStep at h
  split at h
  · split at h
    · exact .inr (.inl ⟨‹_›, ⟨_, ‹_›⟩, (Host.Outcome.next.inj h).symm⟩)
    · exact .inr (.inr ⟨_, ‹_›, ‹_›, h⟩)
  · exact .inl ⟨by simp_all, (Host.Outcome.next.inj h).symm⟩

end Sys2Proof.Machine
end

