-- ==== Sys2Proof/Laws/Lines.lean ====
section
/-! SUPPORT. How one line of a command runs, and where the lines of the shared subsequences stand: a command at a line answers next
with what the line's primitive and continuation give, so no proof has to unfold exec or a whole program. -/

namespace Sys2Proof.Machine

/-! ### Running the line a command is at -/

section
variable {i : Instr} {b : Backend} {s u : State} {l : Line} {p q : Nat} {v : Byte}

/-- At line `p`, exec runs exactly that line. -/
theorem exec_line (h : i.opcode.backend = some b) (hp : AtLine p s) (hl : (linesOf i s)[p - 1]? = some l) :
    exec i s = .next (runLine (linesOf i s) (doneOf i) (failOf i) l s) := by
  obtain ⟨rfl, h1⟩ := hp
  exact exec_at_line h (by omega) hl

/-- A line that goes on to the next one. -/
theorem exec_line_next (h : i.opcode.backend = some b) (hp : AtLine p s) (hl : (linesOf i s)[p - 1]? = some l)
    (hn : p < (linesOf i s).length) (hv : (perform l.prim s).1 = .ok v)
    (ha : l.after v (perform l.prim s).2 = .next u) (hu : u.seq.pos = s.seq.pos) :
    exec i s = .next { u with seq.pos := p + 1 } := by
  rw [exec_line h hp hl, runLine_ok hv, ha, follow, land, hu, hp.1, if_pos (by omega)]

/-- A line that goes to another one. -/
theorem exec_line_goto (h : i.opcode.backend = some b) (hp : AtLine p s) (hl : (linesOf i s)[p - 1]? = some l)
    (hn : q ≤ (linesOf i s).length) (hv : (perform l.prim s).1 = .ok v)
    (ha : l.after v (perform l.prim s).2 = .goto q u) : exec i s = .next { u with seq.pos := q } := by
  rw [exec_line h hp hl, runLine_ok hv, ha, follow, land, if_pos hn]

/-- A line that goes past the last one ends the command with its rule's end. -/
theorem exec_line_past (h : i.opcode.backend = some b) (hp : AtLine p s) (hl : (linesOf i s)[p - 1]? = some l)
    (hn : (linesOf i s).length < q) (hv : (perform l.prim s).1 = .ok v)
    (ha : l.after v (perform l.prim s).2 = .goto q u) : exec i s = .next (doneOf i u) := by
  rw [exec_line h hp hl, runLine_ok hv, ha, follow, land, if_neg (by omega)]

/-- The last line ends the command with its rule's end. -/
theorem exec_line_last (h : i.opcode.backend = some b) (hp : AtLine p s) (hl : (linesOf i s)[p - 1]? = some l)
    (hn : (linesOf i s).length ≤ p) (hv : (perform l.prim s).1 = .ok v)
    (ha : l.after v (perform l.prim s).2 = .next u) (hu : u.seq.pos = s.seq.pos) : exec i s = .next (doneOf i u) := by
  rw [exec_line h hp hl, runLine_ok hv, ha, follow, land, hu, hp.1, if_neg (by omega)]

/-- A line that ends the command itself. -/
theorem exec_line_halt (h : i.opcode.backend = some b) (hp : AtLine p s) (hl : (linesOf i s)[p - 1]? = some l)
    (hv : (perform l.prim s).1 = .ok v) (ha : l.after v (perform l.prim s).2 = .halt u) : exec i s = .next u := by
  rw [exec_line h hp hl, runLine_ok hv, ha, follow]

/-- A select line hands the state with SEL driven to its continuation. -/
theorem exec_line_sel {level : Bool} {g : State → Flow} (h : i.opcode.backend = some b) (hp : AtLine p s)
    (hl : (linesOf i s)[p - 1]? = some ⟨.sel level, fun _ x => g x⟩) :
    exec i s = .next (follow (linesOf i s) (doneOf i) (g (driveSel level s))) := by
  rw [exec_line h hp hl]; rfl

/-- A line with no transaction hands the state to its continuation. -/
theorem exec_line_internal {g : State → Flow} (h : i.opcode.backend = some b) (hp : AtLine p s)
    (hl : (linesOf i s)[p - 1]? = some ⟨.internal, fun _ x => g x⟩) :
    exec i s = .next (follow (linesOf i s) (doneOf i) (g s)) := by
  rw [exec_line h hp hl]; rfl

/-- A delay line. -/
theorem exec_line_delay {us : Nat} {g : State → Flow} (h : i.opcode.backend = some b) (hp : AtLine p s)
    (hl : (linesOf i s)[p - 1]? = some ⟨.delay us, fun _ x => g x⟩) :
    exec i s = .next (follow (linesOf i s) (doneOf i) (g (delayUs us s))) := by
  rw [exec_line h hp hl]; rfl

/-- A line the environment answers Ok hands its byte to its continuation. -/
theorem exec_line_ok {rest : List Answer} (h : i.opcode.backend = some b) (hp : AtLine p s)
    (hl : (linesOf i s)[p - 1]? = some l) (hq : l.prim.answered = true) (he : s.env = .ok v :: rest) :
    exec i s = .next (follow (linesOf i s) (doneOf i) (l.after v (perform l.prim s).2)) := by
  rw [exec_line h hp hl, runLine_ok (perform_answer_of he hq)]

/-- Following a flow that goes on within the program. -/
theorem follow_next {prog : List Line} {done : State → State} (h : s.seq.pos < prog.length) :
    follow prog done (.next s) = { s with seq.pos := s.seq.pos + 1 } := if_pos h

/-- Following a flow that goes to a line of the program. -/
theorem follow_goto {prog : List Line} {done : State → State} (h : q ≤ prog.length) :
    follow prog done (.goto q s) = { s with seq.pos := q } := if_pos h

/-- Following a flow past the last line. -/
theorem follow_last {prog : List Line} {done : State → State} (h : prog.length ≤ s.seq.pos) :
    follow prog done (.next s) = done s := if_neg (by omega)

/-- Following a flow past the last line, by a jump. -/
theorem follow_past {prog : List Line} {done : State → State} (h : prog.length < q) :
    follow prog done (.goto q s) = done s := if_neg (by omega)

/-- Following a flow that has ended the command. -/
@[simp] theorem follow_halt (prog : List Line) (done : State → State) (s : State) : follow prog done (.halt s) = s := rfl

/-- The first line, once the checks have passed, when it goes on to the second one. -/
theorem exec_first_next (h : i.opcode.backend = some b) (hr : Ready b s) (hk : limitOf i s = none)
    (hl : (linesOf i { initOf i s with seq.pos := 1 })[0]? = some l)
    (hn : 1 < (linesOf i { initOf i s with seq.pos := 1 }).length)
    (hv : (perform l.prim { initOf i s with seq.pos := 1 }).1 = .ok v)
    (ha : l.after v (perform l.prim { initOf i s with seq.pos := 1 }).2 = .next u) (hu : u.seq.pos = 1) :
    exec i s = .next { u with seq.pos := 2 } := by
  rw [exec_at_start h hr.1 hr.2.1 hk hl, runLine_ok hv, ha, follow, land, hu, if_pos (by omega)]

end

/-! ### Where the lines stand -/

/-- Past the first of two joined lists. -/
theorem getElem?_past {α : Type} {a b : List α} {n k : Nat} (h : n = a.length + k) : (a ++ b)[n]? = b[k]? := by
  subst h; rw [List.getElem?_append_right (by omega)]; congr 1; omega

/-- Inside the first of two joined lists. -/
theorem getElem?_within {α : Type} {a b : List α} {n : Nat} {x : α} (h : a[n]? = some x) : (a ++ b)[n]? = some x := by
  rw [List.getElem?_append_left (List.getElem?_eq_some_iff.mp h).1, h]

theorem window_length (m : Byte) (a c : State → Flow) (body : List Line) :
    (window m a c body).length = windowLines body.length := by simp [window, windowLines]

@[simp] theorem window_first (m : Byte) (a c : State → Flow) (body : List Line) :
    (window m a c body)[0]? = some ⟨.sel true, fun _ s => a s⟩ := by simp [window]

@[simp] theorem window_marker (m : Byte) (a c : State → Flow) (body : List Line) :
    (window m a c body)[1]? = some ⟨.tx m, fun _ s => .next s⟩ := by simp [window]

theorem window_body (m : Byte) (a c : State → Flow) {body : List Line} {k : Nat} {l : Line} (h : body[k]? = some l) :
    (window m a c body)[2 + k]? = some l := by
  unfold window; exact getElem?_within ((getElem?_past (by simp)).trans h)

theorem window_close (m : Byte) (a c : State → Flow) {body : List Line} {k : Nat} (h : k = 2 + body.length) :
    (window m a c body)[k]? = some ⟨.sel false, fun _ s => c s⟩ := by
  unfold window; exact getElem?_past (k := 0) (by simp [h]; omega)

theorem seqWrite_length (c : Config) (f : List Byte) (g : State → Flow) : (seqWrite c f g).length = f.length + 3 := by
  simp [seqWrite, window_length, windowLines]

theorem seqRead_length (c : Config) (n : Nat) (g : State → Flow) : (seqRead c n g).length = n + 3 := by
  simp [seqRead, window_length, windowLines]

theorem seqStatus_length (c : Config) (g : State → Flow) : (seqStatus c g).length = 4 := by
  simp [seqStatus, window_length, windowLines]

theorem seqWait_length (c : Config) (p : Nat) (t : Word) (a : State → State) (e : State → Flow) :
    (seqWait c p t a e).length = waitLines := by simp [seqWait, seqStatus_length, waitLines, windowLines]

/-- A frame byte of the write window. -/
theorem seqWrite_byte (c : Config) (g : State → Flow) {f : List Byte} {k : Nat} {b : Byte} (h : f[k]? = some b) :
    (seqWrite c f g)[2 + k]? = some ⟨.tx b, fun _ s => .next s⟩ := window_body _ _ _ (by simp [h])

/-- The deselect line of the write window. -/
theorem seqWrite_close (c : Config) (g : State → Flow) (f : List Byte) :
    (seqWrite c f g)[f.length + 2]? = some ⟨.sel false, fun _ s => g s⟩ := window_close _ _ _ (by simp; omega)

/-- A received byte of the read window. -/
theorem seqRead_byte (c : Config) (g : State → Flow) {n k : Nat} (h : k < n) :
    (seqRead c n g)[2 + k]? = some ⟨.rx, fun v s => .next { s with locals.rx := s.locals.rx ++ [v] }⟩ :=
  window_body _ _ _ (by simp [h])

/-- The deselect line of the read window. -/
theorem seqRead_close (c : Config) (n : Nat) (g : State → Flow) :
    (seqRead c n g)[n + 2]? = some ⟨.sel false, fun _ s => g s⟩ := window_close _ _ _ (by simp; omega)

@[simp] theorem buildFrame_length (c : Config) (d : Dir) (p : List Byte) :
    (buildFrame c d p).length = p.length + 8 := by simp [buildFrame]

@[simp] theorem outFrame_length (s : State) : (outFrame s).length = s.dataLen + 8 := by
  simp [outFrame, State.dataLen, State.data]

/-- AckEq as a proposition (40 R106). -/
theorem ackEq_iff (c : Config) (bs : List Byte) : ackEq c bs = true ↔ bs.length = 6 ∧ bs = c.ack := by
  unfold ackEq; rw [Bool.and_eq_true, decide_eq_true_iff, beq_iff_eq]

/-! ### The lines of a wait -/

@[simp] theorem seqWait_start (c : Config) (p : Nat) (t : Word) (a : State → State) (e : State → Flow) :
    (seqWait c p t a e)[0]? = some ⟨.internal, fun _ s => .next { a s with seq.elapsed := 0 }⟩ := by simp [seqWait]

@[simp] theorem seqWait_select (c : Config) (p : Nat) (t : Word) (a : State → State) (e : State → Flow) :
    (seqWait c p t a e)[1]? = some ⟨.sel true, fun _ s => .next s⟩ := by simp [seqWait, seqStatus, window]

@[simp] theorem seqWait_marker (c : Config) (p : Nat) (t : Word) (a : State → State) (e : State → Flow) :
    (seqWait c p t a e)[2]? = some ⟨.tx c.link.mkStatus, fun _ s => .next s⟩ := by simp [seqWait, seqStatus, window]

@[simp] theorem seqWait_status (c : Config) (p : Nat) (t : Word) (a : State → State) (e : State → Flow) :
    (seqWait c p t a e)[3]? = some ⟨.rx, fun v s => .next { s with locals.status := v }⟩ := by
  simp [seqWait, seqStatus, window]

@[simp] theorem seqWait_test (c : Config) (p : Nat) (t : Word) (a : State → State) (e : State → Flow) :
    (seqWait c p t a e)[4]? = some ⟨.sel false, fun _ s => waitTest t (p + waitLines) e s⟩ := by
  simp [seqWait, seqStatus, window]

@[simp] theorem seqWait_delay (c : Config) (p : Nat) (t : Word) (a : State → State) (e : State → Flow) :
    (seqWait c p t a e)[5]? = some ⟨.delay (c.pollStepMs * 1000), fun _ s => .goto (p + 1) s⟩ := by
  simp [seqWait, seqStatus, window]

/-- A wait that sees READY leaves the loop. -/
theorem waitTest_ready {t : Word} {exit : Nat} {expired : State → Flow} {s : State}
    (h : s.locals.status = s.cfg.link.ready) : waitTest t exit expired s = .goto exit s := by
  simp [waitTest, isReadyByte, h]

/-- A wait with T = 0 goes on to its delay. -/
theorem waitTest_forever {exit : Nat} {expired : State → Flow} {s : State}
    (h : s.locals.status ≠ s.cfg.link.ready) : waitTest 0 exit expired s = .next s := by
  simp [waitTest, isReadyByte, h]

/-- A wait whose time has run out. -/
theorem waitTest_expired {t : Word} {exit : Nat} {expired : State → Flow} {s : State}
    (h : s.locals.status ≠ s.cfg.link.ready) (ht : t ≠ 0) (he : t.toNat < s.seq.elapsed + s.cfg.pollStepMs) :
    waitTest t exit expired s = expired { s with seq.elapsed := s.seq.elapsed + s.cfg.pollStepMs } := by
  unfold waitTest; rw [if_neg (by simpa [isReadyByte] using h), if_neg ht]; exact if_pos he

/-- A wait with time left counts the step and goes on to its delay. -/
theorem waitTest_counts {t : Word} {exit : Nat} {expired : State → Flow} {s : State}
    (h : s.locals.status ≠ s.cfg.link.ready) (ht : t ≠ 0) (he : s.seq.elapsed + s.cfg.pollStepMs ≤ t.toNat) :
    waitTest t exit expired s = .next { s with seq.elapsed := s.seq.elapsed + s.cfg.pollStepMs } := by
  unfold waitTest; rw [if_neg (by simpa [isReadyByte] using h), if_neg ht]; exact if_neg (Nat.not_lt.mpr he)

/-! ### The programs, as joined subsequences -/

theorem linesOf_writeCommand (s : State) : linesOf .writeCommand s = seqWrite s.cfg (outFrame s) .next := rfl

theorem linesOf_readData (n : Half) (s : State) : linesOf (.readData n) s = seqRead s.cfg n.toNat .next := rfl

theorem linesOf_readAck (s : State) : linesOf .readAck s = seqRead s.cfg 6 .next := rfl

theorem linesOf_isReady (s : State) : linesOf .isReady s = seqStatus s.cfg .next := rfl

theorem linesOf_waitReady (t : Word) (s : State) :
    linesOf (.waitReady t) s = seqWait s.cfg 1 t id fun u => .halt (waitReadyDone false u) := rfl

@[simp] theorem afterWrite_eq (s : State) : afterWrite s = s.dataLen + 12 := by
  simp [afterWrite, windowLines]; omega

theorem length_sendCheckAck (t : Word) (s : State) : (linesOf (.sendCheckAck t) s).length = s.dataLen + 32 := by
  simp [linesOf, sendCheckAckLines, seqWrite_length, seqRead_length, seqWait_length, waitLines, windowLines]

theorem length_exchange (n : Half) (t : Word) (s : State) :
    (linesOf (.exchange n t) s).length = s.dataLen + 35 + n.toNat := by
  simp [linesOf, exchangeLines, seqWrite_length, seqRead_length, seqWait_length, waitLines, windowLines]; omega

/-- A line of SEND_CHECK_ACK's first wait. -/
theorem sendCheckAck_wait1 {t : Word} {s : State} {k : Nat} {l : Line}
    (h : (seqWait s.cfg (afterWrite s) t id (sendCheckNo 1))[k]? = some l) :
    (linesOf (.sendCheckAck t) s)[s.dataLen + 11 + k]? = some l :=
  getElem?_within (getElem?_within ((getElem?_past (by simp [seqWrite_length])).trans h))

/-- A line of SEND_CHECK_ACK's acknowledgement window. -/
theorem sendCheckAck_ack {t : Word} {s : State} {k : Nat} {l : Line}
    (h : (seqRead s.cfg 6 fun u => if ackEq u.cfg u.locals.rx then .next u else sendCheckNo 2 u)[k]? = some l) :
    (linesOf (.sendCheckAck t) s)[s.dataLen + 17 + k]? = some l :=
  getElem?_within ((getElem?_past
    (by simp [seqWrite_length, seqWait_length, waitLines, windowLines])).trans h)

/-- A line of SEND_CHECK_ACK's second wait. -/
theorem sendCheckAck_wait2 {t : Word} {s : State} {k : Nat} {l : Line}
    (h : (seqWait s.cfg (afterWrite s + waitLines + windowLines 6) t id (sendCheckNo 3))[k]? = some l) :
    (linesOf (.sendCheckAck t) s)[s.dataLen + 26 + k]? = some l :=
  (getElem?_past (by simp [seqWrite_length, seqWait_length, seqRead_length, waitLines, windowLines])).trans h

/-- A line of EXCHANGE's first wait. -/
theorem exchange_wait1 {n : Half} {t : Word} {s : State} {k : Nat} {l : Line}
    (h : (seqWait s.cfg (afterWrite s) t (setX .ackWait) (exchangeNo 1))[k]? = some l) :
    (linesOf (.exchange n t) s)[s.dataLen + 11 + k]? = some l :=
  getElem?_within (getElem?_within (getElem?_within ((getElem?_past (by simp [seqWrite_length])).trans h)))

/-- A line of EXCHANGE's acknowledgement window. -/
theorem exchange_ack {n : Half} {t : Word} {s : State} {k : Nat} {l : Line}
    (h : (seqRead s.cfg 6 fun u => if ackEq u.cfg u.locals.rx then .next (setX .ackOk u) else exchangeNo 2 u)[k]? =
      some l) : (linesOf (.exchange n t) s)[s.dataLen + 17 + k]? = some l :=
  getElem?_within (getElem?_within ((getElem?_past
    (by simp [seqWrite_length, seqWait_length, waitLines, windowLines])).trans h))

/-- A line of EXCHANGE's second wait. -/
theorem exchange_wait2 {n : Half} {t : Word} {s : State} {k : Nat} {l : Line}
    (h : (seqWait s.cfg (afterWrite s + waitLines + windowLines 6) t (setX .responseWait) (exchangeNo 3))[k]? =
      some l) : (linesOf (.exchange n t) s)[s.dataLen + 26 + k]? = some l :=
  getElem?_within ((getElem?_past
    (by simp [seqWrite_length, seqWait_length, seqRead_length, waitLines, windowLines])).trans h)

/-- A line of EXCHANGE's response window. -/
theorem exchange_response {n : Half} {t : Word} {s : State} {k : Nat} {l : Line}
    (h : (seqRead s.cfg n.toNat .next)[k]? = some l) : (linesOf (.exchange n t) s)[s.dataLen + 32 + k]? = some l :=
  (getElem?_past (by simp [seqWrite_length, seqWait_length, seqRead_length, waitLines, windowLines])).trans h

/-! ### The conditions and the packed results of the register commands -/

theorem stopBit_iff (c : Config) (w v : Byte) : stopBit c w v = true ↔ v &&& (w ||| c.masks.irqTimer) ≠ 0 := by
  unfold stopBit; exact decide_eq_true_iff

theorem noResponse_iff (c : Config) (e v : Byte) :
    noResponse c e v = true ↔
      e &&& (c.masks.errProtocol ||| c.masks.errBufOvfl) ≠ 0 ∧ v &&& c.masks.irqRx ≠ 0 := by
  unfold noResponse Config.errNoResp; rw [Bool.and_eq_true, decide_eq_true_iff, decide_eq_true_iff]

theorem collided_iff (c : Config) (e : Byte) : collided c e = true ↔ e &&& c.masks.errColl ≠ 0 := by
  unfold collided; exact decide_eq_true_iff

theorem crcReady_iff (c : Config) (d : Byte) : crcReady c d = true ↔ d &&& c.masks.divIrqCrc ≠ 0 := by
  unfold crcReady; exact decide_eq_true_iff

/-- Two bytes packed into 16 bits are their concatenation (43 R177). -/
theorem packBytes_eq (hi lo : Byte) : (zextByte hi <<< 8) ||| zextByte lo = hi ++ lo := by
  unfold zextByte
  apply BitVec.eq_of_toNat_eq
  have h1 := hi.isLt
  have h2 := lo.isLt
  rw [BitVec.toNat_append]
  simp only [BitVec.toNat_or, BitVec.toNat_shiftLeft, BitVec.toNat_setWidth]
  rw [Nat.mod_eq_of_lt (show hi.toNat < 2 ^ 16 by omega), Nat.mod_eq_of_lt (show lo.toNat < 2 ^ 16 by omega),
    Nat.mod_eq_of_lt (by rw [Nat.shiftLeft_eq]; omega)]

/-- A CRC-16 Value read low byte first (20 R55). -/
theorem crcOfBytes_eq (lo hi : Byte) : crcOfBytes lo hi = hi ++ lo := by
  rw [← packBytes_eq, crcOfBytes, BitVec.or_comm]

/-! ### The register commands' programs -/

theorem executeHead_length (cmd : Byte) (s : State) :
    (executeHead cmd s).length = s.dataLen + 6 + (if cmd = s.cfg.cmds.transceive then 2 else 0) := by
  unfold executeHead; split <;> simp [clearBits, setBits, fifoWrites, State.dataLen, State.data]

/-- The lines of EXECUTE_COMMAND before PollIrq do not depend on where it is, nor on the poll's registers. -/
theorem length_executeCommand (cmd : Byte) (s : State) :
    (linesOf (.executeCommand cmd) s).length = (executeHead cmd s).length + 6 + readBackCount s := by
  simp [linesOf, executeLines, pollIrq, readBack]; omega

@[simp] theorem pollIrq_start (c : Config) (p : Nat) :
    (pollIrq c p)[0]? = some ⟨.internal, fun _ s => .next { s with seq.pollI := 0 }⟩ := rfl

@[simp] theorem pollIrq_read (c : Config) (p : Nat) :
    (pollIrq c p)[1]? = some (regRead c c.regs.comIrq (pollIrqTest (p + 3))) := rfl

@[simp] theorem pollIrq_delay (c : Config) (p : Nat) :
    (pollIrq c p)[2]? = some ⟨.delay c.irqPollDelayUs, fun _ s => .goto (p + 1) s⟩ := rfl

@[simp] theorem pollCrc_start (c : Config) (p : Nat) :
    (pollCrc c p)[0]? = some ⟨.internal, fun _ s => .next { s with seq.crcI := 0 }⟩ := rfl

@[simp] theorem pollCrc_read (c : Config) (p : Nat) :
    (pollCrc c p)[1]? = some (regRead c c.regs.divIrq (pollCrcTest (p + 1))) := rfl

@[simp] theorem pollCrc_low (c : Config) (p : Nat) :
    (pollCrc c p)[2]? = some (regRead c c.regs.crcResultL fun v s => .next { s with locals.lo := v }) := rfl

@[simp] theorem pollCrc_high (c : Config) (p : Nat) :
    (pollCrc c p)[3]? = some (regRead c c.regs.crcResultH fun v s =>
      .halt (finish { s with res.rval := crcOfBytes s.locals.lo v })) := rfl

/-- A line of EXECUTE_COMMAND before PollIrq. -/
theorem execute_head {cmd : Byte} {s : State} {k : Nat} {l : Line} (h : (executeHead cmd s)[k]? = some l) :
    (linesOf (.executeCommand cmd) s)[k]? = some l :=
  getElem?_within (getElem?_within (getElem?_within h))

/-- A line of PollIrq. -/
theorem execute_poll {cmd : Byte} {s : State} {k n : Nat} {l : Line}
    (h : (pollIrq s.cfg ((executeHead cmd s).length + 1))[k]? = some l) (hn : n = (executeHead cmd s).length + k) :
    (linesOf (.executeCommand cmd) s)[n]? = some l :=
  getElem?_within (getElem?_within ((getElem?_past hn).trans h))

/-- The line that reads ERROR. -/
theorem execute_error {cmd : Byte} {s : State} {n : Nat} (hn : n = (executeHead cmd s).length + 3) :
    (linesOf (.executeCommand cmd) s)[n]? = some (regRead s.cfg s.cfg.regs.error (checkErrors cmd)) :=
  getElem?_within ((getElem?_past (k := 0) (by simp [pollIrq, hn])).trans rfl)

@[simp] theorem readBack_level (s : State) :
    (readBack s)[0]? = some (regRead s.cfg s.cfg.regs.fifoLevel fun v u =>
      .next { u with scratch.lvl := (v &&& u.cfg.masks.fifoLevelCount).setWidth 7 }) := rfl

@[simp] theorem readBack_control (s : State) :
    (readBack s)[1]? = some (regRead s.cfg s.cfg.regs.control fun v u =>
      .next { u with
        scratch.lb := (v &&& u.cfg.masks.controlRxLastBits).setWidth 3
        res.rbitlen := bitLength u.scratch.lvl ((v &&& u.cfg.masks.controlRxLastBits).setWidth 3) }) := rfl

/-- A line of ReadBack. -/
theorem execute_readBack {cmd : Byte} {s : State} {k n : Nat} {l : Line} (h : (readBack s)[k]? = some l)
    (hn : n = (executeHead cmd s).length + 4 + k) : (linesOf (.executeCommand cmd) s)[n]? = some l :=
  (getElem?_past (by simp [pollIrq, hn])).trans h

/-- A FIFO read of ReadBack. -/
theorem readBack_fifo {s : State} {k : Nat} (h : k < readBackCount s) :
    (readBack s)[2 + k]? =
      some (regRead s.cfg s.cfg.regs.fifoData fun v u => .next { u with res.rdata := u.res.rdata ++ [v] }) :=
  (getElem?_past (k := k) (by simp [Nat.add_comm])).trans (by rw [List.getElem?_replicate, if_pos h])

theorem length_calcCrc (s : State) : (linesOf .calcCrc s).length = (calcCrcHead s).length + 4 := by
  simp [linesOf, calcCrcLines, pollCrc]

/-- A line of PollCrc. -/
theorem calcCrc_poll {s : State} {k n : Nat} {l : Line}
    (h : (pollCrc s.cfg ((calcCrcHead s).length + 1))[k]? = some l) (hn : n = (calcCrcHead s).length + k) :
    (linesOf .calcCrc s)[n]? = some l := (getElem?_past hn).trans h

theorem length_reset (s : State) : (linesOf .reset s).length = 4 + s.cfg.resetProgram.length := by
  simp [linesOf, resetLines, setBits]; omega

/-- A write of RESET_PROGRAM. -/
theorem reset_program {s : State} {k n : Nat} {rv : Byte × Byte} (h : s.cfg.resetProgram[k]? = some rv)
    (hn : n = 4 + k) : (linesOf .reset s)[n]? = some (regWrite s.cfg rv.1 rv.2) :=
  (getElem?_past (k := k) (by simp [setBits, hn])).trans (by rw [List.getElem?_map, h]; rfl)

end Sys2Proof.Machine
end

