-- ==== Sys2Proof/Laws/PerInstr.lean ====
section
/-! SUPPORT. The family TableRow: the W0 of every well-formed instruction lies in its own row of the opcode table (30_encoding.md R72,
R74), its opcode byte being the row's and every must-be-zero bit of the row's format 0. -/

namespace Sys2Proof.Laws.TableRow

/-- W0 of a well-formed instruction has its row's OPC and 0 in the bits its row's format marks 0. -/
def Statement (i : Instr) : Prop :=
  i.WellFormed → opcField (encodeW0 i) = i.opcode.code ∧ encodeW0 i &&& i.opcode.format.zeroBits = 0

/-- The row's test, from the bytes of W0. -/
theorem of_bytes {i : Instr} (h : i.WellFormed → i.fieldC &&& i.opcode.format.zeroBytes.1 = 0 ∧
    i.fieldB &&& i.opcode.format.zeroBytes.2.1 = 0 ∧ i.fieldA &&& i.opcode.format.zeroBytes.2.2 = 0) : Statement i :=
  fun hw => ⟨opcField_packW0 .., (zeroBits_packW0 ..).mpr (h hw)⟩

/-- A direction byte has bits 7 to 1 clear. -/
theorem dir_byte (d : Dir) : (if d = .c2h then 1 else 0 : Byte) &&& 0xFE = 0 := by cases d <;> decide

/-- A register index has bits 7 and 6 clear. -/
theorem reg_byte : ∀ reg : Byte, RegOk reg → reg &&& 0xC0 = 0 := by decide

/-- A device command code has bits 7 to 4 clear. -/
theorem cmd_byte : ∀ cmd : Byte, CmdOk cmd → cmd &&& 0xF0 = 0 := by decide

theorem crc16 : Statement .crc16 :=
  of_bytes fun _ => by simp [Instr.fieldA, Instr.fieldB, Instr.fieldC]

theorem crcAppend : Statement .crcAppend :=
  of_bytes fun _ => by simp [Instr.fieldA, Instr.fieldB, Instr.fieldC]

theorem crcCheck : Statement .crcCheck :=
  of_bytes fun _ => by simp [Instr.fieldA, Instr.fieldB, Instr.fieldC]

theorem frameBuild (dir : Dir) : Statement (.frameBuild dir) :=
  of_bytes fun _ => ⟨BitVec.zero_and, BitVec.zero_and, dir_byte dir⟩

theorem frameParse (dir : Dir) : Statement (.frameParse dir) :=
  of_bytes fun _ => ⟨BitVec.zero_and, BitVec.zero_and, dir_byte dir⟩

theorem ackMatch : Statement .ackMatch :=
  of_bytes fun _ => by simp [Instr.fieldA, Instr.fieldB, Instr.fieldC]

theorem writeCommand : Statement .writeCommand :=
  of_bytes fun _ => by simp [Instr.fieldA, Instr.fieldB, Instr.fieldC]

theorem readData (n : Half) : Statement (.readData n) :=
  of_bytes fun _ => ⟨BitVec.and_zero, BitVec.and_zero, BitVec.zero_and⟩

theorem isReady : Statement .isReady :=
  of_bytes fun _ => by simp [Instr.fieldA, Instr.fieldB, Instr.fieldC]

theorem waitReady (t : Word) : Statement (.waitReady t) :=
  of_bytes fun _ => by simp [Instr.fieldA, Instr.fieldB, Instr.fieldC]

theorem readAck : Statement .readAck :=
  of_bytes fun _ => by simp [Instr.fieldA, Instr.fieldB, Instr.fieldC]

theorem sendCheckAck (t : Word) : Statement (.sendCheckAck t) :=
  of_bytes fun _ => by simp [Instr.fieldA, Instr.fieldB, Instr.fieldC]

theorem exchange (n : Half) (t : Word) : Statement (.exchange n t) :=
  of_bytes fun _ => ⟨BitVec.and_zero, BitVec.and_zero, BitVec.zero_and⟩

theorem readReg (reg : Byte) : Statement (.readReg reg) :=
  of_bytes fun h => ⟨BitVec.zero_and, BitVec.zero_and, reg_byte reg (of_decide_eq_true h)⟩

theorem writeReg (reg : Byte) (val : Byte) : Statement (.writeReg reg val) :=
  of_bytes fun h => ⟨BitVec.zero_and, BitVec.and_zero, reg_byte reg (of_decide_eq_true h)⟩

theorem setBitmask (reg : Byte) (mask : Byte) : Statement (.setBitmask reg mask) :=
  of_bytes fun h => ⟨BitVec.zero_and, BitVec.and_zero, reg_byte reg (of_decide_eq_true h)⟩

theorem clearBitmask (reg : Byte) (mask : Byte) : Statement (.clearBitmask reg mask) :=
  of_bytes fun h => ⟨BitVec.zero_and, BitVec.and_zero, reg_byte reg (of_decide_eq_true h)⟩

theorem executeCommand (cmd : Byte) : Statement (.executeCommand cmd) :=
  of_bytes fun h => ⟨BitVec.zero_and, BitVec.zero_and, cmd_byte cmd (of_decide_eq_true h)⟩

theorem calcCrc : Statement .calcCrc :=
  of_bytes fun _ => by simp [Instr.fieldA, Instr.fieldB, Instr.fieldC]

theorem reset : Statement .reset :=
  of_bytes fun _ => by simp [Instr.fieldA, Instr.fieldB, Instr.fieldC]

theorem antennaOn : Statement .antennaOn :=
  of_bytes fun _ => by simp [Instr.fieldA, Instr.fieldB, Instr.fieldC]

theorem antennaOff : Statement .antennaOff :=
  of_bytes fun _ => by simp [Instr.fieldA, Instr.fieldB, Instr.fieldC]

end Sys2Proof.Laws.TableRow
end

