-- ==== Sys2Proof/Laws/Windows.lean ====
section
/-! SUPPORT. A line that does not end its command, said once as `Continues`, and from it the lines of the subsequences of
41_link_a.md R120 and R125 (write window, wait, read window) wherever they stand in a command. -/

namespace Sys2Proof.Machine

/-- The events of a primitive do not depend on the answer where the environment gives none. -/
theorem perform_trace_answer (p : Prim) (s : State) : (perform p s).2.trace = s.trace ++ p.events (perform p s).1 := by
  rw [perform_trace]; cases p <;> rfl

theorem perform_pos (p : Prim) (s : State) : (perform p s).2.seq.pos = s.seq.pos := by rw [perform_seq]

theorem perform_elapsed (p : Prim) (s : State) : (perform p s).2.seq.elapsed = s.seq.elapsed := by rw [perform_seq]

/-- What a line's continuation may not touch: the trace, BUSY, the results, the lines, the ordinal and the answers to come. -/
def SameRun (s u : State) : Prop :=
  u.trace = s.trace ∧ u.busy = s.busy ∧ u.res = s.res ∧ u.pins = s.pins ∧ u.locals.ordinal = s.locals.ordinal ∧
  u.env = s.env

theorem SameRun.refl (s : State) : SameRun s s := ⟨rfl, rfl, rfl, rfl, rfl, rfl⟩

section
variable {i : Instr} {b : Backend} {s s' u t : State} {l : Line} {p q : Nat} {v : Byte} {w : Word}

/-- A step that performs a primitive and then touches none of what `SameRun` names is a `Continues`. -/
theorem continues_of_perform {pr : Prim} (hx : exec i s = .next t) (h0 : SameRun s s')
    (hv : (perform pr s').1 = .ok v) (hu : SameRun (perform pr s').2 t) (hq : t.seq.pos = q) :
    Continues i s (pr.events (.ok v)) q t := by
  obtain ⟨h1, h2, h3, h4, h5, h6⟩ := hu
  obtain ⟨g1, g2, g3, g4, g5, g6⟩ := h0
  have hn : pr.events (nextAnswer s') = pr.events (.ok v) := by
    rw [← hv]; exact List.append_cancel_left ((perform_trace pr s').symm.trans (perform_trace_answer pr s'))
  refine ⟨hx, ?_, hq, ?_, ?_, ?_, ?_, ?_⟩
  · rw [h1, perform_trace, hn, g1]
  · rw [h2, perform_busy, g2]
  · rw [h3, perform_res, g3]
  · rw [h4, perform_pins_of_ok hv, hn, g4]
  · rw [h5, perform_ordinal, transactions_events, g5]
  · rw [h6, perform_env, transactions_events, g6]; split <;> simp

/-- A line that goes on to the next one. -/
theorem continues_next (h : i.opcode.backend = some b) (hp : AtLine p s) (hl : (linesOf i s)[p - 1]? = some l)
    (hn : p < (linesOf i s).length) (hv : (perform l.prim s).1 = .ok v)
    (ha : l.after v (perform l.prim s).2 = .next u) (hu : SameRun (perform l.prim s).2 u)
    (hs : u.seq.pos = s.seq.pos) : Continues i s (l.prim.events (.ok v)) (p + 1) { u with seq.pos := p + 1 } :=
  continues_of_perform (exec_line_next h hp hl hn hv ha hs) (SameRun.refl s) hv hu rfl

/-- A line that goes to another one. -/
theorem continues_goto (h : i.opcode.backend = some b) (hp : AtLine p s) (hl : (linesOf i s)[p - 1]? = some l)
    (hn : q ≤ (linesOf i s).length) (hv : (perform l.prim s).1 = .ok v)
    (ha : l.after v (perform l.prim s).2 = .goto q u) (hu : SameRun (perform l.prim s).2 u) :
    Continues i s (l.prim.events (.ok v)) q { u with seq.pos := q } :=
  continues_of_perform (exec_line_goto h hp hl hn hv ha) (SameRun.refl s) hv hu rfl

/-- No rule's initial assignments touch what `SameRun` names. -/
theorem sameRun_init (i : Instr) (s : State) : SameRun s { initOf i s with seq.pos := 1 } := by
  cases i <;> exact ⟨rfl, rfl, rfl, rfl, rfl, rfl⟩

/-- The first line, when it goes on to the second one. -/
theorem continues_first (h : i.opcode.backend = some b) (hr : Ready b s) (hk : limitOf i s = none)
    (hl : (linesOf i { initOf i s with seq.pos := 1 })[0]? = some l)
    (hn : 1 < (linesOf i { initOf i s with seq.pos := 1 }).length)
    (hv : (perform l.prim { initOf i s with seq.pos := 1 }).1 = .ok v)
    (ha : l.after v (perform l.prim { initOf i s with seq.pos := 1 }).2 = .next u)
    (hu : SameRun (perform l.prim { initOf i s with seq.pos := 1 }).2 u) (hs : u.seq.pos = 1) :
    Continues i s (l.prim.events (.ok v)) 2 { u with seq.pos := 2 } :=
  continues_of_perform (exec_first_next h hr hk hl hn hv ha hs) (sameRun_init i s) hv hu rfl

/-! ### The subsequences, wherever they stand -/

/-- The lines of a read window with its select line at `pos`. -/
theorem readWindowLines_of {pos : State → Nat} {n : Nat} {close : State → State → Flow} (h : i.opcode.backend = some b)
    (h1 : ∀ s, 1 ≤ pos s) (hn : ∀ s, pos s + n + 2 ≤ (linesOf i s).length)
    (hl : ∀ (s : State) (k : Nat) (l : Line), (seqRead s.cfg n (close s))[k]? = some l →
      (linesOf i s)[pos s - 1 + k]? = some l) : ReadWindowLines i pos n := by
  rintro s v rest p rfl
  have hn' := hn s
  have hp1 := h1 s
  refine ⟨fun hp => ?_, fun hp he => ?_, fun k hk hp he => ?_⟩
  · have e := continues_next (v := 0) h hp (hl s 0 _ (window_first ..)) (by omega) rfl rfl
      ⟨rfl, rfl, rfl, rfl, rfl, rfl⟩ rfl
    exact ⟨_, e, rfl⟩
  · have e := continues_next (v := v) h hp ((congrArg _ (by omega)).trans (hl s 1 _ (window_marker ..))) (by omega)
      (perform_answer_of he rfl) rfl (SameRun.refl _) (perform_pos ..)
    exact ⟨_, e, perform_rx ..⟩
  · have e := continues_next (v := v) h hp ((congrArg _ (by omega)).trans (hl s _ _ (seqRead_byte s.cfg (close s) hk)))
      (by omega) (perform_answer_of he rfl) rfl ⟨rfl, rfl, rfl, rfl, rfl, rfl⟩ (perform_pos ..)
    exact ⟨_, (show pos s + 3 + k = pos s + 2 + k + 1 by omega) ▸ e, congrArg (· ++ [v]) (perform_rx ..)⟩

/-- The lines of a write window that stands first in a rule. -/
theorem writeWindowLines_of {ok : State → Prop} {close : State → State → Flow} (h : i.opcode.backend = some .ctrlA)
    (hk : ∀ s, ok s → limitOf i s = none) (hn : ∀ s, s.dataLen + 11 ≤ (linesOf i s).length)
    (hl : ∀ (s : State) (k : Nat) (l : Line), (seqWrite s.cfg (outFrame s) (close s))[k]? = some l →
      (linesOf i s)[k]? = some l) : WriteWindowLines i ok := by
  intro s v rest
  have hn' := hn s
  refine ⟨fun hr hok => ?_, fun hp he => ?_, fun k b hp hf he => ?_⟩
  · have hn1 := hn { initOf i s with seq.pos := 1 }
    have e := continues_first (v := 0) h hr (hk s hok) (hl _ 0 _ (window_first ..)) (by omega) rfl rfl
      ⟨rfl, rfl, rfl, rfl, rfl, rfl⟩ rfl
    exact ⟨_, e⟩
  · have e := continues_next (v := v) h hp (hl s 1 _ (window_marker ..)) (by omega) (perform_answer_of he rfl) rfl
      (SameRun.refl _) (perform_pos ..)
    exact ⟨_, e⟩
  · have hb : k < s.dataLen + 8 := outFrame_length s ▸ (List.getElem?_eq_some_iff.mp hf).1
    have e := continues_next (v := v) h hp ((congrArg _ (by omega)).trans (hl s _ _ (seqWrite_byte _ _ hf))) (by omega)
      (perform_answer_of he rfl) rfl (SameRun.refl _) (perform_pos ..)
    exact ⟨_, (show 4 + k = 3 + k + 1 by omega) ▸ e⟩

/-- The lines of a wait with its first line at `pos`. -/
theorem waitLines_of {pos : State → Nat} {start : State → State} {expired : State → Flow}
    (h : i.opcode.backend = some b) (h1 : ∀ s, 1 ≤ pos s) (hn : ∀ s, pos s + 5 ≤ (linesOf i s).length)
    (hs : ∀ s, SameRun s (start s) ∧ (start s).seq = s.seq)
    (hl : ∀ (s : State) (k : Nat) (l : Line), (seqWait s.cfg (pos s) w start expired)[k]? = some l →
      (linesOf i s)[pos s - 1 + k]? = some l) : WaitLines i w pos := by
  rintro s v rest p rfl
  have hn' := hn s
  have hp1 := h1 s
  have at_ {k : Nat} {l : Line} (g : (seqWait s.cfg (pos s) w start expired)[k]? = some l) :
      (linesOf i s)[pos s + k - 1]? = some l := (congrArg _ (by omega)).trans (hl s k l g)
  refine ⟨fun hp => ?_, fun hp => ?_, fun hp he => ?_, fun hp he => ?_, fun hp hr hw => ?_, fun hp hr hw hx => ?_,
    fun hp => ?_⟩
  · obtain ⟨⟨g1, g2, g3, g4, g5, g6⟩, g7⟩ := hs s
    have e := continues_next (v := 0) h hp (hl s 0 _ (seqWait_start ..)) (by omega) rfl rfl ⟨g1, g2, g3, g4, g5, g6⟩
      (show (start s).seq.pos = s.seq.pos by rw [g7])
    exact ⟨_, e, rfl⟩
  · have e := continues_next (v := 0) h hp (at_ (seqWait_select ..)) (by omega) rfl rfl (SameRun.refl _) rfl
    exact ⟨_, e, rfl⟩
  · have e := continues_next (v := v) h hp (at_ (seqWait_marker ..)) (by omega) (perform_answer_of he rfl) rfl
      (SameRun.refl _) (perform_pos ..)
    exact ⟨_, e, perform_elapsed ..⟩
  · have e := continues_next (v := v) h hp (at_ (seqWait_status ..)) (by omega) (perform_answer_of he rfl) rfl
      ⟨rfl, rfl, rfl, rfl, rfl, rfl⟩ (perform_pos ..)
    exact ⟨_, e, rfl, perform_elapsed .rx s⟩
  · subst hw
    have e := continues_next (v := 0) h hp (at_ (seqWait_test ..)) (by omega) rfl
      (waitTest_forever (s := driveSel false s) hr) (SameRun.refl _) rfl
    exact ⟨_, e, rfl⟩
  · have e := continues_next (v := 0) h hp (at_ (seqWait_test ..)) (by omega) rfl
      (waitTest_counts (s := driveSel false s) hr hw hx) ⟨rfl, rfl, rfl, rfl, rfl, rfl⟩ rfl
    exact ⟨_, e, rfl⟩
  · have e := continues_goto (v := 0) (q := pos s + 1) h hp (at_ (seqWait_delay ..)) (by omega) rfl rfl (SameRun.refl _)
    exact ⟨_, e, rfl⟩

end

/-! ### Where SEND_CHECK_ACK's and EXCHANGE's write windows stand -/

theorem sendCheckAck_write {t : Word} {s : State} {k : Nat} {l : Line}
    (h : (seqWrite s.cfg (outFrame s) .next)[k]? = some l) : (linesOf (.sendCheckAck t) s)[k]? = some l :=
  getElem?_within (getElem?_within (getElem?_within h))

theorem exchange_write {n : Half} {t : Word} {s : State} {k : Nat} {l : Line}
    (h : (seqWrite s.cfg (outFrame s) fun u => .next (setX .commandSent u))[k]? = some l) :
    (linesOf (.exchange n t) s)[k]? = some l :=
  getElem?_within (getElem?_within (getElem?_within (getElem?_within h)))

end Sys2Proof.Machine
end

