-- ==== Sys2Proof/Laws/Writes.lean ====
section
/-! SUPPORT. What the continuation of a line can do, said once for every line of every command: it writes results, XSTATE, counters,
scratch registers and locals, and then goes on, or ends the command by finish or raise. From it, how a relation passes from before
exec to after it. -/

namespace Sys2Proof.Machine

/-- What a line's continuation may write before it ends: the results, XSTATE, the counters, the scratch registers and the pseudocode's
locals but for the ordinal. All else is as before. -/
def Writes (s u : State) : Prop :=
  u = { s with
    res := u.res, xstate := u.xstate, scratch := u.scratch
    seq := { s.seq with elapsed := u.seq.elapsed, pollI := u.seq.pollI, crcI := u.seq.crcI }
    locals := { u.locals with ordinal := s.locals.ordinal } }

theorem Writes.refl (s : State) : Writes s s := rfl

/-- How a continuation ends once it has written: it goes on, or it ends the command by `finish` or `raise`. -/
inductive Ends (u : State) : Flow → Prop where
  | next : Ends u (.next u)
  | goto (p : Nat) : Ends u (.goto p u)
  | finish : Ends u (.halt (finish u))
  | raise (st : Status) (info : Option Half) : Ends u (.halt (raise st info u))

theorem Ends.tame {s u : State} {f : Flow} (e : Ends u f) (w : Writes s u) : ∃ u, Writes s u ∧ Ends u f := ⟨u, w, e⟩

/-- A continuation that writes and then ends. -/
def Tame (f : State → Flow) : Prop := ∀ s, ∃ u, Writes s u ∧ Ends u (f s)

/-! ### The continuations the programs are built from -/

theorem Tame.next {g : State → State} (h : ∀ s, Writes s (g s)) : Tame fun s => .next (g s) := fun s => ⟨_, h s, .next⟩

theorem Tame.ite {c : State → Prop} [∀ s, Decidable (c s)] {f g : State → Flow} (hf : Tame f) (hg : Tame g) :
    Tame fun s => if c s then f s else g s := fun s => by
  dsimp only; split
  · exact hf s
  · exact hg s

theorem Tame.window {m : Byte} {a c : State → Flow} {body : List Line} (ha : Tame a) (hc : Tame c)
    (hb : ∀ l ∈ body, ∀ v, Tame (l.after v)) : ∀ l ∈ window m a c body, ∀ v, Tame (l.after v) := by
  intro l hl v
  simp only [Machine.window, List.mem_append, List.mem_cons, List.not_mem_nil, or_false] at hl
  obtain ((rfl | rfl) | hl) | rfl := hl
  · exact ha
  · exact .next .refl
  · exact hb l hl v
  · exact hc

theorem Tame.seqWrite {c : Config} {f : List Byte} {g : State → Flow} (hg : Tame g) :
    ∀ l ∈ seqWrite c f g, ∀ v, Tame (l.after v) :=
  .window (.next .refl) hg fun l hl v => by
    obtain ⟨b, _, rfl⟩ := List.mem_map.mp hl; exact .next .refl

theorem Tame.seqRead {c : Config} {n : Nat} {g : State → Flow} (hg : Tame g) :
    ∀ l ∈ seqRead c n g, ∀ v, Tame (l.after v) :=
  .window (.next fun _ => rfl) hg fun l hl v => by
    rw [List.eq_of_mem_replicate hl]; exact .next fun _ => rfl

theorem Tame.seqStatus {c : Config} {g : State → Flow} (hg : Tame g) : ∀ l ∈ seqStatus c g, ∀ v, Tame (l.after v) :=
  .window (.next .refl) hg fun l hl v => by
    rw [List.mem_singleton.mp hl]; exact .next fun _ => rfl

theorem Writes.trans {s u w : State} (h : Writes s u) (g : Writes u w) : Writes s w := by
  unfold Writes at *; rw [g, h]

theorem Tame.waitTest {t : Word} {p : Nat} {e : State → Flow} (he : Tame e) : Tame (waitTest t p e) := fun s => by
  unfold Machine.waitTest; split
  · exact ⟨s, rfl, .goto _⟩
  · split
    · exact ⟨s, rfl, .next⟩
    · dsimp only; split
      · obtain ⟨u, h, g⟩ := he { s with seq.elapsed := s.seq.elapsed + s.cfg.pollStepMs }
        exact ⟨u, Writes.trans (u := { s with seq.elapsed := s.seq.elapsed + s.cfg.pollStepMs }) rfl h, g⟩
      · exact ⟨{ s with seq.elapsed := s.seq.elapsed + s.cfg.pollStepMs }, rfl, .next⟩

theorem Tame.seqWait {c : Config} {p : Nat} {t : Word} {a : State → State} {e : State → Flow}
    (ha : ∀ s, Writes s (a s)) (he : Tame e) : ∀ l ∈ seqWait c p t a e, ∀ v, Tame (l.after v) := by
  intro l hl v
  simp only [Machine.seqWait, List.mem_append, List.mem_cons, List.not_mem_nil, or_false] at hl
  obtain (rfl | hl) | rfl := hl
  · exact .next fun s => (ha s).trans rfl
  · exact Tame.seqStatus (.waitTest he) l hl v
  · exact fun s => ⟨s, rfl, .goto _⟩

/-- A joined program is tame when its parts are. -/
theorem Tame.append {a b : List Line} (ha : ∀ l ∈ a, ∀ v, Tame (l.after v)) (hb : ∀ l ∈ b, ∀ v, Tame (l.after v)) :
    ∀ l ∈ a ++ b, ∀ v, Tame (l.after v) := fun l hl => (List.mem_append.mp hl).elim (ha l) (hb l)

theorem Tame.nil : ∀ l ∈ ([] : List Line), ∀ v, Tame (l.after v) := nofun

theorem Tame.cons {a : Line} {b : List Line} (ha : ∀ v, Tame (a.after v)) (hb : ∀ l ∈ b, ∀ v, Tame (l.after v)) :
    ∀ l ∈ a :: b, ∀ v, Tame (l.after v) := fun l hl => (List.mem_cons.mp hl).elim (fun e => e ▸ ha) (hb l)

theorem Tame.write {c : Config} {r x : Byte} : ∀ v, Tame ((regWrite c r x).after v) := fun _ => .next .refl
theorem Tame.vtmp {c : Config} {r : Byte} : ∀ v, Tame ((regRead c r setVtmp).after v) := fun _ => .next fun _ => rfl
theorem Tame.setBits {s : State} {r m : Byte} : ∀ l ∈ setBits s r m, ∀ v, Tame (l.after v) :=
  .cons .vtmp (.cons .write .nil)
theorem Tame.clearBits {s : State} {r m : Byte} : ∀ l ∈ clearBits s r m, ∀ v, Tame (l.after v) :=
  .cons .vtmp (.cons .write .nil)
theorem Tame.fifoWrites {s : State} : ∀ l ∈ fifoWrites s, ∀ v, Tame (l.after v) := fun l hl v => by
  obtain ⟨b, _, rfl⟩ := List.mem_map.mp hl; exact .write v

theorem Tame.executeHead {cmd : Byte} {s : State} : ∀ l ∈ executeHead cmd s, ∀ v, Tame (l.after v) :=
  .append (.append (.append (.append (.append (.cons .write .nil) .clearBits) .setBits) .fifoWrites)
    (.cons .write .nil)) (by split; exacts [.setBits, .nil])

theorem Tame.pollIrqTest {p : Nat} {v : Byte} : Tame (pollIrqTest p v) := fun s => by
  unfold Machine.pollIrqTest; dsimp only; split
  · exact Ends.tame (.goto _) rfl
  · split
    · exact Ends.tame (.raise ..) rfl
    · exact Ends.tame .next rfl

theorem Tame.checkErrors {cmd v : Byte} : Tame (checkErrors cmd v) := fun s => by
  unfold Machine.checkErrors; dsimp only; split
  · exact Ends.tame (.raise ..) rfl
  · split
    · exact Ends.tame (.raise ..) rfl
    · split
      · exact Ends.tame .next rfl
      · exact Ends.tame .finish rfl

theorem Tame.pollCrcTest {p : Nat} {v : Byte} : Tame (pollCrcTest p v) := fun s => by
  unfold Machine.pollCrcTest; dsimp only; split
  · exact Ends.tame .next rfl
  · split
    · exact Ends.tame .next rfl
    · exact Ends.tame (.goto _) rfl

/-- Every line of every command writes and then ends. -/
theorem tame_lines (i : Instr) (s : State) : ∀ l ∈ linesOf i s, ∀ v, Tame (l.after v) := by
  cases i with
  | writeCommand => exact .seqWrite (.next .refl)
  | readData n => exact .seqRead (.next .refl)
  | isReady => exact .seqStatus (.next .refl)
  | waitReady t => exact .seqWait .refl fun _ => Ends.tame .finish rfl
  | readAck => exact .seqRead (.next .refl)
  | sendCheckAck t =>
    exact .append (.append (.append (.seqWrite (.next .refl)) (.seqWait .refl fun _ => Ends.tame .finish rfl))
      (.seqRead (.ite (.next .refl) fun _ => Ends.tame .finish rfl))) (.seqWait .refl fun _ => Ends.tame .finish rfl)
  | exchange n t =>
    exact .append (.append (.append (.append (.seqWrite (.next fun _ => rfl))
      (.seqWait (fun _ => rfl) fun _ => Ends.tame (.raise ..) rfl))
      (.seqRead (.ite (.next fun _ => rfl) fun _ => Ends.tame (.raise ..) rfl)))
      (.seqWait (fun _ => rfl) fun _ => Ends.tame (.raise ..) rfl)) (.seqRead (.next .refl))
  | readReg r => exact .cons (fun _ _ => Ends.tame .finish rfl) .nil
  | writeReg r x => exact .cons .write .nil
  | setBitmask r m => exact .setBits
  | clearBitmask r m => exact .clearBits
  | executeCommand cmd =>
    refine .append (.append (.append .executeHead ?_) (.cons (fun _ => .checkErrors) .nil)) ?_
    · exact .cons (fun _ => .next fun _ => rfl) (.cons (fun _ => .pollIrqTest) (.cons (fun _ s => ⟨s, rfl, .goto _⟩) .nil))
    · exact .append (.cons (fun _ => .next fun _ => rfl) (.cons (fun _ => .next fun _ => rfl) .nil)) fun l hl v => by
        rw [List.eq_of_mem_replicate hl]; exact .next fun _ => rfl
  | calcCrc =>
    exact .append (.append (.append (.append .clearBits .setBits) .fifoWrites) (.cons .write .nil))
      (.cons (fun _ => .next fun _ => rfl) (.cons (fun _ => .pollCrcTest) (.cons (fun _ => .next fun _ => rfl)
        (.cons (fun _ _ => Ends.tame .finish rfl) .nil))))
  | reset =>
    exact .append (.append (.cons .write (.cons (fun _ => .next .refl) .nil)) .setBits) fun l hl v => by
      obtain ⟨b, _, rfl⟩ := List.mem_map.mp hl; exact .write v
  | antennaOn => exact .setBits
  | antennaOff => exact .clearBits
  | _ => exact .nil

/-! ### A command's step, through its parts -/

theorem writes_initOf (i : Instr) (s : State) : Writes s (initOf i s) := by cases i <;> rfl

theorem writes_failOf (i : Instr) (s : State) : Writes s (failOf i s) := by cases i <;> rfl

/-- Every rule's end writes and then ends the command. -/
theorem doneOf_ends (i : Instr) (s : State) : ∃ u, Writes s u ∧ Ends u (.halt (doneOf i s)) := by
  cases i with
  | exchange n t =>
    show ∃ u, Writes s u ∧ Ends u (.halt (exchangeParse s))
    unfold exchangeParse; split
    · exact Ends.tame .finish rfl
    · exact Ends.tame (.raise ..) rfl
  | _ => exact Ends.tame .finish rfl

/-- A reflexive and transitive relation that a primitive, the writes of a continuation, a move of SEQ_POS, and the two ends of a
command respect holds from before exec to after it, for every transport command. -/
theorem exec_rel_of_writes {R : State → State → Prop} {i : Instr} {b : Backend} (h : i.opcode.backend = some b)
    (trans : ∀ x y z, R x y → R y z → R x z) (hperf : ∀ s, ∀ l ∈ linesOf i s, ∀ u, R u (perform l.prim u).2)
    (hwrites : ∀ s u, Writes s u → R s u) (hpos : ∀ p s, R s { s with seq.pos := p })
    (hfinish : ∀ s, R s (finish s)) (hraise : ∀ st info s, R s (raise st info s))
    {s t : State} (ht : exec i s = .next t) : R s t := by
  have hends : ∀ {u f}, Ends u f → R u f.state := by
    rintro u _ (_ | _ | _ | _)
    · exact hwrites _ _ (.refl u)
    · exact hwrites _ _ (.refl u)
    · exact hfinish u
    · exact hraise ..
  refine exec_rel h trans hperf hraise hpos (fun s => hwrites _ _ (writes_initOf i s))
    (fun s => hwrites _ _ (writes_failOf i s)) (fun s => ?_) (fun s l hl v u => ?_) ht
  · obtain ⟨u, w, e⟩ := doneOf_ends i s
    exact trans _ _ _ (hwrites _ _ w) (hends e)
  · obtain ⟨w, hw, e⟩ := tame_lines i s l hl v u
    exact trans _ _ _ (hwrites _ _ hw) (hends e)

end Sys2Proof.Machine
end

