-- ==== Sys2Proof/Tests/Slice0.lean ====
section
/-! SUPPORT. The model's own tests. Expected results come from the spec: the encoding table of 30_encoding.md R72 to R79 and the
vectors of 95_test_vectors.md (named in each docstring). After them, a witness for the hypotheses of each statement. -/

namespace Sys2Proof.Tests

open Sys2Proof Sys2Proof.Machine

/-! ### Small states -/

/-- A fresh instance of a backend. -/
def idle (b : Backend) : State := State.initial (Config.standard b)

/-- The host has loaded `d`, written W1 and W0, and the environment's next answers are `env`. -/
def begun (b : Backend) (w0 w1 : Word) (d : List Byte) (env : List Answer) : State :=
  { startCommand w0 { idle b with w1 := w1, ibuf := d, ilen := d.length } with env := env }

/-- The same, at line `p` of the command's rule. -/
def lineAt (p : Nat) (s : State) : State := { s with seq.pos := p }

/-- The state `exec` answers. -/
def after (i : Instr) (s : State) : Option State :=
  match exec i s with
  | .next t => some t
  | .fault _ => none
  | .refused _ => none

/-- STATUS / RBOOL / RVAL of the state `exec` answers, as 95_test_vectors.md writes results. -/
def result (i : Instr) (s : State) : Option (Status × Bool × Half) :=
  (after i s).map fun t => (t.res.status, t.res.rbool, t.res.rval)

/-- RDATA and RLEN of the state `exec` answers. -/
def output (i : Instr) (s : State) : Option (List Byte × Nat) := (after i s).map fun t => (t.res.rdata, t.res.rlen)

/-- The events one step of `exec` adds to an empty trace. -/
def events (i : Instr) (s : State) : Option (List Event) := (after i s).map fun t => t.trace

/-- The response frame B0 of 95_test_vectors.md 2.3. -/
def frameB0 : List Byte := [0x00, 0x00, 0xFF, 0x06, 0xFA, 0xD5, 0x03, 0x32, 0x01, 0x06, 0x07, 0xE8, 0x00]

/-- ACK (R81). -/
def ackBytes : List Byte := [0x00, 0x00, 0xFF, 0x00, 0xFF, 0x00]

/-! ### WellFormed: each check refuses an ill-formed term -/

theorem test_wf_readReg : ¬(Instr.readReg 64).WellFormed ∧ (Instr.readReg 63).WellFormed := by decide
theorem test_wf_writeReg : ¬(Instr.writeReg 64 0).WellFormed ∧ (Instr.writeReg 63 255).WellFormed := by decide
theorem test_wf_setBitmask : ¬(Instr.setBitmask 64 0).WellFormed ∧ (Instr.setBitmask 63 255).WellFormed := by decide
theorem test_wf_clearBitmask : ¬(Instr.clearBitmask 64 0).WellFormed ∧ (Instr.clearBitmask 63 255).WellFormed := by
  decide
theorem test_wf_executeCommand : ¬(Instr.executeCommand 16).WellFormed ∧ (Instr.executeCommand 15).WellFormed := by
  decide

/-! ### Decoding: words written out from R70, R72 and R74 (FC FB FA OPC) -/

theorem test_decode_crc16 : decodeTableWord 32 0x00000010 = some .crc16 := by decide
theorem test_decode_crcAppend : decodeTableWord 32 0x00000011 = some .crcAppend := by decide
theorem test_decode_crcCheck : decodeTableWord 32 0x00000012 = some .crcCheck := by decide
theorem test_decode_frameBuild :
    decodeTableWord 32 0x00000020 = some (.frameBuild .h2c) ∧ decodeTableWord 32 0x00000120 = some (.frameBuild .c2h) := by
  decide
theorem test_decode_frameParse :
    decodeTableWord 32 0x00000021 = some (.frameParse .h2c) ∧ decodeTableWord 32 0x00000121 = some (.frameParse .c2h) := by
  decide
theorem test_decode_ackMatch : decodeTableWord 32 0x00000022 = some .ackMatch := by decide
theorem test_decode_writeCommand : decodeTableWord 32 0x00000030 = some .writeCommand := by decide
/-- A15, A17: n = W0[31:16]. -/
theorem test_decode_readData :
    decodeTableWord 32 0x000D0031 = some (.readData 13) ∧ decodeTableWord 32 0x01070031 = some (.readData 263) := by
  decide
theorem test_decode_isReady : decodeTableWord 32 0x00000032 = some .isReady := by decide
/-- A7: T = W1. -/
theorem test_decode_waitReady :
    decodeTableWord 64 0x0000001900000033 = some (.waitReady 25) ∧
    decodeTableWord 64 0xFFFFFFFF00000033 = some (.waitReady 0xFFFFFFFF) := by decide
theorem test_decode_readAck : decodeTableWord 32 0x00000034 = some .readAck := by decide
theorem test_decode_sendCheckAck : decodeTableWord 64 0x000003E800000035 = some (.sendCheckAck 1000) := by decide
theorem test_decode_exchange : decodeTableWord 64 0x000003E8000D0036 = some (.exchange 13 1000) := by decide
/-- R1, R2: reg = W0[13:8]. -/
theorem test_decode_readReg :
    decodeTableWord 32 0x00000440 = some (.readReg 4) ∧ decodeTableWord 32 0x00003F40 = some (.readReg 63) := by decide
/-- R3, D6: val = W0[23:16]. -/
theorem test_decode_writeReg :
    decodeTableWord 32 0x008D2A41 = some (.writeReg 0x2A 0x8D) ∧ decodeTableWord 32 0x00C00041 = some (.writeReg 0 0xC0) := by
  decide
theorem test_decode_setBitmask : decodeTableWord 32 0x00800A42 = some (.setBitmask 0x0A 0x80) := by decide
theorem test_decode_clearBitmask : decodeTableWord 32 0x00FF0643 = some (.clearBitmask 0x06 0xFF) := by decide
/-- X1, X12: cmd = W0[11:8]. -/
theorem test_decode_executeCommand :
    decodeTableWord 32 0x00000C44 = some (.executeCommand 0xC) ∧
    decodeTableWord 32 0x00000E44 = some (.executeCommand 0xE) := by decide
theorem test_decode_calcCrc : decodeTableWord 32 0x00000045 = some .calcCrc := by decide
theorem test_decode_reset : decodeTableWord 32 0x00000046 = some .reset := by decide
theorem test_decode_antennaOn : decodeTableWord 32 0x00000047 = some .antennaOn := by decide
theorem test_decode_antennaOff : decodeTableWord 32 0x00000048 = some .antennaOff := by decide

/-- D1, D2, D3: unassigned opcodes, rejected by name. -/
theorem test_decode_unassigned :
    decode [0x00000000] = .error (.unassignedOpcode 0x00) ∧ decode [0x00000049] = .error (.unassignedOpcode 0x49) ∧
    decode [0x000000FF] = .error (.unassignedOpcode 0xFF) := ⟨rfl, rfl, rfl⟩

/-- D4, D5, D7: a must-be-zero bit that is 1. -/
theorem test_decode_mustBeZero :
    decode [0x01000010] = .error (.mustBeZero 0x01000010) ∧ decode [0x0000C041] = .error (.mustBeZero 0x0000C041) ∧
    decode [0x00000220] = .error (.mustBeZero 0x00000220) := ⟨rfl, rfl, rfl⟩

/-- R78: a missing word is rejected by name. -/
theorem test_decode_missing :
    decode [] = .error .missingW0 ∧ decode [0x00000033] = .error .missingW1 := ⟨rfl, rfl⟩

/-- R78: the words after a command are left. -/
theorem test_decode_rest :
    decode [0x00000010, 0x00000011] = .ok (.crc16, [0x00000011]) ∧
    decode [0x00000035, 0x000003E8, 0x00000011] = .ok (.sendCheckAck 1000, [0x00000011]) := ⟨rfl, rfl⟩

/-- Every row's words decode under the mask and match of R74's opcode: the opcodes are distinct. -/
theorem test_opcodes_distinct : (Opcode.all.map Opcode.code).Nodup ∧ Opcode.all.length = 22 := by decide

/-- The first step after reset runs the placed command (here CRC16, which ends OK). -/
theorem test_placed_command_runs :
    (match step (State.reset.withFetchWord 32 0x00000010) with
     | .next t => some (t.busy, t.res.status)
     | .fault _ => none
     | .refused _ => none) = some (false, Status.ok) := by decide

/-! ### Assembler text (R79, R87) -/

theorem test_assemble_setBitmask :
    assembleLine (Config.standard .ctrlB) "SET_BITMASK FIFOLEVEL, 0x80".toList = some (.words [0x00800A42]) := by
  decide
theorem test_assemble_exchange :
    assembleLine (Config.standard .ctrlA) "EXCHANGE 14, 1000 ; a comment".toList =
      some (.words [0x000E0036, 0x000003E8]) := by decide
theorem test_assemble_buf :
    assembleLine (Config.standard .ctrlA) ".buf 0x50, 0".toList = some (.buf [0x50, 0x00]) ∧
    assembleLine (Config.standard .ctrlA) ".buf".toList = some (.buf []) := by decide
theorem test_assemble_pseudo :
    assembleLine (Config.standard .ctrlB) "FLUSH_FIFO".toList = some (.words [0x00800A42]) ∧
    assembleLine (Config.standard .ctrlB) "DEVICE_IDLE".toList = some (.words [0x00000141]) := by decide
theorem test_assemble_refused :
    assembleLine (Config.standard .ctrlB) "READ_REG 64".toList = none ∧
    assembleLine (Config.standard .ctrlB) "FRAME_BUILD up".toList = none := by decide

/-! ### Reset and the host (Z1 to Z5) -/

theorem test_reset_z1 :
    State.reset.busy = false ∧ State.reset.crcr = 0x6363 ∧ State.reset.trace = [] ∧ State.reset.res.status = .ok :=
  ⟨rfl, rfl, rfl, rfl⟩

/-- Z3: RST inside a read window drops SEL and adds no event. -/
theorem test_rst_z3 :
    (match step { begun .ctrlA 0x00000034 0 [] [] with
        pins := { sel := true }, trace := [.sel true], seq := { op := some 0x34, pos := 2 }, host := [.rst] } with
     | .next t => some (t.pins.sel, t.trace, t.busy)
     | .fault _ => none
     | .refused _ => none) = some (false, [.sel true], false) := by decide

/-- Z4: a write of W0 while BUSY = 1 is refused. -/
theorem test_host_z4 :
    step { begun .ctrlA 0x00000034 0 [] [] with host := [.writeW0 0x10] } = .refused .writeWhileBusy := rfl

/-- Z5: the results are cleared when a command starts (R43). -/
theorem test_host_z5 :
    (startCommand 0x20 { idle .ctrlA with res := { rdata := [1, 2], rlen := 2, rval := 7 } }).res = {} := by decide

/-! ### CRC unit (2.2) -/

/-- K3, K5, K12 and K21. -/
theorem test_crcA_values :
    crcA (Config.standard .ctrlA) [0x00, 0x00] = 0x1EA0 ∧
    crcA (Config.standard .ctrlA) [0x31, 0x32, 0x33, 0x34, 0x35, 0x36, 0x37, 0x38, 0x39] = 0xBF05 ∧
    crcA (Config.standard .ctrlA) [0x93, 0x70, 0x01, 0x02, 0x03, 0x04, 0x04] = 0x258E ∧
    crcA (Config.standard .ctrlA) [0x08, 0xB6, 0xDD] = 0x0000 := by decide +kernel

/-- The byte-wise form of R141 on K3 and K4. -/
theorem test_crcAFast_values : crcAFast [0x00, 0x00] = 0x1EA0 ∧ crcAFast [0x12, 0x34] = 0xCF26 := by decide

/-- K33. -/
theorem test_crc16_k33 : result .crc16 (begun .ctrlA 0x10 0 [0x00, 0x00] []) = some (.ok, false, 0x1EA0) := by
  decide +kernel

/-- D11. -/
theorem test_crc16_d11 : result .crc16 (begun .ctrlB 0x10 0 [] []) = some (.ok, false, 0x6363) := by decide

/-- K30. -/
theorem test_crcAppend_k30 :
    output .crcAppend (begun .ctrlA 0x11 0 [0x50, 0x00] []) = some ([0x50, 0x00, 0x57, 0xCD], 4) := by decide +kernel

/-- K32. -/
theorem test_crcAppend_k32 :
    result .crcAppend (begun .ctrlA 0x11 0 (List.replicate 261 0) []) = some (.parameter, false, 0x0105) := by
  decide +kernel

/-- K22. -/
theorem test_crcCheck_k22 :
    result .crcCheck (begun .ctrlA 0x12 0 (List.replicate 16 0 ++ [0x37, 0x48]) []) = some (.integrity, false, 0x4937) := by
  decide +kernel

/-- K24. -/
theorem test_crcCheck_k24 : result .crcCheck (begun .ctrlA 0x12 0 [0x63, 0x63] []) = some (.ok, false, 0x6363) := by
  decide

/-! ### Frame unit (2.3) -/

/-- F4. -/
theorem test_frameBuild_f4 :
    output (.frameBuild .h2c) (begun .ctrlA 0x20 0 [0x4A, 0x01, 0x00] []) =
      some ([0x00, 0x00, 0xFF, 0x04, 0xFC, 0xD4, 0x4A, 0x01, 0x00, 0xE1, 0x00], 11) := by decide

/-- F7. -/
theorem test_frameBuild_f7 :
    output (.frameBuild .c2h) (begun .ctrlA 0x120 0 [0x03, 0x32, 0x01, 0x06, 0x07] []) = some (frameB0, 13) := by
  decide

/-- F10. -/
theorem test_frameParse_f10 :
    output (.frameParse .c2h) (begun .ctrlA 0x121 0 frameB0 []) = some ([0x03, 0x32, 0x01, 0x06, 0x07], 5) := by
  decide

/-- F17. -/
theorem test_frameParse_f17 :
    result (.frameParse .c2h) (begun .ctrlA 0x121 0 (frameB0.set 11 0xE9) []) = some (.framing, false, 0x0007) := by
  decide

/-- F23, F24. -/
theorem test_ackMatch_f23_f24 :
    result .ackMatch (begun .ctrlA 0x22 0 ackBytes []) = some (.ok, true, 0) ∧
    result .ackMatch (begun .ctrlA 0x22 0 (ackBytes ++ [0x00]) []) = some (.ok, false, 0) := by decide

/-! ### Link sequencer (2.4) -/

/-- A1: the first line selects; the third sends PRE0. -/
theorem test_writeCommand_a1 :
    events .writeCommand (begun .ctrlA 0x30 0 [0x02] []) = some [.sel true] ∧
    events .writeCommand (lineAt 6 (begun .ctrlA 0x30 0 [0x02] [.ok 0])) = some [.tx 0x02 true] := by decide

/-- A3: the third transfer fails. -/
theorem test_writeCommand_a3 :
    (after .writeCommand { lineAt 4 (begun .ctrlA 0x30 0 [0x02] [.fail]) with
        locals := { ordinal := 2 }, pins := { sel := true } }).map (fun t => (t.res.status, t.res.rval, t.trace)) =
      some (.transport, 0x0003, [.tx 0x00 false, .sel false]) := by decide

/-- A17. -/
theorem test_readData_a17 :
    result (.readData 263) (begun .ctrlA 0x01070031 0 [] []) = some (.parameter, false, 0x0107) := by decide

/-- A15: the byte received goes to the end; the last line puts the bytes in RDATA. -/
theorem test_readData_a15 :
    output (.readData 13) { lineAt 16 (begun .ctrlA 0x000D0031 0 [] []) with locals := { rx := frameB0 } } =
      some (frameB0, 13) := by decide

/-- A5, A6. -/
theorem test_isReady_a5_a6 :
    result .isReady { lineAt 4 (begun .ctrlA 0x32 0 [] []) with locals := { status := 0x01 } } = some (.ok, true, 0x0001) ∧
    result .isReady { lineAt 4 (begun .ctrlA 0x32 0 [] []) with locals := { status := 0xFF } } = some (.ok, false, 0x00FF) := by
  decide

/-- A10: at the second failed poll of WAIT_READY 10, ELAPSED passes T. -/
theorem test_waitReady_a10 :
    result (.waitReady 10) { lineAt 5 (begun .ctrlA 0x33 10 [] []) with
      seq := { op := some 0x33, pos := 5, elapsed := 10 } } = some (.ok, false, 0x0000) := by decide

/-- A8: with T = 0 a poll that is not ready goes on to the delay. -/
theorem test_waitReady_a8 :
    (after (.waitReady 0) (lineAt 5 (begun .ctrlA 0x33 0 [] []))).map (fun t => (t.busy, t.seq.pos)) = some (true, 6) ∧
    events (.waitReady 0) (lineAt 6 (begun .ctrlA 0x33 0 [] [])) = some [.delay 10000] := by decide

/-- A13, A14. -/
theorem test_readAck_a13_a14 :
    result .readAck { lineAt 9 (begun .ctrlA 0x34 0 [] []) with locals := { rx := ackBytes } } = some (.ok, true, 0) ∧
    result .readAck { lineAt 9 (begun .ctrlA 0x34 0 [] []) with locals := { rx := ackBytes.set 3 0x01 } } =
      some (.ok, false, 0) := by decide

/-- A18: the second wait's ready poll (line 32 for one payload byte) ends with RBOOL 1. -/
theorem test_sendCheckAck_a18 :
    result (.sendCheckAck 1000) { lineAt 32 (begun .ctrlA 0x35 1000 [0x02] []) with locals := { status := 0x01 } } =
      some (.ok, true, 0x0000) := by decide

/-- A20: a wrong acknowledgement ends with step 2. -/
theorem test_sendCheckAck_a20 :
    result (.sendCheckAck 1000) { lineAt 27 (begun .ctrlA 0x35 1000 [0x02] []) with locals := { rx := ackBytes.set 4 0xFE } } =
      some (.ok, false, 0x0002) := by decide

/-- A22: the response parses. -/
theorem test_exchange_a22 :
    (after (.exchange 13 1000) { lineAt 49 (begun .ctrlA 0x000D0036 1000 [0x02] []) with
        locals := { rx := frameB0 }, xstate := .responseWait }).map
        (fun t => (t.res.status, t.res.rdata, t.res.rlen, t.xstate)) =
      some (.ok, [0x03, 0x32, 0x01, 0x06, 0x07], 5, .responseParsed) := by decide

/-- A29: a wrong DCS. -/
theorem test_exchange_a29 :
    (after (.exchange 13 1000) { lineAt 49 (begun .ctrlA 0x000D0036 1000 [0x02] []) with
        locals := { rx := frameB0.set 11 0xE9 }, xstate := .responseWait }).map
        (fun t => (t.res.status, t.res.rval, t.xstate)) = some (.framing, 0x0017, .failed) := by decide

/-! ### Register commands (2.5 to 2.8) -/

/-- R1. -/
theorem test_readReg_r1 :
    result (.readReg 4) (begun .ctrlB 0x440 0 [] [.ok 0x14]) = some (.ok, false, 0x0014) ∧
    events (.readReg 4) (begun .ctrlB 0x440 0 [] [.ok 0x14]) = some [.xfer 0x88 0x00 (.ok 0x14)] := by decide

/-- R3. -/
theorem test_writeReg_r3 :
    events (.writeReg 0x2A 0x8D) (begun .ctrlB 0x008D2A41 0 [] [.ok 0x77]) = some [.xfer 0x54 0x8D (.ok 0x77)] := by
  decide

/-- R5: the write. -/
theorem test_setBitmask_r5 :
    result (.setBitmask 0x0A 0x80) { lineAt 2 (begun .ctrlB 0x00800A42 0 [] [.ok 0]) with scratch := { vtmp := 0x05 } } =
      some (.ok, false, 0x0085) ∧
    events (.setBitmask 0x0A 0x80) { lineAt 2 (begun .ctrlB 0x00800A42 0 [] [.ok 0]) with scratch := { vtmp := 0x05 } } =
      some [.xfer 0x14 0x85 (.ok 0)] := by decide

/-- R6: the write. -/
theorem test_clearBitmask_r6 :
    events (.clearBitmask 0x04 0x80) { lineAt 2 (begun .ctrlB 0x00800443 0 [] [.ok 0]) with scratch := { vtmp := 0xA4 } } =
      some [.xfer 0x08 0x24 (.ok 0)] := by decide

/-- R9, R11: the writes. -/
theorem test_antennaOn_r9 :
    events .antennaOn { lineAt 2 (begun .ctrlB 0x47 0 [] [.ok 0]) with scratch := { vtmp := 0x80 } } =
      some [.xfer 0x28 0x83 (.ok 0)] := by decide
theorem test_antennaOff_r11 :
    events .antennaOff { lineAt 2 (begun .ctrlB 0x48 0 [] [.ok 0]) with scratch := { vtmp := 0x83 } } =
      some [.xfer 0x28 0x80 (.ok 0)] := by decide

/-- X1, X12: the first transaction of the preamble, for two classes. -/
theorem test_executeCommand_x1_x12 :
    events (.executeCommand 0xC) (begun .ctrlB 0xC44 0 [0x26] [.ok 0]) = some [.xfer 0x04 0xF7 (.ok 0)] ∧
    events (.executeCommand 0xE) (begun .ctrlB 0xE44 0 [] [.ok 0]) = some [.xfer 0x04 0x92 (.ok 0)] := by decide

/-- X6: the no-response test comes before the collision test (the ERROR read is line 13 for one data byte). -/
theorem test_executeCommand_x6 :
    result (.executeCommand 0xC) { lineAt 13 (begun .ctrlB 0xC44 0 [0x26] [.ok 0x19]) with
      scratch := { irqv := 0x30, waitm := 0x30 } } = some (.tagAbsent, false, 0x1930) := by decide

/-- Q1: the high result byte ends CALC_CRC (line 11 for two data bytes). -/
theorem test_calcCrc_q1 :
    result .calcCrc { lineAt 11 (begun .ctrlB 0x45 0 [0x50, 0x00] [.ok 0xCD]) with
      locals := { lo := 0x57 }, res := { rbool := true } } = some (.ok, true, 0xCD57) := by decide

/-- Q5. -/
theorem test_calcCrc_q5 :
    result .calcCrc (begun .ctrlB 0x45 0 (List.replicate 65 0) []) = some (.parameter, false, 0x0041) := by decide

/-- T1: the delay and the last write. -/
theorem test_reset_t1 :
    events .reset (lineAt 2 (begun .ctrlB 0x46 0 [] [])) = some [.delay 50000] ∧
    events .reset (lineAt 10 (begun .ctrlB 0x46 0 [] [.ok 0])) = some [.xfer 0x22 0x3D (.ok 0)] := by decide

/-- T2: the fifth transaction fails. -/
theorem test_reset_t2 :
    (after .reset { lineAt 6 (begun .ctrlB 0x46 0 [] [.fail]) with locals := { ordinal := 4 } }).map
      (fun t => (t.res.status, t.res.rval, t.trace)) = some (.transport, 0x0005, [.xfer 0x56 0x3E .fail]) := by
  decide

/-! ### Witnesses: for each statement with hypotheses, a state and operands that meet all of them together, and one for each clause at
a boundary of its range -/

/-- A command of backend A is at its start. -/
theorem ready_begun_a (w0 w1 : Word) (d : List Byte) (env : List Answer) : Ready .ctrlA (begun .ctrlA w0 w1 d env) :=
  ⟨rfl, rfl, rfl⟩

/-- A command of backend B is at its start. -/
theorem ready_begun_b (w0 w1 : Word) (d : List Byte) (env : List Answer) : Ready .ctrlB (begun .ctrlB w0 w1 d env) :=
  ⟨rfl, rfl, rfl⟩

/-- A state placed at a line is at it. -/
theorem atLine_lineAt (p : Nat) (s : State) (h : 1 ≤ p) : AtLine p (lineAt p s) := ⟨rfl, h⟩

theorem test_witness_DecodeOfEncodedInstruction :
    (Instr.writeReg 63 0xFF).WellFormed ∧ (Instr.executeCommand 15).WellFormed ∧
    (Instr.exchange 0xFFFF 0xFFFFFFFF).WellFormed := by decide

theorem test_witness_EncodeOfDecodedWords :
    decodeWords 0x000D0036 1000 = .ok (.exchange 13 1000) ∧ (Instr.exchange 13 1000).opcode.format.hasW1 = true ∧
    decodeWords 0x00C03F41 7 = .ok (.writeReg 63 0xC0) := ⟨rfl, rfl, rfl⟩

theorem test_witness_PseudoInstructionsExpand :
    (Config.standard .ctrlB).regs = {} ∧ (idle .ctrlB).cfg.backend = .ctrlB ∧ (idle .ctrlB).cfg.regs = {} ∧
    (idle .ctrlB).cfg.masks = {} := ⟨rfl, rfl, rfl, rfl⟩

theorem test_witness_RegisterAddressByte : (Config.standard .ctrlB).bus = {} ∧ RegOk 0 ∧ RegOk 63 := by decide

/-- Each clause: an unassigned opcode at each edge of R75's ranges, and a must-be-zero bit. -/
theorem test_witness_IllegalCommandEnds :
    (let s := begun .ctrlA 0x00000049 0 [] []
     s.busy = true ∧ s.host = [] ∧ s.pins.sel = false ∧ Unassigned (opcField s.latch.w0)) ∧
    (let s := begun .ctrlA 0x01000010 0 [] []
     s.busy = true ∧ s.host = [] ∧ s.pins.sel = false ∧
       ∃ o ∈ Opcode.all, o.code = opcField s.latch.w0 ∧ s.latch.w0 &&& o.format.zeroBits ≠ 0) ∧
    Unassigned 0x0F ∧ Unassigned 0x13 ∧ Unassigned 0x23 ∧ Unassigned 0x37 ∧ Unassigned 0xFF ∧
    ¬Unassigned 0x10 ∧ ¬Unassigned 0x48 := by
  refine ⟨⟨rfl, rfl, rfl, ?_⟩, ⟨rfl, rfl, rfl, .crc16, by decide, by decide, by decide⟩, ?_⟩ <;>
    (unfold Unassigned; decide)

theorem test_witness_WrongBackendEndsCommand :
    (Instr.exchange 0 0).opcode.backend = some .ctrlA ∧ (begun .ctrlB 0x36 0 [] []).seq.pos = 0 ∧
    (begun .ctrlB 0x36 0 [] []).cfg.backend ≠ .ctrlA ∧ (begun .ctrlB 0x36 0 [] []).pins.sel = false ∧
    (Instr.readReg 4).opcode.backend = some .ctrlB ∧ (begun .ctrlA 0x440 0 [] []).seq.pos = 0 ∧
    (begun .ctrlA 0x440 0 [] []).cfg.backend ≠ .ctrlB ∧ (begun .ctrlA 0x440 0 [] []).pins.sel = false ∧
    Instr.crc16.opcode.backend = none := by decide

/-- One over each limit: 63 payload bytes, n = 263, 65 FIFO bytes. -/
theorem test_witness_ParameterErrorsPrecedeTransactions :
    (let s := begun .ctrlA 0x36 0 (List.replicate 63 0) []
     s.seq.pos = 0 ∧ s.pins.sel = false ∧ s.cfg.framePayloadMax < s.dataLen ∧ s.cfg.backend = .ctrlA) ∧
    (let s := begun .ctrlA 0x01070036 0 (List.replicate 62 0) []
     s.seq.pos = 0 ∧ s.pins.sel = false ∧ s.cfg.rxMax < (263 : Half).toNat ∧ s.cfg.backend = .ctrlA ∧
       s.dataLen ≤ s.cfg.framePayloadMax) ∧
    (let s := begun .ctrlB 0x45 0 (List.replicate 65 0) []
     s.seq.pos = 0 ∧ s.pins.sel = false ∧ s.cfg.fifoDepth < s.dataLen ∧ s.cfg.backend = .ctrlB) := by decide

/-- A failure at a line past the first transaction; T3, RESET's first transaction; X15, EXECUTE_COMMAND's. -/
theorem test_witness_TransportFailureEndsCommand :
    (∃ l, Instr.isReady.opcode.backend = some .ctrlA ∧ (lineAt 2 (begun .ctrlA 0x32 0 [] [.fail])).seq.pos ≠ 0 ∧
      (linesOf .isReady (lineAt 2 (begun .ctrlA 0x32 0 [] [.fail])))[2 - 1]? = some l ∧ l.prim.answered = true ∧
      (lineAt 2 (begun .ctrlA 0x32 0 [] [.fail])).env = .fail :: []) ∧
    (∃ l, Instr.reset.opcode.backend = some .ctrlB ∧ (lineAt 1 (begun .ctrlB 0x46 0 [] [.fail])).seq.pos ≠ 0 ∧
      (linesOf .reset (lineAt 1 (begun .ctrlB 0x46 0 [] [.fail])))[1 - 1]? = some l ∧ l.prim.answered = true ∧
      (lineAt 1 (begun .ctrlB 0x46 0 [] [.fail])).env = .fail :: []) ∧
    (let s := begun .ctrlB 0x46 0 [] [.fail]
     firstTransfer s .reset = some (0x02, 0x0F) ∧ Ready .ctrlB s ∧ s.dataLen ≤ s.cfg.fifoDepth ∧ s.env = .fail :: []) ∧
    (let s := begun .ctrlB 0xC44 0 (List.replicate 64 0) [.fail]
     firstTransfer s (.executeCommand 0xC) = some (0x04, 0xF7) ∧ Ready .ctrlB s ∧ s.dataLen ≤ s.cfg.fifoDepth ∧
     s.env = .fail :: []) :=
  ⟨⟨_, rfl, nofun, rfl, rfl, rfl⟩, ⟨_, rfl, nofun, rfl, rfl, rfl⟩, ⟨rfl, ready_begun_b .., by decide, rfl⟩,
    ⟨rfl, ready_begun_b .., by decide, rfl⟩⟩

theorem test_witness_WriteOfW0StartsCommand :
    (let s := { idle .ctrlA with host := [.writeW0 0x10] }
     s.host = .writeW0 0x10 :: [] ∧ s.busy = false) := by decide

theorem test_witness_HostProtocolErrorsRefused :
    (begun .ctrlA 0x32 0 [] []).busy = true ∧ (idle .ctrlA).busy = false ∧ ResultReg.rval ≠ .busy ∧
    (idle .ctrlA).cfg.bufMax < (List.replicate 263 (0 : Byte)).length := by decide +kernel

theorem test_witness_HostAccessWhileIdle :
    (idle .ctrlA).busy = false ∧ (List.replicate 262 (0 : Byte)).length ≤ (idle .ctrlA).cfg.bufMax ∧
    ResultReg.xstate ≠ .busy ∧ ({ idle .ctrlA with host := [.rst] } : State).host = .rst :: [] := by decide +kernel

theorem test_witness_BlockResetRestoresResetValues :
    ({ begun .ctrlA 0x32 0 [] [] with host := [.rst] } : State).host = .rst :: [] := rfl

theorem test_witness_StepRunsDecodedCommand :
    (begun .ctrlA 0x32 0 [] []).busy = true ∧ fetch (begun .ctrlA 0x32 0 [] []) = .ok .isReady ∧
    (begun .ctrlA 0x32 0 [] []).host = [] ∧ (idle .ctrlA).busy = false ∧ (idle .ctrlA).host = [] := ⟨rfl, rfl, rfl, rfl, rfl⟩

/-- K31, K32: 260 bytes are within the limit, 261 are not. -/
theorem test_witness_CrcAppendResult :
    (let s := begun .ctrlA 0x11 0 (List.replicate 260 0) []
     2 ≤ s.cfg.bufMax ∧ s.pins.sel = false ∧ s.dataLen ≤ s.cfg.bufMax - 2) ∧
    (let s := begun .ctrlA 0x11 0 (List.replicate 261 0) []
     2 ≤ s.cfg.bufMax ∧ s.pins.sel = false ∧ s.cfg.bufMax - 2 < s.dataLen) := by decide +kernel

/-- K24, K25, K27: a match, no match, and too short. -/
theorem test_witness_CrcCheckResult :
    (let s := begun .ctrlA 0x12 0 [0x63, 0x63] []
     s.cfg.crcPolyRefl = 0x8408 ∧ s.pins.sel = false ∧ s.data = [] ++ [0x63, 0x63] ∧
       (0x63 : Byte) ++ (0x63 : Byte) = crcA s.cfg []) ∧
    (let s := begun .ctrlA 0x12 0 [0x63, 0x64] []
     s.data = [] ++ [0x63, 0x64] ∧ (0x64 : Byte) ++ (0x63 : Byte) ≠ crcA s.cfg []) ∧
    (begun .ctrlA 0x12 0 [0x00] []).dataLen < 2 := by decide

/-- K19, K20. -/
theorem test_witness_CrcProperties :
    (Config.standard .ctrlA).crcPreset = 0x6363 ∧ (Config.standard .ctrlA).crcPolyRefl = 0x8408 ∧
    ([2, 1] : List Byte).length = ([0, 1] : List Byte).length ∧
    List.zipWith (· ^^^ ·) ([0, 1] : List Byte) [2, 1] = List.zipWith (· ^^^ ·) [4, 7] [6, 7] ∧
    0 < ([0, 1] : List Byte).length ∧ (1 : Byte) ≠ ([0, 1] : List Byte)[0] := by decide

theorem test_witness_FrameFieldsAndChecksums :
    (List.replicate 254 (0xFF : Byte)).length ≤ 254 ∧ (Config.standard .ctrlA).frame = {} := by decide +kernel

theorem test_witness_FrameBuildResult :
    (begun .ctrlA 0x20 0 (List.replicate 62 0) []).pins.sel = false ∧
    (begun .ctrlA 0x20 0 (List.replicate 62 0) []).dataLen ≤ (begun .ctrlA 0x20 0 (List.replicate 62 0) []).cfg.framePayloadMax ∧
    (begun .ctrlA 0x20 0 (List.replicate 63 0) []).pins.sel = false ∧
    (begun .ctrlA 0x20 0 (List.replicate 63 0) []).cfg.framePayloadMax < (begun .ctrlA 0x20 0 (List.replicate 63 0) []).dataLen := by
  decide

theorem test_witness_FrameParseResult :
    parseFrame (begun .ctrlA 0x121 0 frameB0 []).cfg .c2h (begun .ctrlA 0x121 0 frameB0 []).data =
      .ok [0x03, 0x32, 0x01, 0x06, 0x07] ∧
    parseFrame (begun .ctrlA 0x121 0 ackBytes []).cfg .c2h (begun .ctrlA 0x121 0 ackBytes []).data = .error .lcs :=
  ⟨rfl, rfl⟩

theorem test_witness_AckMatchResult : (begun .ctrlA 0x22 0 ackBytes []).cfg.ack.length = 6 := rfl

/-- F10 to F17: a witness of each clause. -/
theorem test_witness_ParseChecksInOrder :
    (let c := Config.standard .ctrlA
     parseFrame c .c2h (frameB0.take 5) = .error .shortHeader ∧ parseFrame c .c2h (frameB0.set 0 1) = .error .preamble ∧
     parseFrame c .c2h (frameB0.set 4 0xFB) = .error .lcs ∧
     parseFrame c .c2h [0x00, 0x00, 0xFF, 0x00, 0x00, 0xD5] = .error .lenZero ∧
     parseFrame c .c2h (frameB0.take 11) = .error .shortBody ∧ parseFrame c .h2c frameB0 = .error .direction ∧
     parseFrame c .c2h (frameB0.set 11 0xE9) = .error .dcs ∧
     parseFrame c .c2h (frameB0.take 12) = .ok [0x03, 0x32, 0x01, 0x06, 0x07]) := ⟨rfl, rfl, rfl, rfl, rfl, rfl, rfl, rfl⟩

theorem test_witness_FrameRoundTrip :
    (let c := Config.standard .ctrlA
     (List.replicate 62 (0xFF : Byte)).length ≤ c.framePayloadMax ∧ c.framePayloadMax ≤ 254 ∧
     0 ≤ 6 + ([2] : List Byte).length ∧ (buildFrame c .h2c [2])[0]? ≠ some 1 ∧ (buildFrame c .h2c [2])[7]? ≠ some 0) := by
  decide

/-- Lines 1, 2, 3, 11 (the last frame byte) and 12 (the deselect) for one payload byte. -/
theorem test_witness_WriteCommandLines :
    (let s := begun .ctrlA 0x30 0 [0x02] [.ok 0]
     Ready .ctrlA s ∧ s.dataLen ≤ s.cfg.framePayloadMax ∧ AtLine 2 (lineAt 2 s) ∧ (lineAt 2 s).env = .ok 0 :: [] ∧
     AtLine (3 + 8) (lineAt 11 s) ∧ (buildFrame s.cfg .h2c (lineAt 11 s).data)[8]? = some 0x00 ∧
     AtLine ((lineAt 12 s).dataLen + 11) (lineAt 12 s)) :=
  ⟨ready_begun_a .., by decide, atLine_lineAt 2 _ (by decide), rfl, atLine_lineAt 11 _ (by decide), rfl,
    atLine_lineAt 12 _ (by decide)⟩

theorem test_witness_WriteCommandRun :
    (let s := begun .ctrlA 0x30 0 [0x02] (List.replicate 10 (.ok 0))
     s.busy = true ∧ s.host = [] ∧ fetch s = .ok .writeCommand ∧ Ready .ctrlA s ∧
     s.dataLen ≤ s.cfg.framePayloadMax ∧ (List.replicate 10 (0 : Byte)).length = s.dataLen + 9 ∧
     s.env = okAnswers (List.replicate 10 (0 : Byte)) ++ []) :=
  ⟨rfl, rfl, rfl, ready_begun_a .., by decide, rfl, rfl⟩

/-- n = 262 is the limit; with n = 1: lines 1, 2, 3 and 4. -/
theorem test_witness_ReadDataLines :
    (let s := begun .ctrlA 0x00010031 0 [] [.ok 7]
     Ready .ctrlA s ∧ (262 : Half).toNat ≤ s.cfg.rxMax ∧ AtLine 2 (lineAt 2 s) ∧ (lineAt 2 s).env = .ok 7 :: [] ∧
     0 < (1 : Half).toNat ∧ AtLine (3 + 0) (lineAt 3 s) ∧ AtLine ((1 : Half).toNat + 3) (lineAt 4 s)) :=
  ⟨ready_begun_a .., by decide, atLine_lineAt 2 _ (by decide), rfl, by decide, atLine_lineAt 3 _ (by decide),
    atLine_lineAt 4 _ (by decide)⟩

theorem test_witness_IsReadyLines :
    (let s := begun .ctrlA 0x32 0 [] [.ok 1]
     Ready .ctrlA s ∧ AtLine 2 (lineAt 2 s) ∧ AtLine 3 (lineAt 3 s) ∧ (lineAt 3 s).env = .ok 1 :: [] ∧
     AtLine 4 (lineAt 4 s)) :=
  ⟨ready_begun_a .., atLine_lineAt 2 _ (by decide), atLine_lineAt 3 _ (by decide), rfl, atLine_lineAt 4 _ (by decide)⟩

theorem test_witness_ReadAckLines :
    (let s := begun .ctrlA 0x34 0 [] [.ok 1]
     Ready .ctrlA s ∧ AtLine 2 (lineAt 2 s) ∧ AtLine (3 + 5) (lineAt 8 s) ∧ (lineAt 8 s).env = .ok 1 :: [] ∧
     AtLine 9 (lineAt 9 s)) :=
  ⟨ready_begun_a .., atLine_lineAt 2 _ (by decide), atLine_lineAt 8 _ (by decide), rfl, atLine_lineAt 9 _ (by decide)⟩

/-- Line 5's clauses: ready; not ready with T = 0; T = 9, one below the step (expired); T = 10 (not expired). -/
theorem test_witness_WaitReadyLines :
    (let s := begun .ctrlA 0x33 0 [] [.ok 1]
     let r := { lineAt 5 s with locals := { status := 0x01 } }
     Ready .ctrlA s ∧ AtLine 2 (lineAt 2 s) ∧ AtLine 3 (lineAt 3 s) ∧ AtLine 4 (lineAt 4 s) ∧ s.env = .ok 1 :: [] ∧
     AtLine 5 r ∧ r.locals.status = r.cfg.link.ready ∧
     AtLine 5 (lineAt 5 s) ∧ (lineAt 5 s).locals.status ≠ (lineAt 5 s).cfg.link.ready ∧
     (9 : Word) ≠ 0 ∧ (9 : Word).toNat < (lineAt 5 s).seq.elapsed + (lineAt 5 s).cfg.pollStepMs ∧
     (10 : Word) ≠ 0 ∧ (lineAt 5 s).seq.elapsed + (lineAt 5 s).cfg.pollStepMs ≤ (10 : Word).toNat ∧
     AtLine 6 (lineAt 6 s)) :=
  ⟨ready_begun_a .., atLine_lineAt 2 _ (by decide), atLine_lineAt 3 _ (by decide), atLine_lineAt 4 _ (by decide), rfl,
    ⟨rfl, by decide⟩, rfl, atLine_lineAt 5 _ (by decide), by decide, by decide, by decide, by decide, by decide,
    atLine_lineAt 6 _ (by decide)⟩

/-- A8's first two polls. -/
theorem test_witness_WaitReadyPollsForever :
    (let s := lineAt 2 (begun .ctrlA 0x33 0 [] [.ok 0, .ok 0, .ok 0, .ok 0xFF])
     s.busy = true ∧ s.host = [] ∧ fetch s = .ok (.waitReady 0) ∧ s.seq.pos = 2 ∧
     (∀ v ∈ ([0x00, 0xFF] : List Byte), v ≠ s.cfg.link.ready) ∧
     s.env = ([0x00, 0xFF] : List Byte).flatMap pollAnswers ++ []) :=
  ⟨rfl, rfl, rfl, rfl, by decide, rfl⟩

/-- A10: T = 10, two polls; A9: T = 9, one. -/
theorem test_witness_WaitReadyExpires :
    (let s := begun .ctrlA 0x33 10 [] [.ok 0, .ok 0, .ok 0, .ok 0]
     s.busy = true ∧ s.host = [] ∧ fetch s = .ok (.waitReady 10) ∧ Ready .ctrlA s ∧ s.cfg.pollStepMs = 10 ∧
     (10 : Word) ≠ 0 ∧ ([0] : List Byte).length = (10 : Word).toNat / 10 ∧
     (∀ u ∈ ([0] : List Byte) ++ [0], u ≠ s.cfg.link.ready) ∧
     s.env = (([0] : List Byte) ++ [0]).flatMap pollAnswers ++ []) ∧
    ([] : List Byte).length = (9 : Word).toNat / 10 :=
  ⟨⟨rfl, rfl, rfl, ready_begun_a .., rfl, by decide, by decide, by decide, rfl⟩, by decide⟩

/-- One payload byte, at any line, the environment answering Ok; 62 bytes are the limit; the last frame byte is the ninth; T = 9
expires and T = 10 does not, on the first poll. -/
theorem test_witness_SendCheckAckLines :
    (let s := begun .ctrlA 0x35 9 [0x02] [.ok 0]
     Ready .ctrlA s ∧ (begun .ctrlA 0x35 9 (List.replicate 62 0) []).dataLen ≤ s.cfg.framePayloadMax ∧
     (∀ p, 1 ≤ p → AtLine p (lineAt p s) ∧ (lineAt p s).dataLen = 1 ∧ (lineAt p s).env = .ok 0 :: []) ∧
     (buildFrame s.cfg .h2c s.data)[8]? = some 0x00 ∧ s.locals.status ≠ s.cfg.link.ready ∧ (10 : Word) ≠ 0 ∧
     s.seq.elapsed + s.cfg.pollStepMs ≤ (10 : Word).toNat) :=
  ⟨ready_begun_a .., by decide, fun p h => ⟨atLine_lineAt p _ h, rfl, rfl⟩, rfl, by decide, by decide, by decide⟩

/-- The decisions: lines 17, 27 and 32. -/
theorem test_witness_SendCheckAckDecisions :
    (let s := begun .ctrlA 0x35 9 [0x02] []
     let r := fun p => { lineAt p s with locals := { status := 0x01, rx := ackBytes } }
     AtLine (s.dataLen + 16) (lineAt 17 s) ∧ AtLine (s.dataLen + 31) (lineAt 32 s) ∧
     s.locals.status ≠ s.cfg.link.ready ∧ (9 : Word) ≠ 0 ∧ (9 : Word).toNat < s.seq.elapsed + s.cfg.pollStepMs ∧
     AtLine (s.dataLen + 16) (r 17) ∧ (r 17).locals.status = (r 17).cfg.link.ready ∧
     AtLine (s.dataLen + 26) (r 27) ∧ (r 27).locals.rx.length = 6 ∧ (r 27).locals.rx = (r 27).cfg.ack ∧
     AtLine (s.dataLen + 26) (lineAt 27 s) ∧ ¬((lineAt 27 s).locals.rx.length = 6 ∧ (lineAt 27 s).locals.rx = s.cfg.ack) ∧
     AtLine (s.dataLen + 31) (r 32) ∧ (r 32).locals.status = (r 32).cfg.link.ready) :=
  ⟨⟨rfl, by decide⟩, ⟨rfl, by decide⟩, by decide, by decide, by decide, ⟨rfl, by decide⟩, rfl,
    ⟨rfl, by decide⟩, rfl, rfl, ⟨rfl, by decide⟩, by decide, ⟨rfl, by decide⟩, rfl⟩

/-- The lines of EXCHANGE, as those of SEND_CHECK_ACK; n = 262 is the limit. -/
theorem test_witness_ExchangeLines :
    (let s := begun .ctrlA 0x000D0036 9 [0x02] [.ok 0]
     Ready .ctrlA s ∧ s.dataLen ≤ s.cfg.framePayloadMax ∧ (262 : Half).toNat ≤ s.cfg.rxMax ∧
     (∀ p, 1 ≤ p → AtLine p (lineAt p s) ∧ (lineAt p s).dataLen = 1 ∧ (lineAt p s).env = .ok 0 :: []) ∧
     (buildFrame s.cfg .h2c s.data)[8]? = some 0x00 ∧ 12 < (13 : Half).toNat ∧ s.locals.status ≠ s.cfg.link.ready ∧
     s.seq.elapsed + s.cfg.pollStepMs ≤ (10 : Word).toNat) :=
  ⟨ready_begun_a .., by decide, by decide, fun p h => ⟨atLine_lineAt p _ h, rfl, rfl⟩, rfl, by decide, by decide,
    by decide⟩

/-- The same lines, and line 49, the response window's deselect for n = 13, with a frame that parses and one that does not. -/
theorem test_witness_ExchangeDecisions :
    (let s := begun .ctrlA 0x000D0036 9 [0x02] []
     let r := fun p => { lineAt p s with locals := { status := 0x01, rx := ackBytes } }
     let b := { lineAt 49 s with locals := { rx := frameB0 } }
     AtLine (s.dataLen + 16) (lineAt 17 s) ∧ AtLine (s.dataLen + 31) (lineAt 32 s) ∧
     s.locals.status ≠ s.cfg.link.ready ∧ (9 : Word) ≠ 0 ∧ (9 : Word).toNat < s.seq.elapsed + s.cfg.pollStepMs ∧
     AtLine (s.dataLen + 16) (r 17) ∧ (r 17).locals.status = (r 17).cfg.link.ready ∧
     AtLine (s.dataLen + 26) (r 27) ∧ (r 27).locals.rx.length = 6 ∧ (r 27).locals.rx = (r 27).cfg.ack ∧
     AtLine (s.dataLen + 26) (lineAt 27 s) ∧ ¬((lineAt 27 s).locals.rx.length = 6 ∧ (lineAt 27 s).locals.rx = s.cfg.ack) ∧
     AtLine (s.dataLen + 31) (r 32) ∧
     AtLine (s.dataLen + 35 + (13 : Half).toNat) b ∧
     parseFrame b.cfg .c2h b.locals.rx = .ok [0x03, 0x32, 0x01, 0x06, 0x07] ∧
     AtLine (s.dataLen + 35 + (13 : Half).toNat) (r 49) ∧ parseFrame s.cfg .c2h (r 49).locals.rx = .error .lcs) :=
  ⟨⟨rfl, by decide⟩, ⟨rfl, by decide⟩, by decide, by decide, by decide, ⟨rfl, by decide⟩, rfl, ⟨rfl, by decide⟩, rfl,
    rfl, ⟨rfl, by decide⟩, by decide, ⟨rfl, by decide⟩, ⟨rfl, by decide⟩, rfl, ⟨rfl, by decide⟩, rfl⟩

/-- A22 with a ready first poll. -/
theorem test_witness_ExchangeRun :
    (let vs := List.replicate 10 (0 : Byte)
     let s := begun .ctrlA 0x000D0036 1000 [0x02] (okAnswers vs ++ pollAnswers 0x01 ++ okAnswers (0 :: ackBytes) ++
       pollAnswers 0x01 ++ okAnswers (0 :: frameB0) ++ [])
     s.busy = true ∧ s.host = [] ∧ fetch s = .ok (.exchange 13 1000) ∧ Ready .ctrlA s ∧
     s.dataLen ≤ s.cfg.framePayloadMax ∧ (13 : Half).toNat ≤ s.cfg.rxMax ∧ s.cfg.ack.length = 6 ∧
     vs.length = s.dataLen + 9 ∧ frameB0.length = (13 : Half).toNat ∧
     parseFrame s.cfg .c2h frameB0 = .ok [0x03, 0x32, 0x01, 0x06, 0x07] ∧
     s.env = okAnswers vs ++ pollAnswers s.cfg.link.ready ++ okAnswers (0 :: s.cfg.ack) ++
       pollAnswers s.cfg.link.ready ++ okAnswers (0 :: frameB0) ++ []) :=
  ⟨rfl, rfl, rfl, ready_begun_a .., by decide, by decide, rfl, rfl, rfl, rfl, rfl⟩

/-- A running EXCHANGE at the deselect of its write window (line 12 for one payload byte). -/
theorem test_witness_ExchangeFollowsStateMachine :
    (let s := lineAt 12 (begun .ctrlA 0x000D0036 1000 [0x02] [])
     XStateConsistent s ∧ (∃ t, step s = .next t) ∧ exchangeRunning s = true ∧ s.host = []) := by
  refine ⟨?_, ⟨_, rfl⟩, by decide, rfl⟩
  unfold XStateConsistent; decide

theorem test_witness_RegisterAccessResults :
    Ready .ctrlB (begun .ctrlB 0x440 0 [] [.ok 7]) ∧ (begun .ctrlB 0x440 0 [] [.ok 7]).env = .ok 7 :: [] ∧
    Ready .ctrlB (begun .ctrlB 0x440 0 [] [.fail]) ∧ (begun .ctrlB 0x440 0 [] [.fail]).env = .fail :: [] :=
  ⟨ready_begun_b .., rfl, ready_begun_b .., rfl⟩

theorem test_witness_ReadModifyWriteCommands :
    (let s := begun .ctrlB 0x47 0 [] [.ok 0x80]
     let f := begun .ctrlB 0x47 0 [] [.fail]
     s.pins.sel = false ∧ Ready .ctrlB s ∧ s.env = .ok 0x80 :: [] ∧ AtLine 2 (lineAt 2 s) ∧
     (lineAt 2 s).env = .ok 0x80 :: [] ∧ f.pins.sel = false ∧ Ready .ctrlB f ∧ f.env = .fail :: [] ∧
     AtLine 2 (lineAt 2 f)) :=
  ⟨rfl, ready_begun_b .., rfl, ⟨rfl, by decide⟩, rfl, rfl, ready_begun_b .., rfl, ⟨rfl, by decide⟩⟩

theorem test_witness_CommandClassMasks :
    (let s := begun .ctrlB 0xC44 0 (List.replicate 64 0) [.ok 0]
     (Config.standard .ctrlB).cmds = {} ∧ (Config.standard .ctrlB).classes = {} ∧ Ready .ctrlB s ∧
     s.dataLen ≤ s.cfg.fifoDepth ∧ s.env = .ok 0 :: []) :=
  ⟨rfl, rfl, ready_begun_b .., by decide, rfl⟩

/-- PRE26 of 2.6. -/
theorem test_witness_ExecuteIssuesCommand :
    (let s := begun .ctrlB 0xC44 0 [0x26] (List.replicate 7 (.ok 0))
     s.busy = true ∧ s.host = [] ∧ fetch s = .ok (.executeCommand 0xC) ∧ Ready .ctrlB s ∧
     s.dataLen ≤ s.cfg.fifoDepth ∧ ([0] : List Byte).length = s.dataLen ∧
     s.env = okAnswers ([0, 0, 0, 0, 0] ++ [0] ++ [0]) ++ []) :=
  ⟨rfl, rfl, rfl, ready_begun_b .., by decide, rfl, rfl⟩

theorem test_witness_ExecuteStartSend :
    (let s := begun .ctrlB 0xC44 0 [0x26] [.ok 7]
     (0xC : Byte) = s.cfg.cmds.transceive ∧ (0xE : Byte) ≠ s.cfg.cmds.transceive ∧ s.env = .ok 7 :: [] ∧
     AtLine (s.dataLen + 7) (lineAt 8 s) ∧ AtLine (s.dataLen + 8) (lineAt 9 s) ∧ AtLine (s.dataLen + 9) (lineAt 10 s)) :=
  ⟨rfl, by decide, rfl, ⟨rfl, by decide⟩, ⟨rfl, by decide⟩, ⟨rfl, by decide⟩⟩

/-- The head of a transceive with one data byte has nine lines; X1's polls 30 (a stop bit) and 00 (none), and the last poll. -/
theorem test_witness_ExecutePoll :
    (let s := begun .ctrlB 0xC44 0 [0x26] [.ok 0x30]
     let z := { begun .ctrlB 0xC44 0 [0x26] [.ok 0x00] with seq := { op := some 0x44, pos := 11, pollI := 149 } }
     9 = (executeHead 0xC s).length ∧ AtLine (9 + 1) (lineAt 10 s) ∧ AtLine (9 + 2) (lineAt 11 s) ∧
     s.env = .ok 0x30 :: [] ∧ (0x30 : Byte) &&& ((0x30 : Byte) ||| s.cfg.masks.irqTimer) ≠ 0 ∧
     9 = (executeHead 0xC z).length ∧ AtLine (9 + 2) z ∧ z.env = .ok 0x00 :: [] ∧
     (0x00 : Byte) &&& (z.scratch.waitm ||| z.cfg.masks.irqTimer) = 0 ∧ z.pins.sel = false ∧
     z.seq.pollI + 1 = z.cfg.irqPollMax ∧ (lineAt 11 s).seq.pollI + 1 ≠ s.cfg.irqPollMax ∧
     AtLine (9 + 3) (lineAt 12 s)) :=
  ⟨rfl, ⟨rfl, by decide⟩, ⟨rfl, by decide⟩, rfl, by decide, rfl, ⟨rfl, by decide⟩, rfl, by decide, rfl, by decide,
    by decide, ⟨rfl, by decide⟩⟩

theorem test_witness_ExecuteExhaustsPolls :
    (let s := lineAt 10 (begun .ctrlB 0xC44 0 [0x26] (List.replicate 150 (.ok 0)))
     s.busy = true ∧ s.host = [] ∧ fetch s = .ok (.executeCommand 0xC) ∧ AtLine ((executeHead 0xC s).length + 1) s ∧
     s.pins.sel = false ∧ (List.replicate 149 (0 : Byte)).length + 1 = s.cfg.irqPollMax ∧
     (∀ u ∈ List.replicate 149 (0 : Byte) ++ [0], u &&& (s.scratch.waitm ||| s.cfg.masks.irqTimer) = 0) ∧
     s.env = okAnswers (List.replicate 149 (0 : Byte) ++ [0]) ++ []) :=
  ⟨rfl, rfl, rfl, ⟨rfl, by decide +kernel⟩, rfl, by decide +kernel, by decide +kernel, by decide +kernel⟩

/-- X6, X5 and X1's ERROR reads: no response, collision, neither. -/
theorem test_witness_ExecuteErrorCheck :
    (let s := fun v : Byte => { lineAt 13 (begun .ctrlB 0xC44 0 [0x26] [.ok v]) with scratch := { irqv := 0x30 } }
     AtLine ((executeHead 0xC (s 0x19)).length + 4) (s 0x19) ∧ (s 0x19).pins.sel = false ∧
     (s 0x19).env = .ok 0x19 :: [] ∧
     ((0x19 : Byte) &&& ((s 0x19).cfg.masks.errProtocol ||| (s 0x19).cfg.masks.errBufOvfl) ≠ 0 ∧
       (s 0x19).scratch.irqv &&& (s 0x19).cfg.masks.irqRx ≠ 0) ∧
     (0x08 : Byte) &&& ((s 8).cfg.masks.errProtocol ||| (s 8).cfg.masks.errBufOvfl) = 0 ∧
     (0x08 : Byte) &&& (s 8).cfg.masks.errColl ≠ 0 ∧ (0x00 : Byte) &&& (s 0).cfg.masks.errColl = 0) :=
  ⟨⟨rfl, by decide⟩, rfl, rfl, by decide, by decide, by decide, by decide⟩

/-- X10: LVL = 127 with P_RESP_MAX = 64, so k = 64; X7: LVL = 0, so k = 0. -/
theorem test_witness_ExecuteReadBack :
    (let s := { begun .ctrlB 0xC44 0 [0x26] [.ok 0x11] with scratch := { lvl := 127 } }
     let z := begun .ctrlB 0xC44 0 [0x26] [.ok 0x11]
     9 = (executeHead 0xC s).length ∧ 64 = min s.scratch.lvl.toNat s.cfg.respMax ∧ s.pins.sel = false ∧
     s.env = .ok 0x11 :: [] ∧ s.cfg.masks = {} ∧ AtLine (9 + 5) (lineAt 14 s) ∧ AtLine (9 + 6) (lineAt 15 s) ∧
     1 ≤ 64 ∧ AtLine (9 + 6 + 1) (lineAt 16 s) ∧ AtLine (9 + 6 + 64) (lineAt 79 s) ∧
     0 = min z.scratch.lvl.toNat z.cfg.respMax ∧ AtLine (9 + 6) (lineAt 15 z)) :=
  ⟨rfl, by decide, rfl, rfl, rfl, ⟨rfl, by decide⟩, ⟨rfl, by decide⟩, by decide, ⟨rfl, by decide⟩, ⟨rfl, by decide⟩,
    by decide, ⟨rfl, by decide⟩⟩

/-- Q1's setup. -/
theorem test_witness_CalcCrcIssuesCommand :
    (let s := begun .ctrlB 0x45 0 [0x50, 0x00] (.ok 4 :: List.replicate 6 (.ok 0))
     s.busy = true ∧ s.host = [] ∧ fetch s = .ok .calcCrc ∧ Ready .ctrlB s ∧ s.dataLen ≤ s.cfg.fifoDepth ∧
     ([0, 0] : List Byte).length = s.dataLen ∧
     s.env = okAnswers ([4, 0, 0, 0] ++ [0, 0] ++ [0]) ++ []) :=
  ⟨rfl, rfl, rfl, ready_begun_b .., by decide, rfl, rfl⟩

/-- Q1 (ready) and Q3's last poll (exhausted), with no data: the head has five lines. -/
theorem test_witness_CalcCrcPollAndResult :
    (let s := begun .ctrlB 0x45 0 [] [.ok 4]
     let z := { begun .ctrlB 0x45 0 [] [.ok 0] with seq := { op := some 0x45, pos := 7, crcI := 253 } }
     5 = (calcCrcHead s).length ∧ s.env = .ok 4 :: [] ∧ AtLine (5 + 1) (lineAt 6 s) ∧ AtLine (5 + 2) (lineAt 7 s) ∧
     (4 : Byte) &&& s.cfg.masks.divIrqCrc ≠ 0 ∧ 5 = (calcCrcHead z).length ∧ z.env = .ok 0 :: [] ∧ AtLine (5 + 2) z ∧
     (0 : Byte) &&& z.cfg.masks.divIrqCrc = 0 ∧ z.seq.crcI + 1 = z.cfg.crcPollMax ∧ AtLine (5 + 3) (lineAt 8 s) ∧
     AtLine (5 + 4) (lineAt 9 s) ∧ (lineAt 9 s).pins.sel = false) :=
  ⟨rfl, rfl, ⟨rfl, by decide⟩, ⟨rfl, by decide⟩, by decide, rfl, rfl, ⟨rfl, by decide⟩, by decide, by decide,
    ⟨rfl, by decide⟩, ⟨rfl, by decide⟩, rfl⟩

/-- Q1's last line: the device has answered K8's bytes. -/
theorem test_witness_CalcCrcAgreesWithCrc16 :
    (let s := { lineAt 11 (begun .ctrlB 0x45 0 [0x50, 0x00] [.ok 0xCD]) with locals := { lo := 0x57 } }
     AtLine ((calcCrcHead s).length + 4) s ∧ s.locals.lo = (crcA s.cfg s.data).setWidth 8 ∧
     s.env = .ok ((crcA s.cfg s.data >>> 8).setWidth 8) :: []) :=
  ⟨⟨rfl, by decide +kernel⟩, by decide +kernel, by decide +kernel⟩

/-- T1: lines 1 to 4, and the first and last program writes; line 4 with an empty program. -/
theorem test_witness_ResetLines :
    (let s := begun .ctrlB 0x46 0 [] [.ok 0x80]
     s.env = .ok 0x80 :: [] ∧ s.pins.sel = false ∧ Ready .ctrlB s ∧ AtLine 2 (lineAt 2 s) ∧ AtLine 3 (lineAt 3 s) ∧
     AtLine 4 (lineAt 4 s) ∧ s.cfg.resetProgram ≠ [] ∧ AtLine (5 + 0) (lineAt 5 s) ∧
     s.cfg.resetProgram[0]? = some (0x2A, 0x8D) ∧ AtLine (5 + 5) (lineAt 10 s) ∧
     s.cfg.resetProgram[5]? = some (0x11, 0x3D)) ∧
    (let z := { lineAt 4 (begun .ctrlB 0x46 0 [] [.ok 0x80]) with
       cfg := { Config.standard .ctrlB with resetProgram := [] } }
     z.env = .ok 0x80 :: [] ∧ z.pins.sel = false ∧ AtLine 4 z ∧ z.cfg.resetProgram = []) :=
  ⟨⟨rfl, rfl, ready_begun_b .., ⟨rfl, by decide⟩, ⟨rfl, by decide⟩, ⟨rfl, by decide⟩, by decide, ⟨rfl, by decide⟩, rfl,
    ⟨rfl, by decide⟩, rfl⟩, rfl, rfl, ⟨rfl, by decide⟩, rfl⟩

theorem test_witness_HostRegistersAreNeverWritten :
    (∃ t, exec .isReady (begun .ctrlA 0x32 0 [] []) = .next t) ∧ (∃ t, step (begun .ctrlA 0x32 0 [] []) = .next t) :=
  ⟨⟨_, rfl⟩, ⟨_, rfl⟩⟩

theorem test_witness_FrameOfBufferCommands :
    (let s := begun .ctrlA 0x10 0 [0x00] []
     Instr.crc16.opcode.backend = none ∧ s.pins.sel = false ∧ (∃ t, exec .crc16 s = .next t) ∧
     Instr.frameBuild .h2c ≠ .ackMatch) := ⟨rfl, rfl, ⟨_, rfl⟩, nofun⟩

theorem test_witness_FrameOfLinkCommands :
    (let s := lineAt 2 (begun .ctrlA 0x32 0 [] [.fail])
     Instr.isReady.opcode.backend = some .ctrlA ∧ (∃ t, exec .isReady s = .next t) ∧ Instr.isReady.opcode ≠ .exchange ∧
     Instr.isReady.opcode ≠ .waitReady ∧ Instr.isReady.opcode ≠ .sendCheckAck) :=
  ⟨rfl, ⟨_, rfl⟩, nofun, nofun, nofun⟩

theorem test_witness_FrameOfRegisterCommands :
    (let s := begun .ctrlB 0x440 0 [] [.ok 7]
     (Instr.readReg 4).opcode.backend = some .ctrlB ∧ s.pins.sel = false ∧ (∃ t, exec (.readReg 4) s = .next t) ∧
     (∀ cmd, Instr.readReg 4 ≠ .executeCommand cmd) ∧ Instr.readReg 4 ≠ .calcCrc) ∧
    (let s := lineAt 2 (begun .ctrlB 0xC44 0 [] [.ok 0])
     (Instr.executeCommand 0xC).opcode.backend = some .ctrlB ∧ s.pins.sel = false ∧ s.seq.pos ≠ 0 ∧
     ∃ t, exec (.executeCommand 0xC) s = .next t) :=
  ⟨⟨rfl, rfl, ⟨_, rfl⟩, nofun, nofun⟩, rfl, rfl, nofun, _, rfl⟩

/-- A busy state (IS_READY about to select) and an idle one. -/
theorem test_witness_EveryStepReleasesWhenIdle :
    (IdleReleased (begun .ctrlA 0x32 0 [] []) ∧ ∃ t, step (begun .ctrlA 0x32 0 [] []) = .next t) ∧
    (IdleReleased (idle .ctrlA) ∧ ∃ t, step (idle .ctrlA) = .next t) :=
  ⟨⟨⟨rfl, nofun, fun _ _ => rfl⟩, _, rfl⟩, ⟨rfl, fun _ => rfl, nofun⟩, _, rfl⟩

/-- READ_DATA 2 in its window, one byte received. -/
theorem test_witness_EveryStepKeepsBuffersBounded :
    (let s := { lineAt 4 (begun .ctrlA 0x00020031 0 [0x02] [.ok 7]) with locals := { rx := [7] } }
     s.cfg.Wf ∧ BuffersBounded s ∧ LatchCurrent s ∧ ∃ t, step s = .next t) := by
  refine ⟨by decide, ⟨rfl, by decide, by decide, nofun, fun _ => ⟨rfl, ?_⟩⟩, fun _ => rfl, _, rfl⟩
  intro i h
  have e : i = .readData 2 := (Except.ok.inj h).symm
  subst e
  exact ⟨rfl, fun _ => by decide, fun _ => rfl⟩

/-- READ_DATA 2 at its last line, and a refused host write. -/
theorem test_witness_EveryStepKeepsPositionValid :
    (let s := lineAt 5 (begun .ctrlA 0x00020031 0 [] [])
     PositionValid s ∧ ∃ t, step s = .next t) := by
  refine ⟨fun _ i h => ?_, _, rfl⟩
  have e : i = .readData 2 := (Except.ok.inj h).symm
  subst e
  exact .inr (.inl (by decide))

theorem test_witness_MachineNeverFaults :
    (let s := { begun .ctrlA 0x32 0 [] [] with host := [.writeW0 0x10] }
     PositionValid s ∧ step s = .refused .writeWhileBusy) ∧
    (let s := { idle .ctrlA with cfg := { backend := .ctrlA, bufMax := 2 }, host := [.loadBuf [0, 0, 0]] }
     PositionValid s ∧ step s = .refused .bufTooLong) :=
  ⟨⟨fun _ _ _ => .inl rfl, rfl⟩, nofun, rfl⟩

end Sys2Proof.Tests
end

section
/-! Block reset (10_state.md R42; 70_reset_and_hazards.md R230): the reset values, field by field, and the step at RST. -/

namespace Sys2Proof.Machine

/-! ### State.initial: the table of R42 -/

@[simp] theorem initial_busy (c : Config) : (State.initial c).busy = false := rfl
@[simp] theorem initial_w0 (c : Config) : (State.initial c).w0 = 0 := rfl
@[simp] theorem initial_w1 (c : Config) : (State.initial c).w1 = 0 := rfl
@[simp] theorem initial_ibuf (c : Config) : (State.initial c).ibuf = [] := rfl
@[simp] theorem initial_ilen (c : Config) : (State.initial c).ilen = 0 := rfl
@[simp] theorem initial_res (c : Config) : (State.initial c).res = {} := rfl
@[simp] theorem initial_xstate (c : Config) : (State.initial c).xstate = .idle := rfl
@[simp] theorem initial_seq (c : Config) : (State.initial c).seq = {} := rfl
@[simp] theorem initial_scratch (c : Config) : (State.initial c).scratch = {} := rfl
@[simp] theorem initial_crcr (c : Config) : (State.initial c).crcr = c.crcPreset := rfl
@[simp] theorem initial_pins (c : Config) : (State.initial c).pins = {} := rfl
@[simp] theorem initial_trace (c : Config) : (State.initial c).trace = [] := rfl

@[simp] theorem standard_crcPreset (b : Backend) : (Config.standard b).crcPreset = 0x6363 := rfl

/-! ### RST -/

/-- RST is taken whatever the block is doing: BUSY is not looked at. -/
theorem step_rst {s : State} {rest : List HostAction} (h : s.host = .rst :: rest) :
    step s = .next (blockReset { s with host := rest }) := by simp [step, machineStep, hostMove, h]

/-- Settles O13: the step at RST is `blockReset`, whose block state is that of `State.initial`. -/
theorem blockResetRestoresResetValues : Obligations.BlockResetRestoresResetValues := by
  intro s rest h
  refine ⟨_, step_rst h, ?_⟩
  simp [blockReset_eq, ClearedBesideRval]

/-- Settles O14: power-on is `State.initial` at the standard configuration, whose CRC preset is 0x6363 on either backend. -/
theorem resetStateValues : Obligations.ResetStateValues :=
  ⟨initial_busy _, initial_w0 _, initial_w1 _, initial_ibuf _, initial_ilen _, initial_res _, initial_xstate _, initial_seq _,
    initial_scratch _, (initial_crcr _).trans (standard_crcPreset _), initial_pins _, initial_trace _⟩

end Sys2Proof.Machine
end

section
/-! The host's side of the state (20_memory.md R66; 10_state.md R23, R38): what no command writes, and what no step writes. -/

namespace Sys2Proof.Machine

/-! ### SameHostSide, and the parts of a command that keep it -/

theorem SameHostSide.trans {s u t : State} (h : SameHostSide s u) (g : SameHostSide u t) : SameHostSide s t := by
  unfold SameHostSide at *; simp_all

theorem SameHostSide.of_writes {s u : State} (h : Writes s u) : SameHostSide s u := by
  rw [h]; exact ⟨rfl, rfl, rfl, rfl, rfl, rfl, rfl, rfl⟩

theorem sameHostSide_perform (p : Prim) (s : State) : SameHostSide s (perform p s).2 := by simp [SameHostSide]

theorem sameHostSide_finish (s : State) : SameHostSide s (finish s) := by simp [SameHostSide]

theorem sameHostSide_raise (st : Status) (info : Option Half) (s : State) : SameHostSide s (raise st info s) := by
  simp [SameHostSide]

/-! ### The commands of 40_frame.md and 42_crc.md -/

/-- A command with no backend of its own writes results and CRCR only, and then ends by `finish` or `raise` (30 R76). -/
theorem exec_buffer_ends {i : Instr} (h : i.opcode.backend = none) {s t : State} (ht : exec i s = .next t) :
    ∃ u, u = { s with res := u.res, crcr := u.crcr } ∧ Ends u (.halt t) := by
  cases i with
  | crc16 => cases ht; exact ⟨_, rfl, .finish⟩
  | crcAppend =>
    simp only [exec, execCrcAppend] at ht
    split at ht <;> cases ht
    · exact ⟨s, rfl, .raise ..⟩
    · exact ⟨_, rfl, .finish⟩
  | crcCheck =>
    simp only [exec, execCrcCheck] at ht
    split at ht
    · cases ht; exact ⟨s, rfl, .raise ..⟩
    · split at ht <;> cases ht
      · exact ⟨_, rfl, .finish⟩
      · exact ⟨_, rfl, .raise ..⟩
  | frameBuild dir =>
    simp only [exec, execFrameBuild] at ht
    split at ht <;> cases ht
    · exact ⟨s, rfl, .raise ..⟩
    · exact ⟨_, rfl, .finish⟩
  | frameParse dir =>
    simp only [exec, execFrameParse] at ht
    split at ht <;> cases ht
    · exact ⟨_, rfl, .finish⟩
    · exact ⟨_, rfl, .raise ..⟩
  | ackMatch => cases ht; exact ⟨_, rfl, .finish⟩
  | _ => cases h

/-! ### exec and step -/

/-- No command writes the host's side: a buffer command by its one update, a transport command part by part. -/
theorem exec_sameHostSide {i : Instr} {s t : State} (ht : exec i s = .next t) : SameHostSide s t := by
  cases hb : i.opcode.backend with
  | none =>
    obtain ⟨u, hu, he⟩ := exec_buffer_ends hb ht
    have hsu : SameHostSide s u := by rw [hu]; exact ⟨rfl, rfl, rfl, rfl, rfl, rfl, rfl, rfl⟩
    cases he with
    | finish => exact hsu.trans (sameHostSide_finish u)
    | raise st info => exact hsu.trans (sameHostSide_raise st info u)
  | some b =>
    exact exec_rel_of_writes hb (fun _ _ _ => .trans) (fun _ l _ => sameHostSide_perform l.prim)
      (fun _ _ => .of_writes) (fun _ _ => ⟨rfl, rfl, rfl, rfl, rfl, rfl, rfl, rfl⟩) sameHostSide_finish
      sameHostSide_raise ht

/-- The block's step, idle, illegal or running a command, keeps the configuration. -/
theorem blockStep_cfg {s t : State} (h : blockStep exec s = .next t) : t.cfg = s.cfg := by
  obtain ⟨_, rfl⟩ | ⟨_, _, rfl⟩ | ⟨i, _, _, hx⟩ := blockStep_next h
  · rfl
  · exact raise_cfg ..
  · obtain ⟨hcfg, _⟩ := exec_sameHostSide hx
    exact hcfg

/-- No host action writes the configuration, RST included (10 R38). -/
theorem hostMove_acted_cfg {s t : State} (h : hostMove s = .acted t) : t.cfg = s.cfg := by
  obtain ⟨_, _, _, rfl⟩ | ⟨_, _, rfl⟩ | ⟨_, _, _, rfl⟩ | ⟨_, _, _, _, _, rfl⟩ | ⟨_, _, _, _, rfl⟩ | ⟨_, _, _, _, rfl⟩ :=
    hostMove_acted h <;> rfl

theorem step_cfg {s t : State} (h : step s = .next t) : t.cfg = s.cfg := by
  obtain ha | ⟨u, hu, hb⟩ := step_next h
  · exact hostMove_acted_cfg ha
  · obtain ⟨hs, rfl⟩ := hostMove_block hu
    exact (blockStep_cfg hb).trans rfl

/-- Settles O52: `exec` keeps the host's side part by part, and neither the host's actions nor the block write the configuration. -/
theorem hostRegistersAreNeverWritten : Obligations.HostRegistersAreNeverWritten :=
  ⟨fun _ _ _ => exec_sameHostSide, fun _ _ => step_cfg⟩

end Sys2Proof.Machine
end

section
/-! The encoding of 30_encoding.md: illegal commands (R75), commands of the other backend (R76), the pseudo-instructions (R87)
and the address byte (R83). -/

namespace Sys2Proof.Machine

/-! ### Ends by `raise` that come before any transaction -/

/-- A `raise` outside a select window adds no event, so all it leaves is the end of the command (60 R203). -/
theorem raise_before_transaction (st : Status) (info : Half) {s : State} (h : s.pins.sel = false) :
    EndedWith st (raise st (some info) s) ∧ (raise st (some info) s).res.rval = info ∧
      ClearedBesideRval (raise st (some info) s) ∧ NoTransaction s (raise st (some info) s) ∧
      (raise st (some info) s).xstate = s.xstate := by
  have hev : closeEvents s.pins = [] := closeEvents_of_released s.pins h
  simp [EndedWith, ClearedBesideRval, NoTransaction, hev]

/-! ### Illegal words (R75) -/

/-- No row of R74 has an opcode that R75 lists as unassigned. -/
theorem not_unassigned_code (o : Opcode) : ¬Unassigned o.code := by
  unfold Unassigned
  cases o <;> decide

theorem ofCode_of_unassigned {b : Byte} (h : Unassigned b) : Opcode.ofCode b = none := by
  cases ho : Opcode.ofCode b with
  | none => rfl
  | some o => exact absurd (code_of_ofCode ho ▸ h) (not_unassigned_code o)

theorem decodeWords_of_unassigned {w0 : Word} (w1 : Word) (h : Unassigned (opcField w0)) :
    decodeWords w0 w1 = .error (.unassignedOpcode (opcField w0)) := by
  simp [decodeWords, ofCode_of_unassigned h]

theorem decodeWords_of_zeroBits {w0 : Word} (w1 : Word) {o : Opcode} (ho : o.code = opcField w0)
    (h : w0 &&& o.format.zeroBits ≠ 0) : decodeWords w0 w1 = .error (.mustBeZero w0) := by
  simp only [decodeWords, ← ho, ofCode_code, if_neg h]

/-- With no host action pending, the step of an undecodable command raises E_ILLEGAL. -/
theorem step_of_fetch_error {s : State} {e : DecodeError} (hbusy : s.busy = true) (hhost : s.host = [])
    (h : fetch s = .error e) : step s = .next (raiseIllegal s) := by
  simp [step_block hhost, blockStep, hbusy, h]

/-- Settles O6: both cases of R75 fail to decode, and the `raise` of the step comes before any transaction. -/
theorem illegalCommandEnds : Obligations.IllegalCommandEnds := by
  intro s hbusy hhost hsel hillegal
  obtain ⟨e, he⟩ : ∃ e, fetch s = .error e := by
    obtain hu | ⟨o, -, ho, hz⟩ := hillegal
    · exact ⟨_, decodeWords_of_unassigned _ hu⟩
    · exact ⟨_, decodeWords_of_zeroBits _ ho hz⟩
  rw [BitVec.setWidth_eq_extractLsb' (by decide)]
  exact ⟨_, step_of_fetch_error hbusy hhost he, raise_before_transaction .illegal _ hsel⟩

/-! ### The other backend (R76) -/

/-- At its start, a transport command of the other backend raises E_BACKEND. -/
theorem exec_wrong_backend {i : Instr} {b : Backend} (h : i.opcode.backend = some b) {s : State} (hp : s.seq.pos = 0)
    (hb : s.cfg.backend ≠ b) : exec i s = .next (raise .backend (some (zextByte i.opcode.code)) s) := by
  rw [exec_transport h, enter_of_backend hp hb]; rfl

/-- A command marked "any" always ends in its one step, and a `raise` that ends it is not E_BACKEND; what it writes before is
`exec_buffer_ends`. -/
theorem exec_any_backend {i : Instr} (h : i.opcode.backend = none) (s : State) :
    ∃ u, exec i s = .next (finish u) ∨ ∃ st info, st ≠ .backend ∧ exec i s = .next (raise st info u) := by
  cases i with
  | crc16 => exact ⟨_, .inl rfl⟩
  | crcAppend =>
    simp only [exec, execCrcAppend]; split
    · exact ⟨_, .inr ⟨.parameter, _, nofun, rfl⟩⟩
    · exact ⟨_, .inl rfl⟩
  | crcCheck =>
    simp only [exec, execCrcCheck]; split
    · exact ⟨_, .inr ⟨.parameter, _, nofun, rfl⟩⟩
    · split
      · exact ⟨_, .inl rfl⟩
      · exact ⟨_, .inr ⟨.integrity, _, nofun, rfl⟩⟩
  | frameBuild dir =>
    simp only [exec, execFrameBuild]; split
    · exact ⟨_, .inr ⟨.parameter, _, nofun, rfl⟩⟩
    · exact ⟨_, .inl rfl⟩
  | frameParse dir =>
    simp only [exec, execFrameParse]; split
    · exact ⟨_, .inl rfl⟩
    · exact ⟨_, .inr ⟨.framing, _, nofun, rfl⟩⟩
  | ackMatch => exact ⟨_, .inl rfl⟩
  | _ => cases h

/-- Settles O7: the backend check of the start raises E_BACKEND, and no command without a backend column makes that check. -/
theorem wrongBackendEndsCommand : Obligations.WrongBackendEndsCommand := by
  refine ⟨fun i b s hi hp hb hsel => ⟨_, exec_wrong_backend hi hp hb, raise_before_transaction .backend _ hsel⟩,
    fun i s hi => ?_⟩
  obtain ⟨u, he | ⟨st, info, hst, he⟩⟩ := exec_any_backend hi s
  · exact ⟨_, he, finish_busy u, by simp⟩
  · exact ⟨_, he, raise_busy st info u, by simpa using hst⟩

/-! ### Commands with one rule -/

theorem Ends.state_cfg {u : State} {f : Flow} (h : Ends u f) : f.state.cfg = u.cfg := by
  cases h with
  | next => rfl
  | goto p => rfl
  | finish => exact finish_cfg u
  | raise st info => exact raise_cfg st info u

theorem Tame.state_cfg {f : State → Flow} (h : Tame f) (s : State) : (f s).state.cfg = s.cfg := by
  obtain ⟨u, hw, he⟩ := h s
  exact he.state_cfg.trans (by rw [hw])

/-- The rule's end matters to a flow only at the flow's own state. -/
theorem follow_congr_done {prog : List Line} {d d' : State → State} {f : Flow} (h : d f.state = d' f.state) :
    follow prog d f = follow prog d' f := by
  cases f with
  | next s => exact ite_congr rfl (fun _ => rfl) fun _ => h
  | goto p s => exact ite_congr rfl (fun _ => rfl) fun _ => h
  | halt s => rfl

/-- Two ends of a rule that agree in every state of the configuration give the same step of a tame program. -/
theorem runProgram_congr_done {prog : List Line} {d d' onFail : State → State} {s : State}
    (hprog : ∀ l ∈ prog, ∀ v, Tame (l.after v)) (h : ∀ u, u.cfg = s.cfg → d u = d' u) :
    runProgram prog d onFail s = runProgram prog d' onFail s := by
  cases hl : prog[s.seq.pos - 1]? with
  | none => simp [runProgram, hl]
  | some l =>
    rw [runProgram_of_line hl, runProgram_of_line hl]
    cases ha : (perform l.prim s).1 with
    | fail => rw [runLine_fail ha, runLine_fail ha]
    | ok v =>
      have hcfg := ((hprog l (List.mem_of_getElem? hl) v).state_cfg (perform l.prim s).2).trans (perform_cfg l.prim s)
      rw [runLine_ok ha, runLine_ok ha, follow_congr_done (h _ hcfg)]

/-- When the backend is the one needed, the opcode plays no part in the checks of the start. -/
theorem enter_congr_opcode {b : Backend} (o o' : Opcode) {limit : Option Nat} {onFail init : State → State} {s : State}
    (hb : s.cfg.backend = b) : enter b o limit onFail init s = enter b o' limit onFail init s := by
  simp [enter, hb]

/-- Two commands of the backend in use run alike when their rules agree in every state of its configuration. -/
theorem exec_congr_rule {i j : Instr} {b : Backend} (hi : i.opcode.backend = some b) (hj : j.opcode.backend = some b)
    {s : State} (hb : s.cfg.backend = b) (hlimit : limitOf i s = limitOf j s) (hinit : initOf i = initOf j)
    (hfail : failOf i = failOf j) (hlines : ∀ u, u.cfg = s.cfg → linesOf i u = linesOf j u)
    (hdone : ∀ u, u.cfg = s.cfg → doneOf i u = doneOf j u) : exec i s = exec j s := by
  have run : ∀ u, u.cfg = s.cfg →
      runProgram (linesOf i u) (doneOf i) (failOf j) u = runProgram (linesOf j u) (doneOf j) (failOf j) u :=
    fun u hu => hlines u hu ▸ runProgram_congr_done (tame_lines i u) fun w hw => hdone w (hw.trans hu)
  rw [exec_transport hi, exec_transport hj, hlimit, hinit, hfail, enter_congr_opcode i.opcode j.opcode hb]
  obtain ⟨-, he⟩ | ⟨-, -, he⟩ | ⟨k, -, -, -, he⟩ | ⟨-, -, -, he⟩ :=
    enter_cases b j.opcode (limitOf j s) (failOf j) (initOf j) s <;> rw [he]
  · exact run s rfl
  · rfl
  · rfl
  · exact run _ (by rw [writes_initOf j s])

/-! ### The pseudo-instructions (R87) -/

/-- An expansion reads nothing of the configuration but the register indices. -/
theorem expand_congr_regs {c c' : Config} (h : c.regs = c'.regs) (p : Pseudo) : p.expand c = p.expand c' := by
  cases p <;> simp [Pseudo.expand, h]

/-- The words of R87 with the register indices of R84. -/
theorem encode_expand {c : Config} (h : c.regs = {}) :
    encode (Pseudo.flushFifo.expand c) = [0x00800A42] ∧ encode (Pseudo.deviceIdle.expand c) = [0x00000141] ∧
    encode (Pseudo.antennaOnRmw.expand c) = [0x00031442] ∧ encode (Pseudo.antennaOffRmw.expand c) = [0x00031443] := by
  simp only [expand_congr_regs (c' := Config.standard .ctrlB) h]
  decide

/-- A line that is a pseudo-instruction's name assembles to the words of its expansion, in every configuration. -/
theorem assembleLine_pseudo (c : Config) : ∀ e ∈ pseudoNames,
    assembleLine c e.1.toList = some (.words (encode (e.2.expand c))) := by
  simp only [pseudoNames, List.forall_mem_cons]
  exact ⟨rfl, rfl, rfl, rfl, nofun⟩

/-- With the register indices and masks of R84, SET_BITMASK TXCONTROL, 0x03 has the rule of ANTENNA_ON (43 R164, R190). -/
theorem exec_antennaOnRmw {s : State} (hb : s.cfg.backend = .ctrlB) (hr : s.cfg.regs = {}) (hm : s.cfg.masks = {}) :
    exec (Pseudo.antennaOnRmw.expand s.cfg) s = exec .antennaOn s := by
  refine exec_congr_rule rfl rfl hb rfl rfl rfl (fun u hu => ?_) (fun u hu => ?_)
  · simp [linesOf, Pseudo.expand, setBitmaskLines, antennaOnLines, hu, hr, hm]
  · simp [doneOf, Pseudo.expand, setBitmaskDone, antennaOnDone, hu, hm]

/-- Likewise CLEAR_BITMASK TXCONTROL, 0x03 and ANTENNA_OFF (43 R165, R191). -/
theorem exec_antennaOffRmw {s : State} (hb : s.cfg.backend = .ctrlB) (hr : s.cfg.regs = {}) (hm : s.cfg.masks = {}) :
    exec (Pseudo.antennaOffRmw.expand s.cfg) s = exec .antennaOff s := by
  refine exec_congr_rule rfl rfl hb rfl rfl rfl (fun u hu => ?_) (fun u hu => ?_)
  · simp [linesOf, Pseudo.expand, clearBitmaskLines, antennaOffLines, hu, hr, hm]
  · simp [doneOf, Pseudo.expand, clearBitmaskDone, antennaOffDone, hu, hm]

/-- Settles O4: the words are those of the expansions, which the names assemble to, and the antenna pair shares its rules with
ANTENNA_ON and ANTENNA_OFF. -/
theorem pseudoInstructionsExpand : Obligations.PseudoInstructionsExpand := by
  refine ⟨fun c h => encode_expand h,
    fun s hb hr hm => ⟨exec_antennaOnRmw hb hr hm, exec_antennaOffRmw hb hr hm⟩, fun b e he => ?_⟩
  obtain ⟨hflush, hidle, hon, hoff⟩ := encode_expand (c := Config.standard b) rfl
  have names := assembleLine_pseudo (Config.standard b)
  simp only [pseudoNames, List.forall_mem_cons, hflush, hidle, hon, hoff] at names
  obtain ⟨aflush, aidle, aon, aoff, -⟩ := names
  simp only [List.mem_cons, List.not_mem_nil, or_false] at he
  obtain rfl | rfl | rfl | rfl := he
  · exact aflush
  · exact aidle
  · exact aon
  · exact aoff

/-! ### The address byte (R83) -/

/-- A register index shifted into bits 6 to 1 is its double; bit 7 stays free for the direction. -/
theorem regIndex_shiftLeft : ∀ reg : Byte, RegOk reg →
    (reg <<< 1) &&& 0x7E = BitVec.ofNat 8 (2 * reg.toNat) ∧
    ((reg <<< 1) &&& 0x7E) ||| 0x80 = BitVec.ofNat 8 (0x80 + 2 * reg.toNat) := by decide

theorem addrRead_of_regOk {c : Config} {reg : Byte} (hc : c.bus = {}) (h : RegOk reg) :
    addrRead c reg = BitVec.ofNat 8 (0x80 + 2 * reg.toNat) := by
  rw [addrRead, hc]; exact (regIndex_shiftLeft reg h).2

theorem addrWrite_of_regOk {c : Config} {reg : Byte} (hc : c.bus = {}) (h : RegOk reg) :
    addrWrite c reg = BitVec.ofNat 8 (2 * reg.toNat) := by
  rw [addrWrite, hc]; exact BitVec.or_zero.trans (regIndex_shiftLeft reg h).1

/-- Settles O5: the two address bytes, with the dummy byte of R83 and the data byte as they are. -/
theorem registerAddressByte : Obligations.RegisterAddressByte := by
  intro c reg v use hc h
  constructor
  · rw [regRead, addrRead_of_regOk hc h, hc]
  · rw [regWrite, addrWrite_of_regOk hc h]

end Sys2Proof.Machine
end

section
/-! The frame unit of 40_frame.md: byte sums (R100), parsing as checks (R103), the round trip (R105) and the three commands
(R102, R104, R107). -/

namespace Sys2Proof.Machine

/-! ### Byte sums (R100) -/

theorem byteSum_eq_sum (s : List Byte) : byteSum s = s.sum := List.sum_eq_foldl.symm

theorem cks8_eq_neg (s : List Byte) : cks8 s = -s.sum := by rw [cks8, byteSum_eq_sum, BitVec.neg_eq_not_add]; rfl

/-- A sum of bytes is the sum of their numbers modulo 256 (00 R10). -/
theorem toNat_sum (s : List Byte) : s.sum.toNat = (s.map BitVec.toNat).sum % 256 := by
  induction s with
  | nil => rfl
  | cons b s ih => simp [BitVec.toNat_add, ih]

theorem byteSum_eq_zero_iff (s : List Byte) : byteSum s = 0 ↔ (s.map BitVec.toNat).sum % 256 = 0 := by
  rw [byteSum_eq_sum, ← toNat_sum, ← BitVec.toNat_inj]; rfl

theorem add_eq_zero_iff_toNat (a b : Byte) : a + b = 0 ↔ (a.toNat + b.toNat) % 256 = 0 := by
  rw [← BitVec.toNat_inj, BitVec.toNat_add]; rfl

/-- A run whose sum survives the replacement of one byte had that byte already. -/
theorem getD_eq_of_sum_set {s : List Byte} {k : Nat} {x : Byte} (hk : k < s.length) (h : (s.set k x).sum = s.sum) :
    s.getD k 0 = x := by
  rw [List.sum_set', dif_pos hk, add_eq_left, neg_add_eq_zero] at h
  rw [List.getD_eq_getElem _ _ hk, h]

/-! ### Parse (R103) -/

/-- All seven checks of R103 pass. -/
structure PassesChecks (c : Config) (dir : Dir) (b : List Byte) : Prop where
  header : 6 ≤ b.length
  pre0 : b.getD 0 0 = c.frame.pre0
  pre1 : b.getD 1 0 = c.frame.pre1
  start : b.getD 2 0 = c.frame.start
  lcs : b.getD 3 0 + b.getD 4 0 = 0
  lenPos : b.getD 3 0 ≠ 0
  body : (b.getD 3 0).toNat + 6 ≤ b.length
  direction : b.getD 5 0 = tfi c dir
  dcs : byteSum ((b.drop 5).take ((b.getD 3 0).toNat + 1)) = 0

/-- Parse succeeds exactly when every check passes, with the LEN - 1 bytes after the direction byte. -/
theorem parseFrame_eq_ok_iff {c : Config} {dir : Dir} {b p : List Byte} :
    parseFrame c dir b = .ok p ↔ PassesChecks c dir b ∧ (b.drop 6).take ((b.getD 3 0).toNat - 1) = p := by
  constructor
  · intro h
    simp only [parseFrame] at h
    split_ifs at h with hheader hpre hlcs hlen hbody hdir hdcs
    obtain ⟨hpre0, hpre1, hstart⟩ := hpre
    exact ⟨⟨not_lt.mp hheader, hpre0, hpre1, hstart, not_not.mp hlcs, hlen, not_lt.mp hbody, not_not.mp hdir,
      not_not.mp hdcs⟩, Except.ok.inj h⟩
  · rintro ⟨h, rfl⟩
    have hpre := And.intro h.pre0 (And.intro h.pre1 h.start)
    simp only [parseFrame, if_neg h.header.not_gt, if_neg (not_not.mpr hpre), if_neg (not_not.mpr h.lcs),
      if_neg h.lenPos, if_neg h.body.not_gt, if_neg (not_not.mpr h.direction), if_neg (not_not.mpr h.dcs)]

theorem take_three_eq_iff {b : List Byte} (h : 6 ≤ b.length) (x y z : Byte) :
    b.take 3 = [x, y, z] ↔ b.getD 0 0 = x ∧ b.getD 1 0 = y ∧ b.getD 2 0 = z := by
  match b, h with
  | _ :: _ :: _ :: _, _ => simp

theorem getElem?_eq_some_iff_getD {b : List Byte} {k : Nat} (h : k < b.length) (x : Byte) :
    b[k]? = some x ↔ b.getD k 0 = x := by
  simp [List.getElem?_eq_getElem h]

/-- Settles O25: check by check, the conditions on bytes are those on natural numbers and slices. -/
theorem parseChecksInOrder : Obligations.ParseChecksInOrder := by
  refine ⟨fun c dir b len hlen => ?_, rfl⟩
  subst hlen
  unfold parseFrame
  refine ite_congr rfl (fun _ => rfl) fun hheader => ?_
  have h6 : 6 ≤ b.length := not_lt.mp hheader
  refine ite_congr (congrArg Not (propext (take_three_eq_iff h6 ..).symm)) (fun _ => rfl) fun _ => ?_
  refine ite_congr (congrArg Not (propext (add_eq_zero_iff_toNat ..))) (fun _ => rfl) fun _ => ?_
  refine ite_congr (propext BitVec.toNat_inj.symm) (fun _ => rfl) fun _ => ?_
  refine ite_congr rfl (fun _ => rfl) fun _ => ?_
  refine ite_congr (congrArg Not (propext (getElem?_eq_some_iff_getD h6 _).symm)) (fun _ => rfl) fun _ => ?_
  rw [List.drop_take, List.drop_take]
  exact ite_congr (congrArg Not (propext (byteSum_eq_zero_iff _))) (fun _ => rfl) fun _ => rfl

/-! ### The round trip (R105) -/

/-- A built frame up to its DCS: what Parse looks at. -/
def frameBeforePost (c : Config) (dir : Dir) (p : List Byte) : List Byte :=
  [c.frame.pre0, c.frame.pre1, c.frame.start, frameLen p, cks8 [frameLen p], tfi c dir] ++ p ++ [cks8 (tfi c dir :: p)]

theorem buildFrame_eq_append (c : Config) (dir : Dir) (p : List Byte) :
    buildFrame c dir p = frameBeforePost c dir p ++ [c.frame.post] := by simp [buildFrame, frameBeforePost]

@[simp] theorem frameBeforePost_length (c : Config) (dir : Dir) (p : List Byte) :
    (frameBeforePost c dir p).length = p.length + 7 := by simp [frameBeforePost]

theorem frameLen_toNat {p : List Byte} (h : p.length ≤ 254) : (frameLen p).toNat = p.length + 1 := by
  rw [frameLen, BitVec.toNat_ofNat, Nat.mod_eq_of_lt (by omega)]

/-- Whatever follows the DCS, the frame parses to its payload. -/
theorem parseFrame_frameBeforePost_append (c : Config) (dir : Dir) {p : List Byte} (h : p.length ≤ 254)
    (rest : List Byte) : parseFrame c dir (frameBeforePost c dir p ++ rest) = .ok p := by
  have hlen := frameLen_toNat h
  have hpos : frameLen p ≠ 0 := fun h0 => by rw [h0] at hlen; cases hlen
  refine parseFrame_eq_ok_iff.mpr ⟨⟨?_, rfl, rfl, rfl, ?_, hpos, ?_, rfl, ?_⟩, ?_⟩
  · rw [List.length_append, frameBeforePost_length]; omega
  · show frameLen p + cks8 [frameLen p] = 0
    simp [cks8_eq_neg]
  · show (frameLen p).toNat + 6 ≤ _
    simp [hlen]
  · show byteSum (((tfi c dir :: p ++ [cks8 (tfi c dir :: p)]) ++ rest).take ((frameLen p).toNat + 1)) = 0
    rw [List.take_append_of_le_length (by simp [hlen]), List.take_of_length_le (by simp [hlen]), byteSum_eq_sum,
      List.sum_append, List.sum_singleton, cks8_eq_neg, add_neg_cancel]
  · show ((p ++ [_]) ++ rest).take ((frameLen p).toNat - 1) = p
    rw [List.append_assoc, List.take_left' (by simp [hlen])]

/-- Two runs that both pass the checks and differ at most in one byte up to the DCS are equal there: each of these bytes is fixed
by the others through the preamble, LEN + LCS, or the sum of TFI, payload and DCS. -/
theorem PassesChecks.getD_eq_of_set {c : Config} {dir : Dir} {b : List Byte} {k : Nat} {x : Byte}
    (hb : PassesChecks c dir b) (hx : PassesChecks c dir (b.set k x)) (hk : k ≤ (b.getD 3 0).toNat + 5) :
    b.getD k 0 = x := by
  have hbody := hb.body
  have hkb : k < b.length := by omega
  have hself : (b.set k x).getD k 0 = x := by simp [hkb]
  have hne : ∀ {j}, k ≠ j → (b.set k x).getD j 0 = b.getD j 0 := fun h => by simp [List.getElem?_set_ne h]
  obtain rfl | rfl | rfl | rfl | rfl | ⟨j, rfl⟩ :
      k = 0 ∨ k = 1 ∨ k = 2 ∨ k = 3 ∨ k = 4 ∨ ∃ j, k = 5 + j := by
    by_cases h : 5 ≤ k
    · exact .inr (.inr (.inr (.inr (.inr (Nat.exists_eq_add_of_le h)))))
    · omega
  · exact hb.pre0.trans (hx.pre0.symm.trans hself)
  · exact hb.pre1.trans (hx.pre1.symm.trans hself)
  · exact hb.start.trans (hx.start.symm.trans hself)
  · have h := hx.lcs
    rw [hself, hne (by decide)] at h
    exact add_right_cancel (hb.lcs.trans h.symm)
  · have h := hx.lcs
    rw [hself, hne (by decide)] at h
    exact add_left_cancel (hb.lcs.trans h.symm)
  · have h := hx.dcs
    rw [hne (by omega), List.drop_set, if_neg (by omega), List.take_set, Nat.add_sub_cancel_left] at h
    have hsum := h.trans hb.dcs.symm
    rw [byteSum_eq_sum, byteSum_eq_sum] at hsum
    have hj := getD_eq_of_sum_set (by rw [List.length_take, List.length_drop]; omega) hsum
    rwa [List.getD_eq_getElem?_getD, List.getElem?_take_of_lt (by omega), List.getElem?_drop,
      ← List.getD_eq_getElem?_getD] at hj

/-- A single changed byte before the postamble makes Parse fail. -/
theorem parseFrame_set_eq_error {c : Config} {dir : Dir} {p : List Byte} (h : p.length ≤ 254) {k : Nat} {x : Byte}
    (hk : k ≤ 6 + p.length) (hx : (buildFrame c dir p)[k]? ≠ some x) :
    ∃ e, parseFrame c dir ((buildFrame c dir p).set k x) = .error e := by
  cases hparse : parseFrame c dir ((buildFrame c dir p).set k x) with
  | error e => exact ⟨e, rfl⟩
  | ok q =>
    have hb := parseFrame_frameBeforePost_append c dir h [c.frame.post]
    rw [← buildFrame_eq_append] at hb
    have hlen : ((buildFrame c dir p).getD 3 0).toNat = p.length + 1 := frameLen_toNat h
    have hbyte := (parseFrame_eq_ok_iff.mp hb).1.getD_eq_of_set (parseFrame_eq_ok_iff.mp hparse).1 (by omega)
    exact absurd ((getElem?_eq_some_iff_getD (by simp; omega) x).mpr hbyte) hx

theorem buildFrame_dcs (c : Config) (dir : Dir) (p : List Byte) :
    (buildFrame c dir p).getD (6 + p.length) 0 = cks8 (tfi c dir :: p) := by
  rw [buildFrame_eq_append, Nat.add_comm]; simp [frameBeforePost]

theorem cks8_toNat (s : List Byte) : (cks8 s).toNat = (256 - (s.map BitVec.toNat).sum % 256) % 256 := by
  rw [cks8_eq_neg, BitVec.toNat_neg, toNat_sum]

/-- Settles O26: the frame parses whatever byte follows the DCS, and each byte before the postamble is fixed by the others. -/
theorem frameRoundTrip : Obligations.FrameRoundTrip := by
  intro c dir p hp hmax
  have h : p.length ≤ 254 := hp.trans hmax
  refine ⟨?_, ?_, fun k x => parseFrame_set_eq_error h, fun x => ?_⟩
  · rw [buildFrame_eq_append, parseFrame_frameBeforePost_append c dir h]
  · rw [buildFrame_dcs, cks8_toNat, List.map_cons, List.sum_cons]
  · rw [buildFrame_eq_append, List.set_append_right _ _ (by simp; omega), parseFrame_frameBeforePost_append c dir h]

/-! ### The commands -/

theorem finish_endedWith (s : State) : EndedWith .ok (finish s) := by simp [EndedWith]

theorem raise_endedWith (st : Status) (info : Option Half) (s : State) : EndedWith st (raise st info s) := by
  simp [EndedWith]

theorem raise_clearedBesideRval (st : Status) (info : Option Half) (s : State) :
    ClearedBesideRval (raise st info s) := by simp [ClearedBesideRval]

theorem finish_noTransaction {s : State} (h : s.pins.sel = false) : NoTransaction s (finish s) := by
  simp [NoTransaction, closeEvents_of_released _ h]

/-- Settles O22: within the limit the rule ends by `finish`, above it by `raise`. -/
theorem frameBuildResult : Obligations.FrameBuildResult := by
  intro dir s hsel
  constructor
  · intro h
    have hexec : exec (.frameBuild dir) s = .next (finish { s with res := { s.res with
        rdata := buildFrame s.cfg dir s.data, rlen := s.dataLen + 8 } }) := by
      simp [exec, execFrameBuild, exceeding_of_le h]
    exact ⟨_, hexec, finish_endedWith _, finish_noTransaction hsel, finish_res _⟩
  · intro h
    have hexec : exec (.frameBuild dir) s = .next (raise .parameter (some (zext16 s.dataLen)) s) := by
      simp [exec, execFrameBuild, exceeding_of_lt h]
    exact ⟨_, hexec, raise_before_transaction .parameter _ hsel⟩

theorem zext16_reason (e : ParseError) : zext16 e.reason = BitVec.ofNat 16 e.reason := by cases e <;> rfl

/-- Settles O23: the rule ends by `finish` when Parse succeeds and by `raise` with the reason when it does not. -/
theorem frameParseResult : Obligations.FrameParseResult := by
  intro dir s
  cases hparse : parseFrame s.cfg dir s.data with
  | ok p =>
    have hexec : exec (.frameParse dir) s =
        .next (finish { s with res := { s.res with rdata := p, rlen := p.length } }) := by
      simp [exec, execFrameParse, hparse]
    refine ⟨_, hexec, ?_, nofun⟩
    rintro _ ⟨⟩
    exact ⟨finish_endedWith _, finish_res _⟩
  | error e =>
    have hexec : exec (.frameParse dir) s =
        .next (raise .framing (some (zext16 e.reason)) { s with res.rval := zext16 e.reason }) := by
      simp [exec, execFrameParse, hparse]
    refine ⟨_, hexec, nofun, ?_⟩
    rintro _ ⟨⟩
    exact ⟨raise_endedWith .., by rw [raise_res, Option.getD_some, zext16_reason], raise_clearedBesideRval ..⟩

/-- AckEq byte by byte (R106), for an ACK of six bytes. -/
theorem ackEq_iff_getElem? {c : Config} (hc : c.ack.length = 6) (b : List Byte) :
    ackEq c b = true ↔ b.length = 6 ∧ ∀ k < 6, b[k]? = c.ack[k]? := by
  rw [ackEq_iff]
  refine and_congr_right fun hb => ⟨fun h k _ => by rw [h], fun h => List.ext_getElem? fun k => ?_⟩
  by_cases hk : k < 6
  · exact h k hk
  · rw [List.getElem?_eq_none (by omega), List.getElem?_eq_none (by omega)]

/-- Settles O24: RBOOL is AckEq of the buffer, and `finish` keeps it. -/
theorem ackMatchResult : Obligations.AckMatchResult := by
  intro s hc
  have hexec : exec .ackMatch s = .next (finish { s with res.rbool := ackEq s.cfg s.data }) := rfl
  refine ⟨_, hexec, finish_endedWith _, ?_⟩
  rw [finish_res]
  exact ⟨ackEq_iff_getElem? hc s.data, rfl, rfl, rfl, rfl⟩

end Sys2Proof.Machine
end

section
/-! The CRC unit of 42_crc.md: a 16-bit value and its two bytes (R143), what one byte and a run do to the register (R141, R142),
and the commands CRC_APPEND and CRC_CHECK (R145, R146). -/

namespace Sys2Proof.Machine

/-! ### A 16-bit value as its high and low byte (R143) -/

theorem high_append_low (c : Half) : (c >>> 8).setWidth 8 ++ c.setWidth 8 = c := by
  rw [BitVec.setWidth_ushiftRight_eq_extractLsb, BitVec.setWidth_eq_extractLsb' (by decide)]
  exact BitVec.extractLsb'_append_extractLsb'

theorem zextByte_eq_zero_append (b : Byte) : zextByte b = 0#8 ++ b := BitVec.setWidth_eq_append (by decide)

theorem zextByte_shiftLeft_eight (b : Byte) : zextByte b <<< 8 = b ++ 0#8 := by
  rw [← packBytes_eq]
  exact BitVec.or_zero.symm

theorem append_ushiftRight_eight (hi lo : Byte) : (hi ++ lo) >>> 8 = zextByte hi := by
  ext i h
  rw [BitVec.getElem_ushiftRight, BitVec.getLsbD_append, if_neg (by omega), Nat.add_sub_cancel_left]
  simp [zextByte]

theorem append_setWidth_eight (hi lo : Byte) : (hi ++ lo : Half).setWidth 8 = lo := BitVec.setWidth_append_eq_right

theorem append_xor_zextByte (hi lo b : Byte) : (hi ++ lo) ^^^ zextByte b = hi ++ (lo ^^^ b) := by
  rw [zextByte_eq_zero_append, BitVec.xor_append, BitVec.xor_zero]

/-! ### One byte (R141) -/

theorem crcByte_append (p : Half) (hi lo b : Byte) : crcByte p (hi ++ lo) b = crcShift8 p (hi ++ (lo ^^^ b)) := by
  rw [crcByte_eq, append_xor_zextByte]

theorem crcShift8_append_zero (p : Half) (hi : Byte) : crcShift8 p (hi ++ 0#8) = zextByte hi := by
  rw [← zextByte_shiftLeft_eight, crcShift8_high]

/-- The high half is shifted down; only the low half meets the polynomial. -/
theorem crcShift8_append (p : Half) (hi lo : Byte) :
    crcShift8 p (hi ++ lo) = zextByte hi ^^^ crcShift8 p (zextByte lo) := by
  rw [← crcShift8_append_zero p hi, ← crcShift8_xor, append_xor_zextByte, BitVec.zero_xor]

theorem crcByte_xor (p x y : Half) (a b : Byte) :
    crcByte p x a ^^^ crcByte p y b = crcByte p (x ^^^ y) (a ^^^ b) := by
  have hbytes : zextByte (a ^^^ b) = zextByte a ^^^ zextByte b := BitVec.setWidth_xor
  rw [crcByte_eq, crcByte_eq, crcByte_eq, ← crcShift8_xor, hbytes]
  ac_rfl

theorem crcShift8_zero (p : Half) : crcShift8 p 0#16 = 0 := Function.iterate_fixed (crcShift_zero p) 8

section TopBitSet

/-! With the polynomial's top bit set, the eight shifts lose nothing. -/

variable {p : Half} (hp : p.getLsbD 15 = true)
include hp

theorem crcByte_left_injective {x y : Half} {b : Byte} (h : crcByte p x b = crcByte p y b) : x = y :=
  (BitVec.xor_left_inj _).mp (crcShift8_injective hp h)

theorem crcByte_right_injective {x : Half} {a b : Byte} (h : crcByte p x a = crcByte p x b) : a = b := by
  have hbytes : zextByte a = zextByte b := (BitVec.xor_right_inj x).mp (crcShift8_injective hp h)
  rw [zextByte_eq_zero_append, zextByte_eq_zero_append] at hbytes
  exact (BitVec.append_right_inj _).mp hbytes

/-- Two bytes bring the register to 0 exactly when they are its low and then its high half: the first must clear the low half,
the shifts bring the high half down, and the second must clear that. -/
theorem crcByte_crcByte_eq_zero_iff {c : Half} {lo hi : Byte} :
    crcByte p (crcByte p c lo) hi = 0 ↔ hi ++ lo = c := by
  have hzero : crcByte p (crcByte p (hi ++ lo) lo) hi = 0 := by
    rw [crcByte_append, BitVec.xor_self, crcShift8_append_zero, crcByte_eq, BitVec.xor_self, crcShift8_zero]
  constructor
  · intro h
    exact crcByte_left_injective hp (crcByte_left_injective hp (hzero.trans h.symm))
  · rintro rfl
    exact hzero

end TopBitSet

/-! ### A run (R142) -/

theorem foldl_crcByte_xor (p : Half) : ∀ {s t : List Byte} (x y : Half), s.length = t.length →
    s.foldl (crcByte p) x ^^^ t.foldl (crcByte p) y = (List.zipWith (· ^^^ ·) s t).foldl (crcByte p) (x ^^^ y)
  | [], [], _, _, _ => rfl
  | a :: s, b :: t, x, y, h => by
    rw [List.foldl_cons, List.foldl_cons, foldl_crcByte_xor p _ _ (Nat.succ.inj h), crcByte_xor]
    rfl

/-- The difference of two CRCs is the CRC, from 0, of the difference of the runs (R142 item 3). -/
theorem crcA_xor (c : Config) {s t : List Byte} (h : s.length = t.length) :
    crcA c s ^^^ crcA c t = (List.zipWith (· ^^^ ·) s t).foldl (crcByte c.crcPolyRefl) 0 := by
  rw [crcA, crcA, foldl_crcByte_xor _ _ _ h, BitVec.xor_self]
  rfl

theorem foldl_crcByte_injective {p : Half} (hp : p.getLsbD 15 = true) (s : List Byte) {x y : Half}
    (h : s.foldl (crcByte p) x = s.foldl (crcByte p) y) : x = y := by
  induction s generalizing x y with
  | nil => exact h
  | cons b s ih => exact crcByte_left_injective hp (ih h)

/-- A changed byte changes the register, and the bytes after it keep the difference (R142 item 4). -/
theorem eq_getElem_of_crcA_set {c : Config} (hp : c.crcPolyRefl.getLsbD 15 = true) {s : List Byte} {k : Nat} {x : Byte}
    (hk : k < s.length) (h : crcA c (s.set k x) = crcA c s) : x = s[k] := by
  have hs : s = s.take k ++ s[k] :: s.drop (k + 1) := by rw [List.cons_getElem_drop_succ, List.take_append_drop]
  rw [List.set_eq_take_append_cons_drop, if_pos hk] at h
  conv at h => rhs; rw [hs]
  simp only [crcA, List.foldl_append, List.foldl_cons] at h
  exact crcByte_right_injective hp (foldl_crcByte_injective hp _ h)

/-- The residue (R142 item 2), in both directions. -/
theorem crcA_append_pair_eq_zero_iff {c : Config} (hp : c.crcPolyRefl.getLsbD 15 = true) (d : List Byte) (lo hi : Byte) :
    crcA c (d ++ [lo, hi]) = 0 ↔ hi ++ lo = crcA c d := by
  rw [← crcByte_crcByte_eq_zero_iff hp, crcA, List.foldl_append]
  rfl

/-- Settles O19: the residue, linearity and the single-byte change are the three lemmas on runs above, for P_CRC_POLY_REFL, whose top
bit is set. -/
theorem crcProperties : Obligations.CrcProperties := by
  intro c s hpreset hpoly
  have hp : c.crcPolyRefl.getLsbD 15 = true := by rw [hpoly]; decide
  refine ⟨hpreset, (crcA_append_pair_eq_zero_iff hp s _ _).mpr (high_append_low _), ?_, ?_⟩
  · intro s' u u' hs' hu hu' hdiff
    rw [crcA_xor c hs'.symm, crcA_xor c (hu.trans hu'.symm), hdiff]
  · intro k x hk hx h
    exact hx (eq_getElem_of_crcA_set hp hk h)

/-! ### The byte-wise form (R141) -/

/-- From a cleared register the two forms agree, byte by byte. -/
theorem crcShift8_zextByte_eq_crcByteFast : ∀ b : Byte, crcShift8 0x8408 (zextByte b) = crcByteFast 0 b := by
  decide

/-- The byte-wise form, too, shifts the high half down and XORs in what the low half and the byte give. -/
theorem crcByteFast_append (hi lo b : Byte) : crcByteFast (hi ++ lo) b = zextByte hi ^^^ crcByteFast 0 (lo ^^^ b) := by
  simp [crcByteFast, append_ushiftRight_eight, append_setWidth_eight, BitVec.xor_comm b, BitVec.xor_assoc]

theorem crcByte_eq_crcByteFast (c : Half) (b : Byte) : crcByte 0x8408 c b = crcByteFast c b := by
  rw [← high_append_low c, crcByte_append, crcShift8_append, crcShift8_zextByte_eq_crcByteFast, crcByteFast_append]

/-- Settles O20: the two forms take the same step on every byte. -/
theorem crcByteWiseFormAgrees : Obligations.CrcByteWiseFormAgrees := by
  intro b s
  have hstep : crcByte 0x8408 = crcByteFast := funext₂ crcByte_eq_crcByteFast
  rw [crcAFast, ← hstep]
  rfl

/-! ### The commands -/

/-- Settles O17: within the limit the rule ends by `finish`, above it by `raise`. -/
theorem crcAppendResult : Obligations.CrcAppendResult := by
  intro s hmax hsel
  constructor
  · intro h
    have hexec : exec .crcAppend s = .next (finish { crcUnit s.data s with res := { s.res with
        rdata := s.data ++ crcBytes (crcA s.cfg s.data), rlen := s.dataLen + 2, rval := crcA s.cfg s.data } }) :=
      if_neg (by omega)
    refine ⟨_, hexec, finish_endedWith _, ?_⟩
    rw [finish_res]
    exact ⟨rfl, rfl, rfl, rfl, rfl⟩
  · intro h
    have hexec : exec .crcAppend s = .next (raise .parameter (some (zext16 s.dataLen)) s) := if_pos (by omega)
    exact ⟨_, hexec, raise_before_transaction .parameter _ hsel⟩

theorem trailingCrc_append_pair (d : List Byte) (lo hi : Byte) : trailingCrc (d ++ [lo, hi]) = hi ++ lo := by
  simp [trailingCrc, crcOfBytes_eq]

/-- CRC_CHECK on a buffer that ends in the pair `lo`, `hi`: RVAL is written first, then the rule ends one way or the other. -/
theorem exec_crcCheck_append_pair {s : State} {d : List Byte} {lo hi : Byte} (h : s.data = d ++ [lo, hi]) :
    exec .crcCheck s =
      let u := { crcUnit d s with res.rval := crcA s.cfg d }
      if crcA s.cfg d = hi ++ lo then .next (finish u) else .next (raise .integrity (some (crcA s.cfg d)) u) := by
  have hlen : s.dataLen = d.length + 2 := by rw [State.dataLen, ← State.data, h]; simp
  have hrest : s.data.take (s.dataLen - 2) = d := by rw [h, hlen]; simp
  have htrailing : trailingCrc s.data = hi ++ lo := by rw [h, trailingCrc_append_pair]
  simp only [exec, execCrcCheck, hrest, htrailing, crcUnit_crcr]
  exact if_neg (by omega)

/-- Settles O18: the pair is compared with the recomputed CRC, and the residue says when they are equal. -/
theorem crcCheckResult : Obligations.CrcCheckResult := by
  intro s hpoly hsel
  have hp : s.cfg.crcPolyRefl.getLsbD 15 = true := by rw [hpoly]; decide
  constructor
  · intro d lo hi h
    have hexec := exec_crcCheck_append_pair h
    have hzero : crcA s.cfg s.data = 0 ↔ hi ++ lo = crcA s.cfg d := by rw [h, crcA_append_pair_eq_zero_iff hp]
    by_cases hcrc : crcA s.cfg d = hi ++ lo
    · refine ⟨_, hexec.trans (if_pos hcrc), finish_busy _, ?_, fun _ => ⟨finish_endedWith _, finish_res _⟩,
        fun hne => absurd hcrc.symm hne, ?_⟩
      · rw [finish_res]
      · rw [finish_res]
        exact iff_of_true rfl (hzero.mpr hcrc.symm)
    · refine ⟨_, hexec.trans (if_neg hcrc), raise_busy .., ?_, fun heq => absurd heq.symm hcrc,
        fun _ => ⟨raise_endedWith .., raise_clearedBesideRval ..⟩, ?_⟩
      · rw [raise_res, Option.getD_some]
      · rw [raise_res]
        exact iff_of_false nofun fun h0 => hcrc (hzero.mp h0).symm
  · intro h
    have hexec : exec .crcCheck s = .next (raise .parameter (some (zext16 s.dataLen)) s) := if_pos h
    exact ⟨_, hexec, raise_before_transaction .parameter _ hsel⟩

end Sys2Proof.Machine
end

section
/-! The register transactions of 43_cmd_engine.md: what one of them leaves (R160), and READ_REG and WRITE_REG, which are one each
(R162, R163). -/

namespace Sys2Proof.Machine

/-! ### One register transaction (R160) -/

section Transaction
variable {s : State} {a d : Byte} {r : Answer} {rest : List Answer}

theorem perform_xfer_env (he : s.env = r :: rest) : (perform (.xfer a d) s).2.env = rest := by
  rw [perform_env, he]; rfl

/-- Outside a select window a command that ends with a transaction adds that one event: nothing is left to deselect. -/
theorem perform_xfer_closed_trace (hsel : s.pins.sel = false) (he : s.env = r :: rest) :
    (perform (.xfer a d) s).2.trace ++ closeEvents (perform (.xfer a d) s).2.pins = s.trace ++ [.xfer a d r] := by
  rw [perform_trace, nextAnswer_cons he, events_xfer, perform_pins_of_bus _ s (.inl ⟨a, d, rfl⟩),
    closeEvents_of_released _ hsel, List.append_nil]

/-- An answered transaction hands its byte to the line's continuation (R160). -/
theorem runLine_xfer_ok {prog : List Line} {done onFail : State → State} {use : Byte → State → Flow} {v : Byte}
    (he : s.env = .ok v :: rest) :
    runLine prog done onFail ⟨.xfer a d, use⟩ s = follow prog done (use v (perform (.xfer a d) s).2) :=
  runLine_ok (perform_answer_of he rfl)

/-- A failed transaction raises E_TRANSPORT at once, with its own ordinal and its one event (R160, 60 R200). -/
theorem runLine_xfer_fail {prog : List Line} {done : State → State} {use : Byte → State → Flow}
    (hsel : s.pins.sel = false) (he : s.env = .fail :: rest) :
    FailedTransfer s (runLine prog done id ⟨.xfer a d, use⟩ s) ∧
      (runLine prog done id ⟨.xfer a d, use⟩ s).trace = s.trace ++ [.xfer a d .fail] := by
  rw [runLine_fail (perform_answer_of he rfl)]
  refine ⟨⟨raise_endedWith .., ?_, raise_clearedBesideRval ..⟩, ?_⟩
  · rw [raise_res, Option.getD_some, perform_ordinal]; rfl
  · exact (raise_trace ..).trans (perform_xfer_closed_trace hsel he)

end Transaction

/-! ### READ_REG and WRITE_REG -/

section Commands
variable {s : State}

/-- READ_REG's checks passed: it runs its one line. -/
theorem exec_readReg_start (reg : Byte) (hr : Ready .ctrlB s) :
    exec (.readReg reg) s = .next (runLine (readRegLines reg s) finish id
      (regRead s.cfg reg fun v u => .halt (finishWith v u)) { s with seq.pos := 1 }) := by
  obtain ⟨hpos, hb, -⟩ := hr
  exact exec_at_start (i := .readReg reg) rfl hpos hb rfl rfl

/-- WRITE_REG's checks passed: it runs its one line. -/
theorem exec_writeReg_start (reg val : Byte) (hr : Ready .ctrlB s) :
    exec (.writeReg reg val) s = .next (runLine (writeRegLines reg val s) finish id
      (regWrite s.cfg reg val) { s with seq.pos := 1 }) := by
  obtain ⟨hpos, hb, -⟩ := hr
  exact exec_at_start (i := .writeReg reg val) rfl hpos hb rfl rfl

/-- READ_REG, answered: the rule's end is taken with the byte read. -/
theorem exec_readReg_ok {v : Byte} {rest : List Answer} (reg : Byte) (hr : Ready .ctrlB s) (he : s.env = .ok v :: rest) :
    exec (.readReg reg) s = .next
      (finishWith v (perform (.xfer (addrRead s.cfg reg) s.cfg.bus.dummy) { s with seq.pos := 1 }).2) := by
  rw [exec_readReg_start reg hr]
  exact congrArg Host.Outcome.next (runLine_xfer_ok (s := { s with seq.pos := 1 }) he)

/-- WRITE_REG, answered: the one line is the last, and the byte clocked back goes nowhere. -/
theorem exec_writeReg_ok {v : Byte} {rest : List Answer} (reg val : Byte) (hr : Ready .ctrlB s)
    (he : s.env = .ok v :: rest) :
    exec (.writeReg reg val) s = .next
      (finish (perform (.xfer (addrWrite s.cfg reg) val) { s with seq.pos := 1 }).2) := by
  rw [exec_writeReg_start reg val hr]
  exact congrArg Host.Outcome.next ((runLine_xfer_ok (s := { s with seq.pos := 1 }) he).trans
    (follow_last (prog := writeRegLines reg val s) (Nat.le_refl 1)))

end Commands

/-- Settles O39: each command is its one transaction, ended by `finish` when it is answered and by `raise` when it fails. -/
theorem registerAccessResults : Obligations.RegisterAccessResults := by
  intro reg val v rest s hr
  have hfirst : ({ s with seq.pos := 1 } : State).pins.sel = false := by
    obtain ⟨-, -, hsel⟩ := hr
    exact hsel
  refine ⟨fun he => ⟨?_, ?_⟩, fun he => ⟨?_, ?_⟩⟩
  · refine ⟨_, exec_readReg_ok reg hr he, finish_endedWith _, ?_, ?_, ?_⟩
    · rw [finishWith_res, perform_res]; rfl
    · exact (finishWith_env ..).trans (perform_xfer_env he)
    · exact (finishWith_trace ..).trans (perform_xfer_closed_trace hfirst he)
  · refine ⟨_, exec_writeReg_ok reg val hr he, finish_endedWith _, ?_, ?_, ?_⟩
    · rw [finish_res, perform_res]
    · exact (finish_env _).trans (perform_xfer_env he)
    · exact (finish_trace _).trans (perform_xfer_closed_trace hfirst he)
  · exact ⟨_, exec_readReg_start reg hr, runLine_xfer_fail hfirst he⟩
  · exact ⟨_, exec_writeReg_start reg val hr, runLine_xfer_fail hfirst he⟩

end Sys2Proof.Machine
end

section
/-! Host protocol errors (60_exceptions.md R202; 10_state.md R44): the host actions that are refused, and why. -/

namespace Sys2Proof.Machine

/-- A host action that is refused leaves the step without a next state. -/
theorem step_refused {s : State} {r : Refusal} (h : hostMove s = .refuse r) : step s = .refused r := by
  rw [step, machineStep, h]

section
variable {s : State} {rest : List HostAction}

theorem hostMove_writeW0_busy {w : Word} (hbusy : s.busy = true) (h : s.host = .writeW0 w :: rest) :
    hostMove s = .refuse .writeWhileBusy := by simp [hostMove, h, hbusy]

theorem hostMove_writeW1_busy {w : Word} (hbusy : s.busy = true) (h : s.host = .writeW1 w :: rest) :
    hostMove s = .refuse .writeWhileBusy := by simp [hostMove, h, hbusy]

/-- While BUSY = 1 a load is refused as a write, whatever its length. -/
theorem hostMove_loadBuf_busy {bs : List Byte} (hbusy : s.busy = true) (h : s.host = .loadBuf bs :: rest) :
    hostMove s = .refuse .writeWhileBusy := by simp [hostMove, h, hbusy]

/-- BUSY is the one register that stays readable (10 R44). -/
theorem hostMove_read_busy {r : ResultReg} (hbusy : s.busy = true) (hr : r ≠ .busy) (h : s.host = .read r :: rest) :
    hostMove s = .refuse .readWhileBusy := by simp [hostMove, h, hbusy, hr]

theorem hostMove_loadBuf_tooLong {bs : List Byte} (hidle : s.busy = false) (hlen : s.cfg.bufMax < bs.length)
    (h : s.host = .loadBuf bs :: rest) : hostMove s = .refuse .bufTooLong := by simp [hostMove, h, hidle, hlen]

end

/-- Settles O11: at each forbidden action `hostMove` refuses, by BUSY first and for a load by its length after that. -/
theorem hostProtocolErrorsRefused : Obligations.HostProtocolErrorsRefused := by
  intro s rest
  refine ⟨fun hbusy => ⟨fun w h => ?_, fun w h => ?_, fun bs h => ?_, fun r hr h => ?_⟩, fun hidle bs h hlen => ?_⟩
  · exact step_refused (hostMove_writeW0_busy hbusy h)
  · exact step_refused (hostMove_writeW1_busy hbusy h)
  · exact step_refused (hostMove_loadBuf_busy hbusy h)
  · exact step_refused (hostMove_read_busy hbusy hr h)
  · exact step_refused (hostMove_loadBuf_tooLong hidle hlen h)

end Sys2Proof.Machine
end

section
/-! Decoding and encoding as inverses (30_encoding.md R70 to R78): what `build` reads back from the words of a well-formed instruction,
and what the must-be-zero test of a legal W0 says of its fields. -/

namespace Sys2Proof

/-! ### Encode, then decode -/

/-- Every well-formed instruction's W0 lies in its own row: the family of Laws/PerInstr as one statement. -/
theorem encodeW0_in_row (i : Instr) : Laws.TableRow.Statement i := by
  cases i with
  | crc16 => exact Laws.TableRow.crc16
  | crcAppend => exact Laws.TableRow.crcAppend
  | crcCheck => exact Laws.TableRow.crcCheck
  | frameBuild dir => exact Laws.TableRow.frameBuild dir
  | frameParse dir => exact Laws.TableRow.frameParse dir
  | ackMatch => exact Laws.TableRow.ackMatch
  | writeCommand => exact Laws.TableRow.writeCommand
  | readData n => exact Laws.TableRow.readData n
  | isReady => exact Laws.TableRow.isReady
  | waitReady t => exact Laws.TableRow.waitReady t
  | readAck => exact Laws.TableRow.readAck
  | sendCheckAck t => exact Laws.TableRow.sendCheckAck t
  | exchange n t => exact Laws.TableRow.exchange n t
  | readReg reg => exact Laws.TableRow.readReg reg
  | writeReg reg val => exact Laws.TableRow.writeReg reg val
  | setBitmask reg mask => exact Laws.TableRow.setBitmask reg mask
  | clearBitmask reg mask => exact Laws.TableRow.clearBitmask reg mask
  | executeCommand cmd => exact Laws.TableRow.executeCommand cmd
  | calcCrc => exact Laws.TableRow.calcCrc
  | reset => exact Laws.TableRow.reset
  | antennaOn => exact Laws.TableRow.antennaOn
  | antennaOff => exact Laws.TableRow.antennaOff

/-- The direction bit of W0 is bit 0 of FA (R73). -/
theorem getLsbD_eight_packW0 (fc fb fa opc : Byte) : (packW0 fc fb fa opc).getLsbD 8 = fa.getLsbD 0 :=
  calc (packW0 fc fb fa opc).getLsbD 8
    _ = ((packW0 fc fb fa opc).extractLsb' 8 8).getLsbD 0 := by rw [BitVec.getLsbD_extractLsb']; rfl
    _ = fa.getLsbD 0 := by rw [byte1_packW0]

/-- The direction byte of R80 gives its direction back. -/
theorem dirField_packW0 (fc fb opc : Byte) (dir : Dir) :
    dirField (packW0 fc fb (if dir = .c2h then 1 else 0) opc) = dir := by
  rw [dirField, getLsbD_eight_packW0]
  cases dir <;> rfl

/-- The two bytes of a count give it back (R73). -/
theorem lenField_packW0_halves (n : Half) (fa opc : Byte) :
    lenField (packW0 (n.extractLsb' 8 8) (n.extractLsb' 0 8) fa opc) = n := by
  have hn := n.isLt
  apply BitVec.eq_of_toNat_eq
  rw [lenField_packW0, BitVec.extractLsb'_toNat, BitVec.extractLsb'_toNat, Nat.shiftRight_eq_div_pow,
    Nat.shiftRight_eq_div_pow]
  omega

/-- The row of a well-formed instruction builds it from its own words. -/
theorem build_encodeW0 {i : Instr} (hi : i.WellFormed) {w1 : Word}
    (hw : i.opcode.format.hasW1 = true → w1 = encodeW1 i) : i.opcode.build (encodeW0 i) w1 = i := by
  cases i with
  | frameBuild dir => exact congrArg Instr.frameBuild (dirField_packW0 ..)
  | frameParse dir => exact congrArg Instr.frameParse (dirField_packW0 ..)
  | readData n => exact congrArg Instr.readData (lenField_packW0_halves ..)
  | waitReady t => exact congrArg Instr.waitReady (hw rfl)
  | sendCheckAck t => exact congrArg Instr.sendCheckAck (hw rfl)
  | exchange n t => exact congrArg₂ Instr.exchange (lenField_packW0_halves ..) (hw rfl)
  | readReg reg => exact congrArg Instr.readReg (regField_packW0 _ _ _ _ (of_decide_eq_true hi))
  | writeReg reg val =>
    exact congrArg₂ Instr.writeReg (regField_packW0 _ _ _ _ (of_decide_eq_true hi)) (valField_packW0 ..)
  | setBitmask reg mask =>
    exact congrArg₂ Instr.setBitmask (regField_packW0 _ _ _ _ (of_decide_eq_true hi)) (valField_packW0 ..)
  | clearBitmask reg mask =>
    exact congrArg₂ Instr.clearBitmask (regField_packW0 _ _ _ _ (of_decide_eq_true hi)) (valField_packW0 ..)
  | executeCommand cmd => exact congrArg Instr.executeCommand (cmdField_packW0 _ _ _ _ (of_decide_eq_true hi))
  | _ => rfl

theorem decodeWords_encodeW0 {i : Instr} (hi : i.WellFormed) {w1 : Word}
    (hw : i.opcode.format.hasW1 = true → w1 = encodeW1 i) : decodeWords (encodeW0 i) w1 = .ok i := by
  obtain ⟨hopc, hzero⟩ := encodeW0_in_row i hi
  simp only [decodeWords, hopc, ofCode_code, if_pos hzero, build_encodeW0 hi hw]

/-- Settles O1: W0 decodes by its row, and the row's format says whether a W1 follows. -/
theorem decodeOfEncodedInstruction : Obligations.DecodeOfEncodedInstruction := by
  intro i rest hi
  obtain ⟨hopc, -⟩ := encodeW0_in_row i hi
  have hrow : (Opcode.ofCode (opcField (encodeW0 i))).map (fun o => o.format.hasW1) = some i.opcode.format.hasW1 := by
    rw [hopc, ofCode_code, Option.map_some]
  by_cases hw : i.opcode.format.hasW1 = true
  · have hd : decodeWords (encodeW0 i) (([encodeW1 i] ++ rest).headD 0) = .ok i := decodeWords_encodeW0 hi fun _ => rfl
    rw [encode, if_pos hw, List.cons_append, decode, hd]
    simp only [hrow, hw, if_true, List.cons_append, List.nil_append]
  · have hd : decodeWords (encodeW0 i) (([] ++ rest).headD 0) = .ok i := decodeWords_encodeW0 hi fun h => absurd h hw
    rw [encode, if_neg hw, List.cons_append, decode, hd]
    simp only [hrow, Option.some.injEq, if_neg hw, List.nil_append]

/-! ### Decode, then encode -/

/-- A decoded instruction is what its row, whose must-be-zero bits are 0, builds from the words. -/
theorem decodeWords_eq_ok {w0 w1 : Word} {i : Instr} (h : decodeWords w0 w1 = .ok i) :
    ∃ o : Opcode, o.code = opcField w0 ∧ w0 &&& o.format.zeroBits = 0 ∧ i = o.build w0 w1 := by
  unfold decodeWords at h
  split at h
  · cases h
  · rename_i o ho
    split at h
    · exact ⟨o, code_of_ofCode ho, ‹_›, (Except.ok.inj h).symm⟩
    · cases h

@[simp] theorem opcode_build (o : Opcode) (w0 w1 : Word) : (o.build w0 w1).opcode = o := by cases o <;> rfl

theorem regField_ok (w0 : Word) : RegOk (regField w0) := by
  rw [RegOk, regField, BitVec.toNat_setWidth, field_toNat]; omega

theorem cmdField_ok (w0 : Word) : CmdOk (cmdField w0) := by
  rw [CmdOk, cmdField, BitVec.toNat_setWidth, field_toNat]; omega

/-- Fields of six and four bits cannot hold an operand that is out of range. -/
theorem build_wellFormed (o : Opcode) (w0 w1 : Word) : (o.build w0 w1).WellFormed := by
  cases o with
  | readReg => exact decide_eq_true (regField_ok w0)
  | writeReg => exact decide_eq_true (regField_ok w0)
  | setBitmask => exact decide_eq_true (regField_ok w0)
  | clearBitmask => exact decide_eq_true (regField_ok w0)
  | executeCommand => exact decide_eq_true (cmdField_ok w0)
  | _ => rfl

/-- A byte all of whose bits must be zero is 0. -/
theorem eq_zero_of_and_ff {b : Byte} (h : b &&& 0xFF = 0) : b = 0 := by
  rwa [show (0xFF : Byte) = BitVec.allOnes 8 from rfl, BitVec.and_allOnes] at h

theorem toNat_lt_64_of_and : ∀ b : Byte, b &&& 0xC0 = 0 → b.toNat < 64 := by decide
theorem toNat_lt_16_of_and : ∀ b : Byte, b &&& 0xF0 = 0 → b.toNat < 16 := by decide

/-- A byte that has bit 0 at most is a direction byte. -/
theorem dirByte_of_and : ∀ b : Byte, b &&& 0xFE = 0 →
    (if (if b.getLsbD 0 then Dir.c2h else .h2c) = .c2h then 1 else 0 : Byte) = b := by decide

/-- The count's two bytes are FC and FB (R73). -/
theorem lenField_halves (fc fb fa opc : Byte) :
    (lenField (packW0 fc fb fa opc)).extractLsb' 8 8 = fc ∧ (lenField (packW0 fc fb fa opc)).extractLsb' 0 8 = fb := by
  have h1 := fc.isLt
  have h2 := fb.isLt
  constructor <;> apply BitVec.eq_of_toNat_eq <;>
    rw [BitVec.extractLsb'_toNat, lenField_packW0, Nat.shiftRight_eq_div_pow] <;> omega

section
variable (o : Opcode) {fc fb fa : Byte} (opc : Byte) (w1 : Word)

theorem fieldC_build (h : fc &&& o.format.zeroBytes.1 = 0) : (o.build (packW0 fc fb fa opc) w1).fieldC = fc := by
  cases o with
  | readData => exact (lenField_halves ..).1
  | exchange => exact (lenField_halves ..).1
  | _ => exact (eq_zero_of_and_ff h).symm

theorem fieldB_build (h : fb &&& o.format.zeroBytes.2.1 = 0) : (o.build (packW0 fc fb fa opc) w1).fieldB = fb := by
  cases o with
  | readData => exact (lenField_halves ..).2
  | exchange => exact (lenField_halves ..).2
  | writeReg => exact valField_packW0 ..
  | setBitmask => exact valField_packW0 ..
  | clearBitmask => exact valField_packW0 ..
  | _ => exact (eq_zero_of_and_ff h).symm

theorem dirByte_packW0 (h : fa &&& 0xFE = 0) :
    (if dirField (packW0 fc fb fa opc) = .c2h then 1 else 0 : Byte) = fa := by
  rw [dirField, getLsbD_eight_packW0]
  exact dirByte_of_and fa h

theorem fieldA_build (h : fa &&& o.format.zeroBytes.2.2 = 0) : (o.build (packW0 fc fb fa opc) w1).fieldA = fa := by
  cases o with
  | frameBuild => exact dirByte_packW0 opc h
  | frameParse => exact dirByte_packW0 opc h
  | readReg => exact regField_packW0 _ _ _ _ (toNat_lt_64_of_and fa h)
  | writeReg => exact regField_packW0 _ _ _ _ (toNat_lt_64_of_and fa h)
  | setBitmask => exact regField_packW0 _ _ _ _ (toNat_lt_64_of_and fa h)
  | clearBitmask => exact regField_packW0 _ _ _ _ (toNat_lt_64_of_and fa h)
  | executeCommand => exact cmdField_packW0 _ _ _ _ (toNat_lt_16_of_and fa h)
  | _ => exact (eq_zero_of_and_ff h).symm

end

/-- The four bytes `encodeW0` packs are those the row's fields were read from. -/
theorem encodeW0_build {o : Opcode} {w0 : Word} (w1 : Word) (ho : o.code = opcField w0)
    (hz : w0 &&& o.format.zeroBits = 0) : encodeW0 (o.build w0 w1) = w0 := by
  obtain ⟨fc, fb, fa, opc, rfl⟩ : ∃ fc fb fa opc, w0 = packW0 fc fb fa opc := ⟨_, _, _, _, (packW0_bytes w0).symm⟩
  obtain ⟨hc, hb, ha⟩ := (zeroBits_packW0 ..).mp hz
  rw [encodeW0, opcode_build, ho, opcField_packW0, fieldC_build o opc w1 hc, fieldB_build o opc w1 hb,
    fieldA_build o opc w1 ha]

theorem encodeW1_build {o : Opcode} (w0 w1 : Word) (h : o.format.hasW1 = true) : encodeW1 (o.build w0 w1) = w1 := by
  cases o with
  | waitReady => rfl
  | sendCheckAck => rfl
  | exchange => rfl
  | _ => cases h

/-- Settles O2: a decoded instruction is built from the fields of its row, and the must-be-zero bits of the row leave no other bit of
W0 to lose. -/
theorem encodeOfDecodedWords : Obligations.EncodeOfDecodedWords := by
  intro w0 w1 i h
  obtain ⟨o, ho, hz, rfl⟩ := decodeWords_eq_ok h
  rw [opcode_build]
  exact ⟨build_wellFormed o w0 w1, encodeW0_build w1 ho hz, encodeW1_build w0 w1⟩

/-- Settles O3: each word list is the encoding of its instruction, so O1 decodes it. -/
theorem specWordsDecode : Obligations.SpecWordsDecode :=
  ⟨decodeOfEncodedInstruction .crc16 [] rfl, decodeOfEncodedInstruction (.frameBuild .c2h) [] rfl,
    decodeOfEncodedInstruction (.readData 13) [] rfl, decodeOfEncodedInstruction (.waitReady 25) [] rfl,
    decodeOfEncodedInstruction (.exchange 13 1000) [] rfl, decodeOfEncodedInstruction (.readReg 4) [] rfl,
    decodeOfEncodedInstruction (.writeReg 0x2A 0x8D) [] rfl, decodeOfEncodedInstruction (.executeCommand 0xC) [] rfl⟩

end Sys2Proof
end

section
/-! What a step of a transport command can do, said once: the state in which it runs a line, and the six ways the line's flow leads
on. From it, what every step keeps. -/

namespace Sys2Proof.Machine

/-- The state in which a step of a transport command runs a line: at a line it is the state itself, at the start the checks have
passed and the rule's initial assignments are made. -/
inductive Enters (i : Instr) (b : Backend) (s : State) : State → Prop where
  | line (hp : s.seq.pos ≠ 0) : Enters i b s s
  | start (hp : s.seq.pos = 0) (hb : s.cfg.backend = b) (hk : limitOf i s = none) :
      Enters i b s { initOf i s with seq.pos := 1 }

/-- A flow leads on to position `p` with the state `w`. -/
def Leads (f : Flow) (w : State) (p : Nat) : Prop := f = .next w ∧ p = w.seq.pos + 1 ∨ f = .goto p w

/-- In `u` the command is at line `l`, whose primitive answers `a`. -/
structure Answers (i : Instr) (u : State) (l : Line) (a : Answer) : Prop where
  line : (linesOf i u)[u.seq.pos - 1]? = some l
  answer : (perform l.prim u).1 = a

/-- The ways a step of a transport command can go: the two checks of its start, a failed transfer, and the four things an answered
line's flow can do. -/
inductive StepOf (i : Instr) (b : Backend) (s : State) : State → Prop where
  | wrongBackend (hp : s.seq.pos = 0) : StepOf i b s (raise .backend (some (zextByte i.opcode.code)) s)
  | overLimit {k : Nat} (hp : s.seq.pos = 0) (hk : limitOf i s = some k) :
      StepOf i b s (raise .parameter (some (zext16 k)) (failOf i s))
  | lost {u : State} {l : Line} (hu : Enters i b s u) (hl : Answers i u l .fail) :
      StepOf i b s (raise .transport (some (zext16 (perform l.prim u).2.locals.ordinal)) (failOf i (perform l.prim u).2))
  | halts {u t : State} {l : Line} {v : Byte} (hu : Enters i b s u) (hl : Answers i u l (.ok v))
      (hf : l.after v (perform l.prim u).2 = .halt t) : StepOf i b s t
  | past {u w : State} {l : Line} {v : Byte} {p : Nat} (hu : Enters i b s u) (hl : Answers i u l (.ok v))
      (hf : Leads (l.after v (perform l.prim u).2) w p) (hp : (linesOf i u).length < p) : StepOf i b s (doneOf i w)
  | goes {u w : State} {l : Line} {v : Byte} {p : Nat} (hu : Enters i b s u) (hl : Answers i u l (.ok v))
      (hf : Leads (l.after v (perform l.prim u).2) w p) (hp : p ≤ (linesOf i u).length) :
      StepOf i b s { w with seq.pos := p }

/-- Every step of a transport command is one of the six. -/
theorem exec_stepOf {i : Instr} {b : Backend} (h : i.opcode.backend = some b) {s t : State} (ht : exec i s = .next t) :
    StepOf i b s t := by
  obtain ⟨hp, _, rfl⟩ | ⟨k, hp, _, hk, rfl⟩ | ⟨u, l, hu, hl, rfl⟩ := exec_transport_next h ht
  · exact .wrongBackend hp
  · exact .overLimit hp hk
  · have he : Enters i b s u := by
      obtain ⟨hp, rfl⟩ | ⟨hp, hb, hk, rfl⟩ := hu
      · exact .line hp
      · exact .start hp hb hk
    obtain ⟨v, hv, e⟩ | ⟨hv, e⟩ := runLine_cases (linesOf i u) (doneOf i) (failOf i) l u <;> rw [e]
    · obtain hf | ⟨p, hp, hf, hlead⟩ | ⟨p, hp, hf, hlead⟩ :=
        follow_cases (linesOf i u) (doneOf i) (l.after v (perform l.prim u).2)
      · exact .halts he ⟨hl, hv⟩ hf
      · rw [hf]; exact .goes he ⟨hl, hv⟩ hlead hp
      · rw [hf]; exact .past he ⟨hl, hv⟩ hlead hp
    · exact .lost he ⟨hl, hv⟩

/-! ### A line's place in its program -/

theorem Answers.mem {i : Instr} {u : State} {l : Line} {a : Answer} (h : Answers i u l a) : l ∈ linesOf i u :=
  List.mem_of_getElem? h.line

theorem Enters.pos_pos {i : Instr} {b : Backend} {s u : State} (h : Enters i b s u) : 1 ≤ u.seq.pos := by
  cases h with
  | line hp => exact Nat.one_le_iff_ne_zero.mpr hp
  | start => exact Nat.le_refl 1

/-- `P p l` holds of every line `l` of a program, `p` being its position when the first one stands at `p`. -/
def LinesAt (P : Nat → Line → Prop) (p : Nat) (prog : List Line) : Prop :=
  ∀ k l, prog[k]? = some l → P (p + k) l

/-- The line a command runs, with its position. -/
theorem LinesAt.answers {P : Nat → Line → Prop} {i : Instr} {b : Backend} {s u : State} {l : Line} {a : Answer}
    (h : LinesAt P 1 (linesOf i u)) (hu : Enters i b s u) (hl : Answers i u l a) : P u.seq.pos l := by
  have hp := h _ _ hl.line
  rwa [Nat.add_sub_cancel' hu.pos_pos] at hp

section
variable {P : Nat → Line → Prop} {p : Nat}

theorem LinesAt.nil : LinesAt P p [] := nofun

theorem LinesAt.cons {l : Line} {ls : List Line} (hl : P p l) (hs : LinesAt P (p + 1) ls) : LinesAt P p (l :: ls) := by
  intro k x hx
  cases k with
  | zero => cases hx; exact hl
  | succ k => have h := hs k x hx; rwa [Nat.add_assoc, Nat.add_comm 1] at h

theorem LinesAt.append {a c : List Line} (ha : LinesAt P p a) (hc : LinesAt P (p + a.length) c) :
    LinesAt P p (a ++ c) := by
  intro k x hx
  by_cases hk : k < a.length
  · exact ha k x (by rwa [List.getElem?_append_left hk] at hx)
  · rw [List.getElem?_append_right (by omega)] at hx
    have h := hc _ x hx
    rwa [show p + a.length + (k - a.length) = p + k by omega] at h

/-- The same with the second part's position named. -/
theorem LinesAt.append_at {q : Nat} {a c : List Line} (ha : LinesAt P p a) (hc : LinesAt P q c)
    (hq : q = p + a.length) : LinesAt P p (a ++ c) := ha.append (hq ▸ hc)

theorem LinesAt.map {α : Type} {xs : List α} {f : α → Line} (h : ∀ k x, xs[k]? = some x → P (p + k) (f x)) :
    LinesAt P p (xs.map f) := by
  intro k l hl
  obtain ⟨x, hx, rfl⟩ := List.getElem?_map .. ▸ hl |> Option.map_eq_some_iff.mp
  exact h k x hx

theorem LinesAt.replicate {n : Nat} {l : Line} (h : ∀ k < n, P (p + k) l) : LinesAt P p (List.replicate n l) := by
  intro k x hx
  rw [List.getElem?_replicate] at hx
  split at hx
  · cases hx; exact h k ‹_›
  · cases hx

theorem LinesAt.window {m : Byte} {a c : State → Flow} {body : List Line} (hopen : P p ⟨.sel true, fun _ s => a s⟩)
    (hmark : P (p + 1) ⟨.tx m, fun _ s => .next s⟩) (hbody : LinesAt P (p + 2) body)
    (hclose : P (p + 2 + body.length) ⟨.sel false, fun _ s => c s⟩) : LinesAt P p (window m a c body) :=
  .append (.cons hopen (.cons hmark hbody))
    (.cons (by rwa [List.length_append, List.length_cons, List.length_singleton, ← Nat.add_assoc]) .nil)

theorem LinesAt.seqWrite {c : Config} {f : List Byte} {g : State → Flow}
    (hopen : P p ⟨.sel true, fun _ s => .next s⟩) (hmark : P (p + 1) ⟨.tx c.link.mkWrite, fun _ s => .next s⟩)
    (hbyte : ∀ k b, f[k]? = some b → P (p + 2 + k) ⟨.tx b, fun _ s => .next s⟩)
    (hclose : P (p + 2 + f.length) ⟨.sel false, fun _ s => g s⟩) : LinesAt P p (seqWrite c f g) :=
  .window hopen hmark (.map hbyte) (by rwa [List.length_map])

theorem LinesAt.seqRead {c : Config} {n : Nat} {g : State → Flow}
    (hopen : P p ⟨.sel true, fun _ s => .next { s with locals.rx := [] }⟩)
    (hmark : P (p + 1) ⟨.tx c.link.mkRead, fun _ s => .next s⟩)
    (hbyte : ∀ k < n, P (p + 2 + k) ⟨.rx, fun v s => .next { s with locals.rx := s.locals.rx ++ [v] }⟩)
    (hclose : P (p + 2 + n) ⟨.sel false, fun _ s => g s⟩) : LinesAt P p (seqRead c n g) :=
  .window hopen hmark (.replicate hbyte) (by rwa [List.length_replicate])

theorem LinesAt.seqStatus {c : Config} {g : State → Flow}
    (hopen : P p ⟨.sel true, fun _ s => .next s⟩) (hmark : P (p + 1) ⟨.tx c.link.mkStatus, fun _ s => .next s⟩)
    (hbyte : P (p + 2) ⟨.rx, fun v s => .next { s with locals.status := v }⟩)
    (hclose : P (p + 3) ⟨.sel false, fun _ s => g s⟩) : LinesAt P p (seqStatus c g) :=
  .window hopen hmark (.cons hbyte .nil) hclose

theorem LinesAt.seqWait {c : Config} {q : Nat} {t : Word} {a : State → State} {e : State → Flow}
    (hstart : P p ⟨.internal, fun _ s => .next { a s with seq.elapsed := 0 }⟩)
    (hopen : P (p + 1) ⟨.sel true, fun _ s => .next s⟩)
    (hmark : P (p + 2) ⟨.tx c.link.mkStatus, fun _ s => .next s⟩)
    (hbyte : P (p + 3) ⟨.rx, fun v s => .next { s with locals.status := v }⟩)
    (htest : P (p + 4) ⟨.sel false, fun _ s => waitTest t (q + waitLines) e s⟩)
    (hdelay : P (p + 5) ⟨.delay (c.pollStepMs * 1000), fun _ s => .goto (q + 1) s⟩) :
    LinesAt P p (seqWait c q t a e) :=
  .append (.cons hstart (.seqStatus hopen hmark hbyte htest))
    (.cons (by rwa [List.length_append, seqStatus_length]) .nil)

theorem LinesAt.setBits {s : State} {reg m : Byte} (hread : P p (regRead s.cfg reg setVtmp))
    (hwrite : ∀ x, P (p + 1) (regWrite s.cfg reg x)) : LinesAt P p (setBits s reg m) :=
  .cons hread (.cons (hwrite _) .nil)

theorem LinesAt.clearBits {s : State} {reg m : Byte} (hread : P p (regRead s.cfg reg setVtmp))
    (hwrite : ∀ x, P (p + 1) (regWrite s.cfg reg x)) : LinesAt P p (clearBits s reg m) :=
  .cons hread (.cons (hwrite _) .nil)

end

/-- A property of lines that does not look at positions. -/
theorem LinesAt.mem {Q : Line → Prop} {p : Nat} {prog : List Line} (h : LinesAt (fun _ => Q) p prog) {l : Line}
    (hl : l ∈ prog) : Q l := by
  obtain ⟨k, hk⟩ := List.mem_iff_getElem?.mp hl
  exact h k l hk

/-- Before it raises, only EXCHANGE writes anything, its XSTATE (41 R129). -/
theorem failOf_eq (i : Instr) (s : State) : failOf i s = if i.opcode = .exchange then setX .failed s else s := by
  cases i <;> rfl

/-! ### What a class of commands writes -/

/-- A flow that writes no more than `W` allows and then ends; it never jumps to SEQ_POS 0. -/
def FlowWithin (W : State → State → Prop) (s : State) (f : Flow) : Prop :=
  ∃ w, W s w ∧ Ends w f ∧ ∀ q x, f = .goto q x → 1 ≤ q

section
variable {W : State → State → Prop} {s w : State}

theorem FlowWithin.mono {W' : State → State → Prop} {f : Flow} (h : FlowWithin W s f) (hW : ∀ w, W s w → W' s w) :
    FlowWithin W' s f := by
  obtain ⟨w, hw, he⟩ := h
  exact ⟨w, hW w hw, he⟩

theorem FlowWithin.next (h : W s w) : FlowWithin W s (.next w) := ⟨w, h, .next, fun _ _ e => nomatch e⟩

theorem FlowWithin.goto {q : Nat} (hq : 1 ≤ q) (h : W s w) : FlowWithin W s (.goto q w) :=
  ⟨w, h, .goto q, fun _ _ e => by cases e; exact hq⟩

theorem FlowWithin.finish (h : W s w) : FlowWithin W s (.halt (finish w)) := ⟨w, h, .finish, fun _ _ e => nomatch e⟩

theorem FlowWithin.raise {st : Status} {info : Option Half} (h : W s w) : FlowWithin W s (.halt (raise st info w)) :=
  ⟨w, h, .raise st info, fun _ _ e => nomatch e⟩

end

theorem Ends.eq_of_leads {x w : State} {f : Flow} {p : Nat} (h : Ends x f) (hf : Leads f w p) : x = w := by
  obtain ⟨e, -⟩ | e := hf <;> rw [e] at h <;> cases h <;> rfl

/-- A flow that halts has ended the command. -/
theorem Ends.not_busy {w t : State} (h : Ends w (.halt t)) : t.busy = false := by
  cases h with
  | finish => exact finish_busy w
  | raise st info => exact raise_busy st info w

/-- Every part of the command writes no more than `W` allows. -/
structure CommandWithin (i : Instr) (W : State → State → Prop) : Prop where
  refl : ∀ s, W s s
  trans : ∀ s u w, W s u → W u w → W s w
  lines : ∀ s, ∀ l ∈ linesOf i s, ∀ v u, FlowWithin W u (l.after v u)
  fail : ∀ s, W s (failOf i s)
  done : ∀ s, FlowWithin W s (.halt (doneOf i s))

/-- How a step closes: at a line of the rule, or with the command's end. -/
inductive Closes (w : State) : State → Prop where
  | goes (p : Nat) (hp : 1 ≤ p) : Closes w { w with seq.pos := p }
  | finish : Closes w (finish w)
  | raise (st : Status) (info : Option Half) : Closes w (raise st info w)

theorem Ends.closes {w t : State} (h : Ends w (.halt t)) : Closes w t := by
  cases h with
  | finish => exact .finish
  | raise st info => exact .raise st info

/-- The primitive of a step: that of a line, or none when a check ends the command. -/
def StepPrim (i : Instr) (u : State) (pr : Prim) : Prop := pr = .internal ∨ ∃ l ∈ linesOf i u, pr = l.prim

/-- The shape of every step of a transport command: the rule's initial assignments at the start, one primitive, the writes of the
class, and the close. -/
theorem exec_shape {i : Instr} {b : Backend} {W : State → State → Prop} (h : i.opcode.backend = some b)
    (hW : CommandWithin i W) {s t : State} (ht : exec i s = .next t) :
    ∃ u pr w, (u = s ∨ s.seq.pos = 0 ∧ u = { initOf i s with seq.pos := 1 }) ∧ StepPrim i u pr ∧
      W (perform pr u).2 w ∧ Closes w t := by
  have entered {u : State} (hu : Enters i b s u) : u = s ∨ s.seq.pos = 0 ∧ u = { initOf i s with seq.pos := 1 } := by
    cases hu with
    | line => exact .inl rfl
    | start hp => exact .inr ⟨hp, rfl⟩
  cases exec_stepOf h ht with
  | wrongBackend => exact ⟨s, .internal, s, .inl rfl, .inl rfl, hW.refl s, .raise ..⟩
  | overLimit => exact ⟨s, .internal, _, .inl rfl, .inl rfl, hW.fail s, .raise ..⟩
  | lost hu hl => exact ⟨_, _, _, entered hu, .inr ⟨_, hl.mem, rfl⟩, hW.fail _, .raise ..⟩
  | @halts u _ l v hu hl hf =>
    obtain ⟨w, hw, he, -⟩ := hW.lines u l hl.mem v (perform l.prim u).2
    exact ⟨u, l.prim, w, entered hu, .inr ⟨l, hl.mem, rfl⟩, hw, (hf ▸ he).closes⟩
  | @past u w l v p hu hl hf =>
    obtain ⟨x, hx, he, -⟩ := hW.lines u l hl.mem v (perform l.prim u).2
    obtain rfl := he.eq_of_leads hf
    obtain ⟨y, hy, hd, -⟩ := hW.done x
    exact ⟨u, l.prim, y, entered hu, .inr ⟨l, hl.mem, rfl⟩, hW.trans _ _ _ hx hy, hd.closes⟩
  | @goes u w l v p hu hl hf =>
    obtain ⟨x, hx, he, hq⟩ := hW.lines u l hl.mem v (perform l.prim u).2
    obtain rfl := he.eq_of_leads hf
    have hp : 1 ≤ p := by
      obtain ⟨-, rfl⟩ | e := hf
      · omega
      · exact hq _ _ e
    exact ⟨u, l.prim, x, entered hu, .inr ⟨l, hl.mem, rfl⟩, hx, .goes p hp⟩

end Sys2Proof.Machine
end

section
/-! What the link commands (41_link_a.md) and the register commands (43_cmd_engine.md) write, class by class: the lines of each of
them, with the primitives they use. -/

namespace Sys2Proof.Machine

/-! ### The link commands -/

/-- The commands with a wait (41 R125, R127, R129), which use ELAPSED (10 R32). -/
def HasWait (i : Instr) : Prop := i.opcode = .waitReady ∨ i.opcode = .sendCheckAck ∨ i.opcode = .exchange

/-- What the rule of a link command writes: results but for the received data, the received bytes, XSTATE in EXCHANGE and ELAPSED in
a command with a wait. -/
structure LinkWrites (i : Instr) (s w : State) : Prop where
  writes : Writes s w
  scratch : w.scratch = s.scratch
  pollI : w.seq.pollI = s.seq.pollI
  crcI : w.seq.crcI = s.seq.crcI
  lo : w.locals.lo = s.locals.lo
  rbitlen : w.res.rbitlen = s.res.rbitlen
  xstate : i.opcode ≠ .exchange → w.xstate = s.xstate
  elapsed : ¬HasWait i → w.seq.elapsed = s.seq.elapsed

theorem LinkWrites.refl {i : Instr} (s : State) : LinkWrites i s s :=
  ⟨.refl s, rfl, rfl, rfl, rfl, rfl, fun _ => rfl, fun _ => rfl⟩

theorem LinkWrites.trans {i : Instr} {s u w : State} (h : LinkWrites i s u) (g : LinkWrites i u w) : LinkWrites i s w where
  writes := h.writes.trans g.writes
  scratch := g.scratch.trans h.scratch
  pollI := g.pollI.trans h.pollI
  crcI := g.crcI.trans h.crcI
  lo := g.lo.trans h.lo
  rbitlen := g.rbitlen.trans h.rbitlen
  xstate hx := (g.xstate hx).trans (h.xstate hx)
  elapsed hw := (g.elapsed hw).trans (h.elapsed hw)

/-- What a line of a link command writes: of the results, neither RDATA nor RLEN. -/
structure LinkLineWrites (i : Instr) (s w : State) : Prop extends LinkWrites i s w where
  rdata : w.res.rdata = s.res.rdata
  rlen : w.res.rlen = s.res.rlen

theorem LinkLineWrites.refl {i : Instr} (s : State) : LinkLineWrites i s s := ⟨.refl s, rfl, rfl⟩

theorem LinkLineWrites.trans {i : Instr} {s u w : State} (h : LinkLineWrites i s u) (g : LinkLineWrites i u w) :
    LinkLineWrites i s w := ⟨h.toLinkWrites.trans g.toLinkWrites, g.rdata.trans h.rdata, g.rlen.trans h.rlen⟩

/-- A line of a link command: no register transaction, and a continuation within the class. -/
def LinkLine (i : Instr) (l : Line) : Prop :=
  (∀ a d, l.prim ≠ .xfer a d) ∧ ∀ v u, FlowWithin (LinkLineWrites i) u (l.after v u)

section
variable {i : Instr}

theorem linkLine_plain {pr : Prim} (h : ∀ a d, pr ≠ .xfer a d) : LinkLine i ⟨pr, fun _ s => .next s⟩ :=
  ⟨h, fun _ u => .next (.refl u)⟩

/-- The received bytes and the status byte are the link's own locals. -/
theorem linkLineWrites_locals {s : State} {x : Locals} (ho : x.ordinal = s.locals.ordinal) (hlo : x.lo = s.locals.lo) :
    LinkLineWrites i s { s with locals := x } := by
  refine ⟨⟨?_, rfl, rfl, rfl, hlo, rfl, fun _ => rfl, fun _ => rfl⟩, rfl, rfl⟩
  rw [Writes, ← ho]

theorem linkLineWrites_elapsed (hw : HasWait i) (n : Nat) (s : State) :
    LinkLineWrites i s { s with seq.elapsed := n } :=
  ⟨⟨rfl, rfl, rfl, rfl, rfl, rfl, fun _ => rfl, fun h => absurd hw h⟩, rfl, rfl⟩

theorem linkLineWrites_setX (hi : i.opcode = .exchange) (x : XState) (s : State) : LinkLineWrites i s (setX x s) :=
  ⟨⟨rfl, rfl, rfl, rfl, rfl, rfl, fun h => absurd hi h, fun _ => rfl⟩, rfl, rfl⟩

theorem linkWrites_res {s : State} {r : Results} (h : r.rbitlen = s.res.rbitlen) : LinkWrites i s { s with res := r } :=
  ⟨rfl, rfl, rfl, rfl, rfl, h, fun _ => rfl, fun _ => rfl⟩

/-- RBOOL and RVAL are the results a line may write. -/
theorem linkLineWrites_answer (b : Bool) (x : Half) (s : State) :
    LinkLineWrites i s { s with res := { s.res with rbool := b, rval := x } } := ⟨linkWrites_res rfl, rfl, rfl⟩

theorem linkLine_clear : LinkLine i ⟨.sel true, fun _ s => .next { s with locals.rx := [] }⟩ :=
  ⟨nofun, fun _ _ => .next (linkLineWrites_locals rfl rfl)⟩

theorem linkLine_gather : LinkLine i ⟨.rx, fun v s => .next { s with locals.rx := s.locals.rx ++ [v] }⟩ :=
  ⟨nofun, fun _ _ => .next (linkLineWrites_locals rfl rfl)⟩

theorem linkLine_status : LinkLine i ⟨.rx, fun v s => .next { s with locals.status := v }⟩ :=
  ⟨nofun, fun _ _ => .next (linkLineWrites_locals rfl rfl)⟩

/-- The close of a window: a deselect with a continuation of the class. -/
theorem linkLine_close {g : State → Flow} (h : ∀ u, FlowWithin (LinkLineWrites i) u (g u)) :
    LinkLine i ⟨.sel false, fun _ s => g s⟩ := ⟨nofun, fun _ => h⟩

theorem linkLines_write {c : Config} {f : List Byte} {g : State → Flow} {p : Nat}
    (h : ∀ u, FlowWithin (LinkLineWrites i) u (g u)) : LinesAt (fun _ => LinkLine i) p (seqWrite c f g) :=
  .seqWrite (linkLine_plain nofun) (linkLine_plain nofun) (fun _ _ _ => linkLine_plain nofun) (linkLine_close h)

theorem linkLines_read {c : Config} {n : Nat} {g : State → Flow} {p : Nat}
    (h : ∀ u, FlowWithin (LinkLineWrites i) u (g u)) : LinesAt (fun _ => LinkLine i) p (seqRead c n g) :=
  .seqRead linkLine_clear (linkLine_plain nofun) (fun _ _ => linkLine_gather) (linkLine_close h)

theorem flowWithin_waitTest (hw : HasWait i) {t : Word} {q : Nat} (hq : 1 ≤ q) {e : State → Flow}
    (he : ∀ u, FlowWithin (LinkLineWrites i) u (e u)) (u : State) :
    FlowWithin (LinkLineWrites i) u (waitTest t q e u) := by
  unfold waitTest; split
  · exact .goto hq (.refl u)
  · split
    · exact .next (.refl u)
    · dsimp only; split
      · obtain ⟨w, h, g⟩ := he { u with seq.elapsed := u.seq.elapsed + u.cfg.pollStepMs }
        exact ⟨w, (linkLineWrites_elapsed hw _ u).trans h, g⟩
      · exact .next (linkLineWrites_elapsed hw _ u)

theorem linkLines_wait (hw : HasWait i) {c : Config} {p q : Nat} {t : Word} {a : State → State} {e : State → Flow}
    (ha : ∀ s, LinkLineWrites i s (a s)) (he : ∀ u, FlowWithin (LinkLineWrites i) u (e u)) :
    LinesAt (fun _ => LinkLine i) p (seqWait c q t a e) :=
  .seqWait ⟨nofun, fun _ u => .next ((ha u).trans (linkLineWrites_elapsed hw 0 _))⟩ (linkLine_plain nofun)
    (linkLine_plain nofun) linkLine_status (linkLine_close (flowWithin_waitTest hw (by simp [waitLines]; omega) he))
    ⟨nofun, fun _ u => .goto (Nat.le_add_left 1 _) (.refl u)⟩

/-- EXCHANGE's negative steps. -/
theorem flowWithin_exchangeNo (hi : i.opcode = .exchange) (k : Half) (u : State) :
    FlowWithin (LinkLineWrites i) u (exchangeNo k u) :=
  .raise ((linkLineWrites_setX hi .failed u).trans (linkLineWrites_answer _ k _))

theorem flowWithin_ite {W : State → State → Prop} {c : Prop} [Decidable c] {s : State} {f g : Flow}
    (hf : FlowWithin W s f) (hg : FlowWithin W s g) : FlowWithin W s (if c then f else g) := by
  split
  · exact hf
  · exact hg

end

/-- Every line of every link command is one of the class. -/
theorem linkLines {i : Instr} (h : i.opcode.backend = some .ctrlA) (s : State) :
    LinesAt (fun _ => LinkLine i) 1 (linesOf i s) := by
  cases i with
  | writeCommand => exact linkLines_write fun u => .next (.refl u)
  | readData n => exact linkLines_read fun u => .next (.refl u)
  | isReady =>
    exact .seqStatus (linkLine_plain nofun) (linkLine_plain nofun) linkLine_status (linkLine_plain nofun)
  | waitReady t => exact linkLines_wait (.inl rfl) .refl fun _ => .finish (linkLineWrites_answer ..)
  | readAck => exact linkLines_read fun u => .next (.refl u)
  | sendCheckAck t =>
    have hw : HasWait (.sendCheckAck t) := .inr (.inl rfl)
    have hno : ∀ k u, FlowWithin (LinkLineWrites (.sendCheckAck t)) u (sendCheckNo k u) := fun _ _ =>
      .finish (linkLineWrites_answer ..)
    exact .append (.append (.append (linkLines_write fun u => .next (.refl u)) (linkLines_wait hw .refl (hno 1)))
      (linkLines_read fun u => flowWithin_ite (.next (.refl u)) (hno 2 u))) (linkLines_wait hw .refl (hno 3))
  | exchange n t =>
    have hi : (Instr.exchange n t).opcode = .exchange := rfl
    have hw : HasWait (.exchange n t) := .inr (.inr hi)
    exact .append (.append (.append (.append (linkLines_write fun u => .next (linkLineWrites_setX hi _ u))
      (linkLines_wait hw (linkLineWrites_setX hi .ackWait) (flowWithin_exchangeNo hi 1)))
      (linkLines_read fun u => flowWithin_ite (.next (linkLineWrites_setX hi .ackOk u)) (flowWithin_exchangeNo hi 2 u)))
      (linkLines_wait hw (linkLineWrites_setX hi .responseWait) (flowWithin_exchangeNo hi 3)))
      (linkLines_read fun u => .next (.refl u))
  | _ => cases h

theorem linkWithin {i : Instr} (h : i.opcode.backend = some .ctrlA) : CommandWithin i (LinkWrites i) where
  refl := .refl
  trans _ _ _ := .trans
  lines s _ hl v u := (((linkLines h s).mem hl).2 v u).mono fun _ => LinkLineWrites.toLinkWrites
  fail s := by
    rw [failOf_eq]; split
    · exact (linkLineWrites_setX ‹_› .failed s).toLinkWrites
    · exact .refl s
  done s := by
    cases i with
    | writeCommand => exact .finish (.refl s)
    | readData n => exact .finish (linkWrites_res rfl)
    | isReady => exact .finish (linkWrites_res rfl)
    | waitReady t => exact .finish (linkWrites_res rfl)
    | readAck => exact .finish (linkWrites_res rfl)
    | sendCheckAck t => exact .finish (linkWrites_res rfl)
    | exchange n t =>
      show FlowWithin _ s (.halt (exchangeParse s))
      unfold exchangeParse; split
      · exact .finish ((linkLineWrites_setX rfl .responseParsed s).toLinkWrites.trans (linkWrites_res rfl))
      · exact .raise ((linkLineWrites_setX rfl .failed s).toLinkWrites.trans (linkWrites_res rfl))
    | _ => cases h

/-! ### The register commands -/

/-- What the rule of a register command writes: the results, the scratch registers, and the poll counter and the low CRC byte of the
command that has them. -/
structure BusWrites (i : Instr) (s w : State) : Prop where
  writes : Writes s w
  xstate : w.xstate = s.xstate
  elapsed : w.seq.elapsed = s.seq.elapsed
  rx : w.locals.rx = s.locals.rx
  status : w.locals.status = s.locals.status
  masks : w.scratch.ien = s.scratch.ien ∧ w.scratch.waitm = s.scratch.waitm
  poll : i.opcode ≠ .executeCommand → w.seq.pollI = s.seq.pollI ∧ w.res.rbitlen = s.res.rbitlen ∧
    ({ w.scratch with vtmp := s.scratch.vtmp, divv := s.scratch.divv } : Scratch) = s.scratch
  crc : i.opcode ≠ .calcCrc → w.scratch.divv = s.scratch.divv ∧ w.seq.crcI = s.seq.crcI ∧ w.locals.lo = s.locals.lo
  access : i.opcode = .readReg ∨ i.opcode = .writeReg → w.scratch = s.scratch
  rdata : i.opcode ≠ .executeCommand → w.res.rdata = s.res.rdata ∧ w.res.rlen = s.res.rlen

theorem BusWrites.refl {i : Instr} (s : State) : BusWrites i s s where
  writes := .refl s
  xstate := rfl
  elapsed := rfl
  rx := rfl
  status := rfl
  masks := ⟨rfl, rfl⟩
  poll _ := ⟨rfl, rfl, rfl⟩
  crc _ := ⟨rfl, rfl, rfl⟩
  access _ := rfl
  rdata _ := ⟨rfl, rfl⟩

theorem BusWrites.trans {i : Instr} {s u w : State} (h : BusWrites i s u) (g : BusWrites i u w) : BusWrites i s w where
  writes := h.writes.trans g.writes
  xstate := g.xstate.trans h.xstate
  elapsed := g.elapsed.trans h.elapsed
  rx := g.rx.trans h.rx
  status := g.status.trans h.status
  masks := ⟨g.masks.1.trans h.masks.1, g.masks.2.trans h.masks.2⟩
  poll hi := by
    obtain ⟨hp, hb, hs⟩ := h.poll hi
    obtain ⟨gp, gb, gs⟩ := g.poll hi
    refine ⟨gp.trans hp, gb.trans hb, Eq.trans ?_ hs⟩
    rw [← gs]
  crc hi := by
    obtain ⟨hd, hc, hl⟩ := h.crc hi
    obtain ⟨gd, gc, gl⟩ := g.crc hi
    exact ⟨gd.trans hd, gc.trans hc, gl.trans hl⟩
  access hi := (g.access hi).trans (h.access hi)
  rdata hi := ⟨(g.rdata hi).1.trans (h.rdata hi).1, (g.rdata hi).2.trans (h.rdata hi).2⟩

/-- A primitive of the register bus, a delay, or none. -/
def OnBus (pr : Prim) : Prop := (∃ a d, pr = .xfer a d) ∨ (∃ t, pr = .delay t) ∨ pr = .internal

/-- A line of a register command. -/
def BusLine (i : Instr) (l : Line) : Prop := OnBus l.prim ∧ ∀ v u, FlowWithin (BusWrites i) u (l.after v u)

section
variable {i : Instr}

theorem busLine_write {c : Config} {r x : Byte} : BusLine i (regWrite c r x) :=
  ⟨.inl ⟨_, _, rfl⟩, fun _ u => .next (.refl u)⟩

theorem busLine_read {c : Config} {r : Byte} {use : Byte → State → Flow}
    (h : ∀ v u, FlowWithin (BusWrites i) u (use v u)) : BusLine i (regRead c r use) := ⟨.inl ⟨_, _, rfl⟩, h⟩

theorem busLine_internal {g : State → Flow} (h : ∀ u, FlowWithin (BusWrites i) u (g u)) :
    BusLine i ⟨.internal, fun _ s => g s⟩ := ⟨.inr (.inr rfl), fun _ => h⟩

theorem busLine_delay {t : Nat} {g : State → Flow} (h : ∀ u, FlowWithin (BusWrites i) u (g u)) :
    BusLine i ⟨.delay t, fun _ s => g s⟩ := ⟨.inr (.inl ⟨t, rfl⟩), fun _ => h⟩

/-- RBOOL and RVAL are results of every class. -/
theorem busWrites_answer (b : Bool) (x : Half) (s : State) :
    BusWrites i s { s with res := { s.res with rbool := b, rval := x } } where
  writes := rfl
  xstate := rfl
  elapsed := rfl
  rx := rfl
  status := rfl
  masks := ⟨rfl, rfl⟩
  poll _ := ⟨rfl, rfl, rfl⟩
  crc _ := ⟨rfl, rfl, rfl⟩
  access _ := rfl
  rdata _ := ⟨rfl, rfl⟩

/-- VTMP is for the commands that read and then write (43 R161). -/
theorem busWrites_vtmp (h : i.opcode ≠ .readReg ∧ i.opcode ≠ .writeReg) (x : Byte) (s : State) :
    BusWrites i s { s with scratch.vtmp := x } where
  writes := rfl
  xstate := rfl
  elapsed := rfl
  rx := rfl
  status := rfl
  masks := ⟨rfl, rfl⟩
  poll _ := ⟨rfl, rfl, rfl⟩
  crc _ := ⟨rfl, rfl, rfl⟩
  access hi := (hi.elim h.1 h.2).elim
  rdata _ := ⟨rfl, rfl⟩

/-- What only EXECUTE_COMMAND writes (43 R176 to R178). -/
theorem busWrites_execute (h : i.opcode = .executeCommand) {s : State} {c : Scratch} (n : Nat) (r : Results)
    (hm : c.ien = s.scratch.ien ∧ c.waitm = s.scratch.waitm) (hd : c.divv = s.scratch.divv) :
    BusWrites i s { s with scratch := c, seq.pollI := n, res := r } where
  writes := rfl
  xstate := rfl
  elapsed := rfl
  rx := rfl
  status := rfl
  masks := hm
  poll hi := absurd h hi
  crc _ := ⟨hd, rfl, rfl⟩
  access hi := by rw [h] at hi; simp at hi
  rdata hi := absurd h hi

/-- What only CALC_CRC writes (43 R181), beside RBOOL. -/
theorem busWrites_calcCrc (h : i.opcode = .calcCrc) (s : State) (d : Byte) (n : Nat) (b : Bool) (lo : Byte) :
    BusWrites i s { s with scratch.divv := d, seq.crcI := n, res.rbool := b, locals.lo := lo } where
  writes := rfl
  xstate := rfl
  elapsed := rfl
  rx := rfl
  status := rfl
  masks := ⟨rfl, rfl⟩
  poll _ := ⟨rfl, rfl, rfl⟩
  crc hi := absurd h hi
  access hi := by rw [h] at hi; simp at hi
  rdata _ := ⟨rfl, rfl⟩

theorem busLines_setBits (h : i.opcode ≠ .readReg ∧ i.opcode ≠ .writeReg) {s : State} {r m : Byte} {p : Nat} :
    LinesAt (fun _ => BusLine i) p (setBits s r m) :=
  .setBits (busLine_read fun v u => .next (busWrites_vtmp h v u)) fun _ => busLine_write

theorem busLines_clearBits (h : i.opcode ≠ .readReg ∧ i.opcode ≠ .writeReg) {s : State} {r m : Byte} {p : Nat} :
    LinesAt (fun _ => BusLine i) p (clearBits s r m) :=
  .clearBits (busLine_read fun v u => .next (busWrites_vtmp h v u)) fun _ => busLine_write

theorem busLines_fifoWrites {s : State} {p : Nat} : LinesAt (fun _ => BusLine i) p (fifoWrites s) :=
  .map fun _ _ _ => busLine_write

theorem flowWithin_pollIrqTest (h : i.opcode = .executeCommand) {q : Nat} (hq : 1 ≤ q) (v : Byte) (u : State) :
    FlowWithin (BusWrites i) u (pollIrqTest q v u) := by
  have hw (r : Results) : BusWrites i u
      { u with scratch.irqv := v, seq.pollI := u.seq.pollI + 1, res := r } :=
    busWrites_execute h (c := { u.scratch with irqv := v }) _ r ⟨rfl, rfl⟩ rfl
  unfold pollIrqTest; dsimp only; split
  · exact .goto hq (hw u.res)
  · split
    · exact .raise (hw _)
    · exact .next (hw u.res)

theorem flowWithin_checkErrors (h : i.opcode = .executeCommand) (cmd v : Byte) (u : State) :
    FlowWithin (BusWrites i) u (checkErrors cmd v u) := by
  have hw : BusWrites i u { u with
      scratch.errv := v, res.rval := (zextByte v <<< 8) ||| zextByte u.scratch.irqv } :=
    busWrites_execute h (c := { u.scratch with errv := v }) u.seq.pollI _ ⟨rfl, rfl⟩ rfl
  unfold checkErrors; dsimp only; split
  · exact .raise hw
  · split
    · exact .raise hw
    · split
      · exact .next hw
      · exact .finish hw

theorem flowWithin_pollCrcTest (h : i.opcode = .calcCrc) {q : Nat} (hq : 1 ≤ q) (v : Byte) (u : State) :
    FlowWithin (BusWrites i) u (pollCrcTest q v u) := by
  have hw (b : Bool) : BusWrites i u
      { u with scratch.divv := v, seq.crcI := u.seq.crcI + 1, res.rbool := b } :=
    busWrites_calcCrc h u v (u.seq.crcI + 1) b u.locals.lo
  unfold pollCrcTest; dsimp only; split
  · exact .next (hw true)
  · split
    · exact .next (hw false)
    · exact .goto hq (hw u.res.rbool)

theorem busLines_executeHead (h : i.opcode = .executeCommand) (cmd : Byte) (s : State) :
    LinesAt (fun _ => BusLine i) 1 (executeHead cmd s) := by
  have hv : i.opcode ≠ .readReg ∧ i.opcode ≠ .writeReg := by rw [h]; exact ⟨nofun, nofun⟩
  refine .append (.append (.append (.append (.append (.cons busLine_write .nil) (busLines_clearBits hv))
    (busLines_setBits hv)) busLines_fifoWrites) (.cons busLine_write .nil)) ?_
  split
  · exact busLines_setBits hv
  · exact .nil

end

/-- Every line of every register command is one of the class. -/
theorem busLines {i : Instr} (h : i.opcode.backend = some .ctrlB) (s : State) :
    LinesAt (fun _ => BusLine i) 1 (linesOf i s) := by
  cases i with
  | readReg r => exact .cons (busLine_read fun v u => .finish (busWrites_answer _ _ u)) .nil
  | writeReg r x => exact .cons busLine_write .nil
  | setBitmask r m => exact busLines_setBits (by simp [Instr.opcode])
  | clearBitmask r m => exact busLines_clearBits (by simp [Instr.opcode])
  | executeCommand cmd =>
    have hi : (Instr.executeCommand cmd).opcode = .executeCommand := rfl
    refine .append (.append (.append (busLines_executeHead hi cmd s) ?_)
      (.cons (busLine_read (flowWithin_checkErrors hi cmd)) .nil)) ?_
    · exact .cons (busLine_internal fun u => .next (busWrites_execute hi 0 u.res ⟨rfl, rfl⟩ rfl))
        (.cons (busLine_read (flowWithin_pollIrqTest hi (by omega)))
          (.cons (busLine_delay fun u => .goto (by omega) (.refl u)) .nil))
    · exact .append (.cons (busLine_read fun v u => .next (busWrites_execute hi _ _ ⟨rfl, rfl⟩ rfl))
        (.cons (busLine_read fun v u => .next (busWrites_execute hi _ _ ⟨rfl, rfl⟩ rfl)) .nil))
        (.replicate fun _ _ => busLine_read fun v u => .next (busWrites_execute hi _ _ ⟨rfl, rfl⟩ rfl))
  | calcCrc =>
    have hi : Instr.calcCrc.opcode = .calcCrc := rfl
    have hv : Instr.calcCrc.opcode ≠ .readReg ∧ Instr.calcCrc.opcode ≠ .writeReg := by simp [Instr.opcode]
    exact .append (.append (.append (.append (busLines_clearBits hv) (busLines_setBits hv)) busLines_fifoWrites)
      (.cons busLine_write .nil)) (.cons (busLine_internal fun u => .next (busWrites_calcCrc hi u _ _ _ _))
        (.cons (busLine_read (flowWithin_pollCrcTest hi (by omega)))
          (.cons (busLine_read fun v u => .next (busWrites_calcCrc hi u _ _ _ _))
            (.cons (busLine_read fun v u => .finish (busWrites_answer _ _ u)) .nil))))
  | reset =>
    exact .append (.append (.cons busLine_write (.cons (busLine_delay fun u => .next (.refl u)) .nil))
      (busLines_setBits (by simp [Instr.opcode]))) (.map fun _ _ _ => busLine_write)
  | antennaOn => exact busLines_setBits (by simp [Instr.opcode])
  | antennaOff => exact busLines_clearBits (by simp [Instr.opcode])
  | _ => cases h

theorem busWithin {i : Instr} (h : i.opcode.backend = some .ctrlB) : CommandWithin i (BusWrites i) where
  refl := .refl
  trans _ _ _ := .trans
  lines s _ hl := ((busLines h s).mem hl).2
  fail s := by
    rw [failOf_eq, if_neg (fun hi => by rw [hi] at h; cases h)]; exact .refl s
  done s := by
    cases i with
    | readReg r => exact .finish (.refl s)
    | writeReg r x => exact .finish (.refl s)
    | setBitmask r m => exact .finish (busWrites_answer _ _ s)
    | clearBitmask r m => exact .finish (busWrites_answer _ _ s)
    | executeCommand cmd => exact .finish (busWrites_execute rfl _ _ ⟨rfl, rfl⟩ rfl)
    | calcCrc => exact .finish (.refl s)
    | reset => exact .finish (.refl s)
    | antennaOn => exact .finish (busWrites_answer _ _ s)
    | antennaOff => exact .finish (busWrites_answer _ _ s)
    | _ => cases h

end Sys2Proof.Machine
end

section
/-! Invariants of every step: a host action or a command's step keeps them (10_state.md R31; 41_link_a.md R120; 60_exceptions.md R203,
R215). -/

namespace Sys2Proof.Machine

/-! ### What `Writes` keeps, field by field -/

section
variable {s w : State}

theorem Writes.cfg (h : Writes s w) : w.cfg = s.cfg := by rw [h]
theorem Writes.busy (h : Writes s w) : w.busy = s.busy := by rw [h]
theorem Writes.latch (h : Writes s w) : w.latch = s.latch := by rw [h]
theorem Writes.op (h : Writes s w) : w.seq.op = s.seq.op := by rw [h]
theorem Writes.pos (h : Writes s w) : w.seq.pos = s.seq.pos := by rw [h]
theorem Writes.pins (h : Writes s w) : w.pins = s.pins := by rw [h]
theorem Writes.trace (h : Writes s w) : w.trace = s.trace := by rw [h]
theorem Writes.env (h : Writes s w) : w.env = s.env := by rw [h]
theorem Writes.crcr (h : Writes s w) : w.crcr = s.crcr := by rw [h]
theorem Writes.ordinal (h : Writes s w) : w.locals.ordinal = s.locals.ordinal := by rw [h]

end

/-! ### The step of a transport command, whatever its class -/

/-- The state in which a step runs its line: `s` itself, or at the start `s` with the rule's initial assignments. -/
def Entered (i : Instr) (s u : State) : Prop := u = s ∨ s.seq.pos = 0 ∧ u = { initOf i s with seq.pos := 1 }

/-- Entering writes nothing but XSTATE, the scratch registers, the counters and SEQ_POS. -/
theorem Entered.eq {i : Instr} {s u : State} (h : Entered i s u) :
    u = { s with xstate := u.xstate, scratch := u.scratch, seq := { u.seq with op := s.seq.op, elapsed := s.seq.elapsed } } := by
  obtain rfl | ⟨-, rfl⟩ := h
  · rfl
  · cases i <;> rfl

/-- The shape of a step of any transport command. -/
theorem transport_shape {i : Instr} {b : Backend} (h : i.opcode.backend = some b) {s t : State}
    (ht : exec i s = .next t) :
    ∃ u pr w, Entered i s u ∧ StepPrim i u pr ∧ Writes (perform pr u).2 w ∧ Closes w t := by
  cases b with
  | ctrlA =>
    obtain ⟨u, pr, w, hu, hpr, hw, ht⟩ := exec_shape h (linkWithin h) ht
    exact ⟨u, pr, w, hu, hpr, hw.writes, ht⟩
  | ctrlB =>
    obtain ⟨u, pr, w, hu, hpr, hw, ht⟩ := exec_shape h (busWithin h) ht
    exact ⟨u, pr, w, hu, hpr, hw.writes, ht⟩

theorem StepPrim.onBus {i : Instr} (h : i.opcode.backend = some .ctrlB) {u : State} {pr : Prim} (hpr : StepPrim i u pr) :
    OnBus pr := by
  obtain rfl | ⟨l, hl, rfl⟩ := hpr
  · exact .inr (.inr rfl)
  · exact ((busLines h u).mem hl).1

theorem StepPrim.offBus {i : Instr} (h : i.opcode.backend = some .ctrlA) {u : State} {pr : Prim} (hpr : StepPrim i u pr) :
    ∀ a d, pr ≠ .xfer a d := by
  obtain rfl | ⟨l, hl, rfl⟩ := hpr
  · exact nofun
  · exact ((linkLines h u).mem hl).1

/-- The command is the one latched. -/
theorem fetch_congr {s t : State} (h : t.latch = s.latch) : fetch t = fetch s := by rw [fetch, fetch, h]

/-! ### A property every step keeps -/

/-- What every step keeps: enough that each host action and each command's step keeps it. -/
theorem step_preserves {I : State → Prop} {s t : State} (ht : step s = .next t) (hs : I s)
    (hhost : ∀ s hs, I s → I { s with host := hs }) (hread : ∀ s x, I s → I { s with hostRead := x })
    (hrst : ∀ s, I s → I (blockReset s)) (hload : ∀ s bs, s.busy = false → bs.length ≤ s.cfg.bufMax → I s → I (loadBuf bs s))
    (hw1 : ∀ s w, s.busy = false → I s → I { s with w1 := w })
    (hstart : ∀ s w, s.busy = false → I s → I (startCommand w s))
    (hillegal : ∀ s, s.busy = true → (∃ e, fetch s = .error e) → I s → I (raiseIllegal s))
    (hexec : ∀ s t i, s.busy = true → fetch s = .ok i → exec i s = .next t → I s → I t) : I t := by
  obtain hact | ⟨u, hu, hb⟩ := step_next ht
  · obtain ⟨hs', _, _, rfl⟩ | ⟨hs', _, rfl⟩ | ⟨r, hs', _, rfl⟩ | ⟨bs, hs', _, hbusy, hlen, rfl⟩ |
      ⟨w, hs', _, hbusy, rfl⟩ | ⟨w, hs', _, hbusy, rfl⟩ := hostMove_acted hact
    · exact hhost s hs' hs
    · exact hrst _ (hhost s hs' hs)
    · exact hread _ _ (hhost s hs' hs)
    · exact hload _ bs hbusy hlen (hhost s hs' hs)
    · exact hw1 { s with host := hs' } w hbusy (hhost s hs' hs)
    · exact hstart _ w hbusy (hhost s hs' hs)
  · obtain ⟨hs', rfl⟩ := hostMove_block hu
    have hs := hhost s hs' hs
    obtain ⟨_, rfl⟩ | ⟨hbusy, he, rfl⟩ | ⟨i, hbusy, hf, hx⟩ := blockStep_next hb
    · exact hs
    · exact hillegal _ hbusy he hs
    · exact hexec _ t i hbusy hf hx hs

/-! ### SEQ_OP and the select line -/

theorem idleReleased_of_idle {s : State} (hbusy : s.busy = false) (hop : s.seq.op = none) (hsel : s.pins.sel = false) :
    IdleReleased s :=
  ⟨by rw [SeqOpAgrees, hbusy]; exact hop, fun _ => hsel, fun h => absurd (hbusy.symm.trans h) nofun⟩

theorem idleReleased_finish (s : State) : IdleReleased (finish s) := idleReleased_of_idle (by simp) (by simp) (by simp)

theorem idleReleased_raise (st : Status) (info : Option Half) (s : State) : IdleReleased (raise st info s) :=
  idleReleased_of_idle (by simp) (by simp) (by simp)

/-- A command's step: an end releases the select line, and a line that goes on keeps SEQ_OP, has left SEQ_POS 0, and drives SEL in a
Controller-A command only. -/
theorem exec_idleReleased {i : Instr} {s t : State} (hbusy : s.busy = true) (hf : fetch s = .ok i)
    (ht : exec i s = .next t) (hs : IdleReleased s) : IdleReleased t := by
  obtain ⟨hop, -, hsel⟩ := hs
  cases hb : i.opcode.backend with
  | none =>
    obtain ⟨u, -, he⟩ := exec_buffer_ends hb ht
    cases he with
    | finish => exact idleReleased_finish u
    | raise st info => exact idleReleased_raise st info u
  | some b =>
    obtain ⟨u, pr, w, hu, hpr, hw, hc⟩ := transport_shape hb ht
    cases hc with
    | finish => exact idleReleased_finish w
    | raise st info => exact idleReleased_raise st info w
    | goes p hp =>
      have hbw : w.busy = true := by rw [hw.busy, perform_busy, hu.eq, hbusy]
      have hlw : w.latch = s.latch := by rw [hw.latch, perform_latch, hu.eq]
      have how : w.seq.op = s.seq.op := by rw [hw.op, perform_seq, hu.eq]
      refine ⟨?_, fun h => absurd (hbw.symm.trans h) nofun, fun _ h => ?_⟩
      · show w.seq.op = if w.busy then some (opcField w.latch.w0) else none
        rw [how, hbw, hlw, hop, hbusy]
      · have hfw : fetch { w with seq.pos := p } = .ok i := by
          rw [← hf]; show decodeWords w.latch.w0 w.latch.w1 = _; rw [hlw]; rfl
        have hbA : b = .ctrlB := by
          obtain h | h := h
          · exact absurd h (Nat.one_le_iff_ne_zero.mp hp)
          · cases b with
            | ctrlA => exact absurd hb (h i hfw)
            | ctrlB => rfl
        subst hbA
        have hpins : w.pins = s.pins := by rw [hw.pins, perform_pins_of_bus pr u (hpr.onBus hb), hu.eq]
        show w.pins.sel = false
        rw [hpins]
        exact hsel hbusy (.inr fun j hj => by rw [← Except.ok.inj (hf.symm.trans hj), hb]; simp)

/-- Settles O57: host actions leave SEQ_OP and SEL or reset them, and a command starts with the released line of the idle block. -/
theorem everyStepReleasesWhenIdle : Obligations.EveryStepReleasesWhenIdle := by
  intro s t hs ht
  refine step_preserves ht hs (fun _ _ h => h) (fun _ _ h => h) (fun _ _ => idleReleased_of_idle rfl rfl rfl)
    (fun _ _ _ _ h => h) (fun _ _ _ h => h) (fun s w hbusy h => ?_) (fun s _ _ _ => idleReleased_raise ..)
    (fun s t i hbusy hf hx h => exec_idleReleased hbusy hf hx h)
  obtain ⟨-, hsel, -⟩ := h
  exact ⟨rfl, nofun, fun _ _ => hsel hbusy⟩

end Sys2Proof.Machine
end

section
/-! SEQ_POS (10_state.md R31): how long a command's rule is, where EXECUTE_COMMAND's lines write what its length depends on, and that
every step stays within the rule. -/

namespace Sys2Proof.Machine

/-! ### The length of a rule -/

theorem length_writeCommand (s : State) : (linesOf .writeCommand s).length = s.dataLen + 11 := by
  rw [linesOf_writeCommand, seqWrite_length, outFrame_length]

theorem readBackCount_le_respMax (s : State) : readBackCount s ≤ s.cfg.respMax := min_le_right ..

theorem executeHead_length_congr (cmd : Byte) {s t : State} (hc : t.cfg = s.cfg) (hl : t.latch = s.latch) :
    (executeHead cmd t).length = (executeHead cmd s).length := by
  rw [executeHead_length, executeHead_length, State.dataLen, State.dataLen, hc, hl]

/-- A rule's length depends on the configuration and the latched operands, and for EXECUTE_COMMAND on LVL (43 R178). -/
theorem length_linesOf_congr (i : Instr) {s t : State} (hc : t.cfg = s.cfg) (hl : t.latch = s.latch)
    (hr : i.opcode = .executeCommand → t.scratch.lvl = s.scratch.lvl) :
    (linesOf i t).length = (linesOf i s).length := by
  have hd : t.dataLen = s.dataLen := congrArg (fun x : Latch => x.ibuf.length) hl
  cases i with
  | writeCommand => rw [length_writeCommand, length_writeCommand, hd]
  | readData n => rw [linesOf_readData, linesOf_readData, seqRead_length, seqRead_length]
  | isReady => rw [linesOf_isReady, linesOf_isReady, seqStatus_length, seqStatus_length]
  | waitReady w => rw [linesOf_waitReady, linesOf_waitReady, seqWait_length, seqWait_length]
  | readAck => rw [linesOf_readAck, linesOf_readAck, seqRead_length, seqRead_length]
  | sendCheckAck w => rw [length_sendCheckAck, length_sendCheckAck, hd]
  | exchange n w => rw [length_exchange, length_exchange, hd]
  | executeCommand cmd =>
    rw [length_executeCommand, length_executeCommand, executeHead_length_congr cmd hc hl, readBackCount, readBackCount,
      hr rfl, hc]
  | calcCrc =>
    rw [length_calcCrc, length_calcCrc]
    simp [calcCrcHead, clearBits, setBits, fifoWrites, State.data, hl]
  | reset => rw [length_reset, length_reset, hc]
  | _ => rfl

/-- Every transport command has a line. -/
theorem length_linesOf_pos {i : Instr} {b : Backend} (h : i.opcode.backend = some b) (s : State) :
    0 < (linesOf i s).length := by
  cases i with
  | writeCommand => rw [length_writeCommand]; omega
  | readData n => rw [linesOf_readData, seqRead_length]; omega
  | isReady => rw [linesOf_isReady, seqStatus_length]; omega
  | waitReady w => rw [linesOf_waitReady, seqWait_length]; decide
  | readAck => rw [linesOf_readAck, seqRead_length]; omega
  | sendCheckAck w => rw [length_sendCheckAck]; omega
  | exchange n w => rw [length_exchange]; omega
  | executeCommand cmd => rw [length_executeCommand]; omega
  | calcCrc => rw [length_calcCrc]; omega
  | reset => rw [length_reset]; omega
  | readReg r => exact Nat.one_pos
  | writeReg r x => exact Nat.one_pos
  | setBitmask r m => exact Nat.two_pos
  | clearBitmask r m => exact Nat.two_pos
  | antennaOn => exact Nat.two_pos
  | antennaOff => exact Nat.two_pos
  | _ => cases h

/-! ### EXECUTE_COMMAND's lines -/

/-- What EXECUTE_COMMAND's line `p` does to RDATA, RLEN and LVL, `h` being the lines before PollIrq: the line `h + 5` writes LVL, the
lines from `h + 7` gather one byte each into RDATA, and no line but those before does more than jump or end the command. -/
def ExecuteFlow (h p : Nat) (u : State) (f : Flow) : Prop :=
  match f with
  | .next w => w.res.rlen = u.res.rlen ∧ (p ≠ h + 5 → w.scratch.lvl = u.scratch.lvl) ∧
      w.res.rdata.length = u.res.rdata.length + if h + 7 ≤ p then 1 else 0
  | .goto q w => q ≤ h + 4 ∧ p < h + 7 ∧ w.res = u.res ∧ w.scratch.lvl = u.scratch.lvl
  | .halt w => p < h + 7 ∧ (w.res.rlen = u.res.rlen ∧ w.res.rdata = u.res.rdata ∨ w.res.rlen = 0 ∧ w.res.rdata = [])

/-- A line that goes on and touches neither the results nor LVL. -/
def Quiet (l : Line) : Prop := ∀ v u, ∃ w, l.after v u = .next w ∧ w.res = u.res ∧ w.scratch.lvl = u.scratch.lvl

theorem quiet_write {c : Config} {r x : Byte} : Quiet (regWrite c r x) := fun _ u => ⟨u, rfl, rfl, rfl⟩

theorem quiet_vtmp {c : Config} {r : Byte} : Quiet (regRead c r setVtmp) := fun _ _ => ⟨_, rfl, rfl, rfl⟩

theorem quiet_executeHead (cmd : Byte) (s : State) : LinesAt (fun _ => Quiet) 1 (executeHead cmd s) := by
  refine .append (.append (.append (.append (.append (.cons quiet_write .nil) (.clearBits quiet_vtmp fun _ => quiet_write))
    (.setBits quiet_vtmp fun _ => quiet_write)) (.map fun _ _ _ => quiet_write)) (.cons quiet_write .nil)) ?_
  split
  · exact .setBits quiet_vtmp fun _ => quiet_write
  · exact .nil

theorem Quiet.executeFlow {h p : Nat} {l : Line} (hl : Quiet l) (hp : p < h + 7) (v : Byte) (u : State) :
    ExecuteFlow h p u (l.after v u) := by
  obtain ⟨w, e, hres, hlvl⟩ := hl v u
  rw [e]
  exact ⟨by rw [hres], fun _ => hlvl, by rw [hres, if_neg (by omega)]; rfl⟩

theorem executeFlow_pollIrqTest {h p q : Nat} (hq : q ≤ h + 4) (hp : p < h + 5) (v : Byte) (u : State) :
    ExecuteFlow h p u (pollIrqTest q v u) := by
  unfold pollIrqTest; dsimp only; split
  · exact ⟨hq, by omega, rfl, rfl⟩
  · split
    · exact ⟨by omega, .inr (by rw [raise_res]; exact ⟨rfl, rfl⟩)⟩
    · exact ⟨rfl, fun _ => rfl, by rw [if_neg (by omega)]; rfl⟩

theorem executeFlow_checkErrors {h p : Nat} (hp : p < h + 5) (cmd v : Byte) (u : State) :
    ExecuteFlow h p u (checkErrors cmd v u) := by
  unfold checkErrors; dsimp only; split
  · exact ⟨by omega, .inr (by rw [raise_res]; exact ⟨rfl, rfl⟩)⟩
  · split
    · exact ⟨by omega, .inr (by rw [raise_res]; exact ⟨rfl, rfl⟩)⟩
    · split
      · exact ⟨rfl, fun _ => rfl, by rw [if_neg (by omega)]; rfl⟩
      · exact ⟨by omega, .inl (by rw [finish_res]; exact ⟨rfl, rfl⟩)⟩

theorem executeLines_flow (cmd : Byte) (s : State) :
    LinesAt (fun p l => ∀ v u, ExecuteFlow (executeHead cmd s).length p u (l.after v u)) 1
      (linesOf (.executeCommand cmd) s) := by
  have hquiet := quiet_executeHead cmd s
  show LinesAt _ 1 (executeLines cmd s)
  unfold executeLines
  generalize executeHead cmd s = head at *
  have hhead : LinesAt (fun p l => ∀ v u, ExecuteFlow head.length p u (l.after v u)) 1 head := fun k l hl v u =>
    (hquiet k l hl).executeFlow (by have hk := (List.getElem?_eq_some_iff.mp hl).1; omega) v u
  have hpoll : LinesAt (fun p l => ∀ v u, ExecuteFlow head.length p u (l.after v u)) (head.length + 1)
      (pollIrq s.cfg (head.length + 1)) :=
    .cons (fun _ _ => ⟨rfl, fun _ => rfl, by rw [if_neg (by omega)]; rfl⟩)
      (.cons (executeFlow_pollIrqTest (by omega) (by omega))
        (.cons (fun _ _ => ⟨by omega, by omega, rfl, rfl⟩) .nil))
  have hread : LinesAt (fun p l => ∀ v u, ExecuteFlow head.length p u (l.after v u)) (head.length + 5) (readBack s) :=
    .append_at (q := head.length + 7)
      (.cons (fun _ _ => ⟨rfl, fun h => absurd rfl h, by rw [if_neg (by omega)]; rfl⟩)
        (.cons (fun _ _ => ⟨rfl, fun _ => rfl, by rw [if_neg (by omega)]; rfl⟩) .nil))
      (.replicate fun _ _ _ _ => ⟨rfl, fun _ => rfl, by rw [if_pos (by omega)]; exact List.length_append⟩) rfl
  exact .append_at (.append_at (q := head.length + 4) (.append_at hhead hpoll (by omega))
    (.cons (executeFlow_checkErrors (by omega) cmd) .nil) (by simp [pollIrq]; omega)) hread (by simp [pollIrq]; omega)

/-! ### SEQ_POS stays a line of the rule -/

/-- A flow that leads on has written no more than a continuation may. -/
theorem Leads.writes {i : Instr} {u w x : State} {l : Line} {v : Byte} {p : Nat} (hl : l ∈ linesOf i x)
    (hf : Leads (l.after v u) w p) : Writes u w := by
  obtain ⟨y, hy, he⟩ := tame_lines i x l hl v u
  obtain rfl := he.eq_of_leads hf
  exact hy

/-- A step that goes on within the rule stays within it, also where it has written LVL. -/
theorem goes_within {i : Instr} {b : Backend} {s u w : State} {l : Line} {v : Byte} {p : Nat} (hu : Enters i b s u)
    (hl : Answers i u l (.ok v)) (hf : Leads (l.after v (perform l.prim u).2) w p) (hp : p ≤ (linesOf i u).length) :
    p ≤ (linesOf i { w with seq.pos := p }).length := by
  have hw := hf.writes hl.mem
  have hcfg : w.cfg = u.cfg := hw.cfg.trans (perform_cfg ..)
  have hlatch : w.latch = u.latch := hw.latch.trans (perform_latch ..)
  by_cases hi : i.opcode = .executeCommand
  · obtain ⟨cmd, rfl⟩ : ∃ cmd, i = .executeCommand cmd := by
      cases i with
      | executeCommand cmd => exact ⟨cmd, rfl⟩
      | _ => cases hi
    have hhead := executeHead_length_congr cmd hcfg hlatch
    have hflow := (executeLines_flow cmd u).answers hu hl v (perform l.prim u).2
    have hkeep : w.scratch.lvl = u.scratch.lvl ∨ p ≤ (executeHead cmd u).length + 6 := by
      obtain ⟨e, rfl⟩ | e := hf <;> rw [e] at hflow
      · obtain ⟨-, hlvl, -⟩ := hflow
        rw [perform_scratch] at hlvl
        rw [hw.pos, perform_pos]
        exact (em _).symm.imp hlvl (by omega)
      · obtain ⟨hq, -⟩ := hflow
        exact .inr (by omega)
    obtain hlvl | hle := hkeep
    · rwa [length_linesOf_congr _ (t := { w with seq.pos := p }) hcfg hlatch fun _ => hlvl]
    · rw [length_executeCommand, show (executeHead cmd { w with seq.pos := p }).length = _ from hhead]
      omega
  · rwa [length_linesOf_congr i (t := { w with seq.pos := p }) hcfg hlatch fun h => absurd h hi]

/-- `PositionValid` looks at nothing but BUSY, the latched operands, SEQ_POS, the configuration and LVL. -/
theorem PositionValid.congr {s t : State} (h : PositionValid s) (hb : t.busy = s.busy) (hl : t.latch = s.latch)
    (hq : t.seq.pos = s.seq.pos) (hc : t.cfg = s.cfg) (hlvl : t.scratch.lvl = s.scratch.lvl) : PositionValid t := by
  intro hbusy i hi
  have hlen := length_linesOf_congr i hc hl fun _ => hlvl
  rw [← List.length_eq_zero_iff, hlen, hq, List.length_eq_zero_iff]
  exact h (hb.symm.trans hbusy) i (by rw [← hi, fetch_congr hl])

theorem positionValid_of_idle {s : State} (h : s.busy = false) : PositionValid s :=
  fun hbusy => absurd (h.symm.trans hbusy) nofun

/-- A command's step ends it or goes on to a line of its rule. -/
theorem exec_positionValid {i : Instr} {s t : State} (hf : fetch s = .ok i) (ht : exec i s = .next t) :
    PositionValid t := by
  cases hb : i.opcode.backend with
  | none =>
    obtain ⟨u, -, he⟩ := exec_buffer_ends hb ht
    exact positionValid_of_idle he.not_busy
  | some b =>
    cases exec_stepOf hb ht with
    | wrongBackend => exact positionValid_of_idle (raise_busy ..)
    | overLimit => exact positionValid_of_idle (raise_busy ..)
    | lost => exact positionValid_of_idle (raise_busy ..)
    | @halts u _ l v hu hl ha =>
      obtain ⟨w, -, he⟩ := tame_lines i u l hl.mem v (perform l.prim u).2
      exact positionValid_of_idle (ha ▸ he).not_busy
    | @past u w =>
      obtain ⟨x, -, he⟩ := doneOf_ends i w
      exact positionValid_of_idle he.not_busy
    | @goes u w l v p hu hl ha hp =>
      intro _ j hj
      have hlatch : w.latch = s.latch := by
        rw [(ha.writes hl.mem).latch, perform_latch]
        cases hu with
        | line => rfl
        | start => cases i <;> rfl
      have hij : j = i := Except.ok.inj (hj.symm.trans ((fetch_congr (s := s) hlatch).trans hf))
      exact .inr (.inl (hij ▸ goes_within hu hl ha hp))

/-- Settles O59: a host action leaves the running command and its position or starts a command at 0, and a command's step ends it or
goes on to a line. -/
theorem everyStepKeepsPositionValid : Obligations.EveryStepKeepsPositionValid := by
  intro s t hs ht
  exact step_preserves ht hs (fun _ _ h => h.congr rfl rfl rfl rfl rfl) (fun _ _ h => h.congr rfl rfl rfl rfl rfl)
    (fun _ _ => positionValid_of_idle rfl) (fun _ _ hbusy _ _ => positionValid_of_idle hbusy)
    (fun _ _ hbusy _ => positionValid_of_idle hbusy) (fun _ _ _ _ _ _ _ => .inl rfl)
    (fun _ _ _ _ => positionValid_of_idle (raise_busy ..)) fun _ _ _ _ hf hx _ => exec_positionValid hf hx

/-! ### No step faults -/

/-- At a position of its rule a command always answers next. -/
theorem exec_total (i : Instr) {s : State}
    (h : s.seq.pos = 0 ∨ s.seq.pos ≤ (linesOf i s).length ∨ linesOf i s = []) : ∃ t, exec i s = .next t := by
  cases hb : i.opcode.backend with
  | none =>
    obtain ⟨u, he | ⟨st, info, -, he⟩⟩ := exec_any_backend hb s
    · exact ⟨_, he⟩
    · exact ⟨_, he⟩
  | some b =>
    rw [exec_transport hb]
    obtain ⟨hp, he⟩ | ⟨-, -, he⟩ | ⟨k, -, -, -, he⟩ | ⟨-, -, -, he⟩ :=
      enter_cases b i.opcode (limitOf i s) (failOf i) (initOf i) s <;> rw [he]
    · have hpos := length_linesOf_pos hb s
      have hlt : s.seq.pos - 1 < (linesOf i s).length := by
        obtain h | h | h := h
        · exact absurd h hp
        · omega
        · rw [h] at hpos; cases hpos
      exact ⟨_, runProgram_of_line (List.getElem?_eq_getElem hlt)⟩
    · exact ⟨_, rfl⟩
    · exact ⟨_, rfl⟩
    · exact ⟨_, runProgram_of_line (List.getElem?_eq_getElem (length_linesOf_pos hb _))⟩

theorem blockStep_total {s : State} (h : PositionValid s) : ∃ t, blockStep exec s = .next t := by
  unfold blockStep
  split
  · split
    · exact ⟨_, rfl⟩
    · exact exec_total _ (h ‹_› _ ‹_›)
  · exact ⟨_, rfl⟩

/-- Every refused host action is one that 60 R202 or 10 R44 forbids. -/
theorem hostMove_refuse {s : State} {r : Refusal} (h : hostMove s = .refuse r) :
    ∃ a rest, s.host = a :: rest ∧
      (s.busy = true ∧ ((∃ w, a = .writeW0 w) ∨ (∃ w, a = .writeW1 w) ∨ (∃ bs, a = .loadBuf bs) ∨
          ∃ q, q ≠ .busy ∧ a = .read q) ∨
        ∃ bs, a = .loadBuf bs ∧ s.cfg.bufMax < bs.length) := by
  unfold hostMove at h
  split at h
  · cases h
  · cases h
  · split at h <;> cases h
  · cases h
  · split at h
    · rename_i q _ hh hc
      rw [Bool.and_eq_true, bne_iff_ne] at hc
      exact ⟨_, _, hh, .inl ⟨hc.1, .inr (.inr (.inr ⟨q, hc.2, rfl⟩))⟩⟩
    · cases h
  · split at h
    · exact ⟨_, _, ‹_›, .inl ⟨‹_›, .inr (.inr (.inl ⟨_, rfl⟩))⟩⟩
    · split at h
      · exact ⟨_, _, ‹_›, .inr ⟨_, rfl, ‹_›⟩⟩
      · cases h
  · split at h
    · exact ⟨_, _, ‹_›, .inl ⟨‹_›, .inr (.inl ⟨_, rfl⟩)⟩⟩
    · cases h
  · split at h
    · exact ⟨_, _, ‹_›, .inl ⟨‹_›, .inl ⟨_, rfl⟩⟩⟩
    · cases h

/-- A step answers next, or the host's action is refused. -/
theorem step_next_or_refused {s : State} (h : PositionValid s) :
    (∃ t, step s = .next t) ∨ ∃ r, hostMove s = .refuse r ∧ step s = .refused r := by
  unfold step machineStep
  split
  · exact .inl ⟨_, rfl⟩
  · exact .inr ⟨_, ‹_›, rfl⟩
  · obtain ⟨hs, rfl⟩ := hostMove_block ‹_›
    exact .inl (blockStep_total (h.congr rfl rfl rfl rfl rfl))

/-- Settles O60: the block's own step is total at a valid position, and what the host may be refused is `hostMove_refuse`. -/
theorem machineNeverFaults : Obligations.MachineNeverFaults := by
  intro s hs
  obtain ⟨t, ht⟩ | ⟨r, hr, ht⟩ := step_next_or_refused hs <;> rw [ht]
  · exact ⟨nofun, nofun⟩
  · exact ⟨nofun, fun r' e => hostMove_refuse hr⟩

end Sys2Proof.Machine
end

section
/-! The host's accesses and the start of a command (10_state.md R20 to R23; 60_exceptions.md R200, R201, R205), and how a command is
rejected or fails (60_exceptions.md R203). -/

namespace Sys2Proof.Machine

/-! ### Host accesses and the start (60 R201) -/

theorem step_acted {s t : State} (h : hostMove s = .acted t) : step s = .next t := by rw [step, machineStep, h]

theorem opcField_eq_setWidth (w : Word) : opcField w = w.setWidth 8 := (BitVec.setWidth_eq_extractLsb' (by decide)).symm

/-- Settles O10: the host's write of W0 is `startCommand`. -/
theorem writeOfW0StartsCommand : Obligations.WriteOfW0StartsCommand := by
  intro s w rest hhost hbusy
  refine ⟨startCommand w { s with host := rest }, step_acted (by simp [hostMove, hhost, hbusy]), ?_⟩
  simp [opcField_eq_setWidth, ClearedBesideRval, NoTransaction]

/-- What a host reads is the register's value, a Boolean as 0 or 1. -/
theorem readResult_num (s : State) :
    readResult .busy s = .num (if s.busy then 1 else 0) ∧ readResult .rbool s = .num (if s.res.rbool then 1 else 0) := by
  constructor
  · cases h : s.busy <;> simp [readResult, h]
  · cases h : s.res.rbool <;> simp [readResult, h]

theorem step_read {s : State} {r : ResultReg} {rest : List HostAction} (h : s.host = .read r :: rest)
    (hr : s.busy = false ∨ r = .busy) : step s = .next { s with host := rest, hostRead := some (readResult r s) } := by
  refine step_acted ?_
  obtain hb | rfl := hr
  · simp [hostMove, h, hb]
  · simp [hostMove, h]

/-- Settles O12: the codes by evaluation, and each access as the host's move while BUSY = 0. -/
theorem hostAccessWhileIdle : Obligations.HostAccessWhileIdle := by
  refine ⟨rfl, rfl, fun s rest => ⟨fun hbusy => ⟨fun w h => ?_, fun bs h hlen => ?_, fun r h hr => ?_⟩, fun h => ?_,
    fun h => ⟨_, step_rst h, rfl, rfl, rfl⟩⟩⟩
  · exact step_acted (by simp [hostMove, h, hbusy])
  · exact step_acted (by simp [hostMove, h, hbusy, Nat.not_lt.mpr hlen, loadBuf])
  · refine ⟨_, step_read h (.inl hbusy), ?_, ?_, ?_, ?_, ?_, ?_, ?_⟩ <;> rintro rfl
    · rfl
    · exact (readResult_num s).2
    all_goals rfl
  · rw [step_read h (.inr rfl), (readResult_num s).1]

theorem blockStep_of_fetch {s : State} {i : Instr} (hbusy : s.busy = true) (hf : fetch s = .ok i) :
    blockStep exec s = exec i s := by simp [blockStep, hbusy, hf]

/-- With nothing pending a busy block runs its command. -/
theorem step_exec {s : State} {i : Instr} (hbusy : s.busy = true) (hf : fetch s = .ok i) (hhost : s.host = []) :
    step s = exec i s := by rw [step_block hhost, blockStep_of_fetch hbusy hf]

/-- Settles O15: the three schedules that let the block run hand it the latched command; an idle block with nothing pending stays. -/
theorem stepRunsDecodedCommand : Obligations.StepRunsDecodedCommand := by
  refine ⟨fun s i rest hbusy hf => ⟨step_exec hbusy hf, fun h => ?_, fun h => ?_⟩, fun s hbusy h => ?_⟩
  · rw [step, machineStep, hostMove, h]
    simp [hbusy, blockStep_of_fetch hbusy hf]
  · rw [step_run h]; exact blockStep_of_fetch hbusy hf
  · rw [step_block h]; simp [blockStep, hbusy]

/-- Settles O16: CRC16's one step loads RVAL from the CRC unit and finishes. -/
theorem crc16Result : Obligations.Crc16Result := by
  intro s
  have hexec : exec .crc16 s = .next (finish { crcUnit s.data s with res.rval := crcA s.cfg s.data }) := rfl
  refine ⟨_, hexec, finish_endedWith _, ?_, ?_⟩
  · rw [finish_crcr]; rfl
  · rw [finish_res]; rfl

theorem standard_wf (b : Backend) : (Config.standard b).Wf := by cases b <;> decide

/-- Settles O56: after power-on the block is idle, its buffers are empty and the configuration is the standard one. -/
theorem resetMeetsInvariants : Obligations.ResetMeetsInvariants := by
  have hbuf : BuffersBounded State.reset :=
    ⟨rfl, Nat.zero_le _, Nat.zero_le _, fun _ => ⟨rfl, Nat.zero_le _⟩, nofun⟩
  exact ⟨standard_wf _, idleReleased_of_idle rfl rfl rfl, hbuf, nofun, positionValid_of_idle rfl, .inl rfl⟩

/-! ### Rejection for a length (60 R205) -/

/-- A transport command whose limit is exceeded raises E_PARAMETER at its start. -/
theorem exec_over_limit {i : Instr} {b : Backend} {k : Nat} {s : State} (h : i.opcode.backend = some b)
    (hp : s.seq.pos = 0) (hb : s.cfg.backend = b) (hk : limitOf i s = some k) :
    exec i s = .next (raise .parameter (some (zext16 k)) (failOf i s)) := by
  rw [exec_transport h, hk, enter_of_limit hp hb]; rfl

theorem rejects_of_limit {i : Instr} {b : Backend} {k : Nat} {s : State} (h : i.opcode.backend = some b)
    (hp : s.seq.pos = 0) (hsel : s.pins.sel = false) (hb : s.cfg.backend = b) (hk : limitOf i s = some k) :
    Rejects i s k (if i.opcode = .exchange then .failed else s.xstate) := by
  refine ⟨_, exec_over_limit h hp hb hk, ?_⟩
  rw [failOf_eq]
  split
  · exact raise_before_transaction .parameter _ (s := setX .failed s) hsel
  · exact raise_before_transaction .parameter _ hsel

/-- Settles O8: each limit is the command's `limitOf`; EXCHANGE's looks at ILEN first. -/
theorem parameterErrorsPrecedeTransactions : Obligations.ParameterErrorsPrecedeTransactions := by
  intro s hp hsel
  refine ⟨fun h hb => ?_, fun n h hb => ?_, fun h hb => ?_⟩
  · have hk := exceeding_of_lt h
    exact ⟨rejects_of_limit (i := .writeCommand) rfl hp hsel hb hk,
      fun w => rejects_of_limit (i := .sendCheckAck w) rfl hp hsel hb hk,
      fun n w => rejects_of_limit (i := .exchange n w) rfl hp hsel hb (by simp [limitOf, exchangeLimit, hk])⟩
  · have hk := exceeding_of_lt h
    exact ⟨rejects_of_limit (i := .readData n) rfl hp hsel hb hk, fun hd w => rejects_of_limit (i := .exchange n w) rfl hp
      hsel hb (by simp [limitOf, exchangeLimit, hk, exceeding_of_le hd])⟩
  · have hk := exceeding_of_lt h
    exact ⟨fun cmd => rejects_of_limit (i := .executeCommand cmd) rfl hp hsel hb hk,
      rejects_of_limit (i := .calcCrc) rfl hp hsel hb hk⟩

/-! ### Failed transfers (60 R200, R203) -/

/-- The end of a command by a failed transfer, in which the rule may have written XSTATE. -/
theorem lost_transfer {i : Instr} {u : State} {pr : Prim} {rest : List Answer} (hpr : pr.answered = true)
    (he : u.env = .fail :: rest) :
    let t := raise .transport (some (zext16 (perform pr u).2.locals.ordinal)) (failOf i (perform pr u).2)
    FailedTransfer u t ∧ t.trace = u.trace ++ pr.failEvent ++ (if u.pins.sel then [.sel false] else []) ∧
      t.env = rest ∧ t.xstate = if i.opcode = .exchange then .failed else u.xstate := by
  have hsel : (perform pr u).2.pins.sel = u.pins.sel := perform_sel_of_ne pr u fun l e => by rw [e] at hpr; cases hpr
  have htrace : (perform pr u).2.trace ++ closeEvents (perform pr u).2.pins =
      u.trace ++ pr.failEvent ++ (if u.pins.sel then [.sel false] else []) := by
    rw [perform_trace, nextAnswer_cons he, pr.events_fail hpr, closeEvents, hsel]
  have henv : (perform pr u).2.env = rest := by rw [perform_env, hpr, he]; rfl
  dsimp only
  refine ⟨⟨raise_endedWith .., ?_, raise_clearedBesideRval ..⟩, ?_, ?_, ?_⟩
  · rw [raise_res, Option.getD_some, perform_ordinal, hpr]; rfl
  all_goals rw [failOf_eq]; split
  · exact (raise_trace ..).trans htrace
  · exact (raise_trace ..).trans htrace
  · exact (raise_env ..).trans henv
  · exact (raise_env ..).trans henv
  · exact raise_xstate ..
  · exact (raise_xstate ..).trans (perform_xstate ..)

/-- The first line of a register command is its first transfer. -/
theorem first_line_xfer {i : Instr} {s : State} {a d : Byte} (h : firstTransfer s i = some (a, d)) :
    i.opcode.backend = some .ctrlB ∧ ∃ use, (linesOf i { initOf i s with seq.pos := 1 })[0]? = some ⟨.xfer a d, use⟩ := by
  cases i with
  | readReg r => cases h; exact ⟨rfl, _, rfl⟩
  | writeReg r x => cases h; exact ⟨rfl, _, rfl⟩
  | setBitmask r m => cases h; exact ⟨rfl, _, rfl⟩
  | clearBitmask r m => cases h; exact ⟨rfl, _, rfl⟩
  | executeCommand cmd => cases h; exact ⟨rfl, _, rfl⟩
  | calcCrc => cases h; exact ⟨rfl, _, rfl⟩
  | reset => cases h; exact ⟨rfl, _, rfl⟩
  | antennaOn => cases h; exact ⟨rfl, _, rfl⟩
  | antennaOff => cases h; exact ⟨rfl, _, rfl⟩
  | _ => cases h

theorem limitOf_register {i : Instr} (h : i.opcode.backend = some .ctrlB) {s : State}
    (hlen : s.dataLen ≤ s.cfg.fifoDepth ∨ ((∀ cmd, i ≠ .executeCommand cmd) ∧ i ≠ .calcCrc)) : limitOf i s = none := by
  cases i with
  | executeCommand cmd => exact exceeding_of_le (hlen.resolve_right fun ⟨hne, _⟩ => hne cmd rfl)
  | calcCrc => exact exceeding_of_le (hlen.resolve_right fun ⟨_, hne⟩ => hne rfl)
  | writeCommand => cases h
  | readData n => cases h
  | sendCheckAck w => cases h
  | exchange n w => cases h
  | _ => rfl

theorem initOf_xstate {i : Instr} (h : i.opcode ≠ .exchange) (s : State) : (initOf i s).xstate = s.xstate := by
  cases i with
  | exchange n w => exact absurd rfl h
  | _ => rfl

/-- Settles O9: the failed line raises at once, from a line of the rule or, for a register command, from its start. -/
theorem transportFailureEndsCommand : Obligations.TransportFailureEndsCommand := by
  refine ⟨fun i b s l rest hb hp hl hpr he => ?_, fun i a d s rest hfirst hr hlen he => ?_⟩
  · refine ⟨_, exec_at_line hb hp hl, ?_⟩
    rw [runLine_fail (perform_answer_of he hpr)]
    exact lost_transfer hpr he
  · obtain ⟨hpos, hbk, hsel⟩ := hr
    obtain ⟨hb, use, hl⟩ := first_line_xfer hfirst
    obtain ⟨htrace, -, -, hpins, hord, henv⟩ := sameRun_init i s
    have hne : i.opcode ≠ .exchange := fun e => by rw [e] at hb; cases hb
    have hx := initOf_xstate hne s
    refine ⟨_, exec_at_start hb hpos hbk (limitOf_register hb hlen) hl, ?_⟩
    rw [runLine_fail (perform_answer_of (henv.trans he) rfl)]
    obtain ⟨⟨hend, hrval, hclear⟩, ht, henv', hxs⟩ := lost_transfer (i := i) (pr := .xfer a d) rfl (henv.trans he)
    refine ⟨⟨hend, ?_, hclear⟩, ?_, henv', ?_⟩
    · rw [hrval, hord]
    · rw [ht, htrace, hpins, hsel]; exact List.append_nil _
    · rw [hxs, if_neg hne]; exact hx

end Sys2Proof.Machine
end

section
/-! What each class of commands leaves unchanged (10_state.md R30 to R35): the buffer commands, the link commands, the register
commands. -/

namespace Sys2Proof.Machine

/-! ### The buffer commands -/

/-- What a buffer command writes before it ends. -/
structure BufferWrites (i : Instr) (s u : State) : Prop where
  writes : u = { s with res := u.res, crcr := u.crcr }
  rbitlen : u.res.rbitlen = s.res.rbitlen
  rbool : i ≠ .ackMatch → u.res.rbool = s.res.rbool
  crcr : u.crcr ≠ s.crcr → i = .crc16 ∨ i = .crcAppend ∨ i = .crcCheck

theorem BufferWrites.refl {i : Instr} (s : State) : BufferWrites i s s := ⟨rfl, rfl, fun _ => rfl, fun h => absurd rfl h⟩

theorem Ends.buffer {i : Instr} {s u t : State} (e : Ends u (.halt t)) (w : BufferWrites i s u) :
    ∃ u, BufferWrites i s u ∧ Ends u (.halt t) := ⟨u, w, e⟩

/-- A buffer command writes and then ends by `finish` or `raise`. -/
theorem exec_bufferWrites {i : Instr} (h : i.opcode.backend = none) {s t : State} (ht : exec i s = .next t) :
    ∃ u, BufferWrites i s u ∧ Ends u (.halt t) := by
  cases i with
  | crc16 => cases ht; exact Ends.buffer .finish ⟨rfl, rfl, fun _ => rfl, fun _ => .inl rfl⟩
  | crcAppend =>
    simp only [exec, execCrcAppend] at ht
    split at ht <;> cases ht
    · exact Ends.buffer (.raise ..) (.refl s)
    · exact Ends.buffer .finish ⟨rfl, rfl, fun _ => rfl, fun _ => .inr (.inl rfl)⟩
  | crcCheck =>
    simp only [exec, execCrcCheck] at ht
    split at ht
    · cases ht; exact Ends.buffer (.raise ..) (.refl s)
    · split at ht <;> cases ht
      · exact Ends.buffer .finish ⟨rfl, rfl, fun _ => rfl, fun _ => .inr (.inr rfl)⟩
      · exact Ends.buffer (.raise ..) ⟨rfl, rfl, fun _ => rfl, fun _ => .inr (.inr rfl)⟩
  | frameBuild dir =>
    simp only [exec, execFrameBuild] at ht
    split at ht <;> cases ht
    · exact Ends.buffer (.raise ..) (.refl s)
    · exact Ends.buffer .finish ⟨rfl, rfl, fun _ => rfl, fun h => absurd rfl h⟩
  | frameParse dir =>
    simp only [exec, execFrameParse] at ht
    split at ht <;> cases ht
    · exact Ends.buffer .finish ⟨rfl, rfl, fun _ => rfl, fun h => absurd rfl h⟩
    · exact Ends.buffer (.raise ..) ⟨rfl, rfl, fun _ => rfl, fun h => absurd rfl h⟩
  | ackMatch => cases ht; exact Ends.buffer .finish ⟨rfl, rfl, fun h => absurd rfl h, fun h => absurd rfl h⟩
  | _ => cases h

/-! ### How a step closes -/

/-- The events of a step's close: at most the deselect of an end (60 R203). -/
def Closes.Events (w t : State) (ev : List Event) : Prop :=
  t.trace = w.trace ++ ev ∧ (ev = [] ∧ t.pins = w.pins ∨ ev = closeEvents w.pins ∧ t.pins = { w.pins with sel := false })

theorem Closes.events {w t : State} (h : Closes w t) : ∃ ev, Closes.Events w t ev := by
  cases h with
  | goes p => exact ⟨[], (List.append_nil _).symm, .inl ⟨rfl, rfl⟩⟩
  | finish => exact ⟨_, finish_trace w, .inr ⟨rfl, finish_pins w⟩⟩
  | raise st info => exact ⟨_, raise_trace .., .inr ⟨rfl, raise_pins ..⟩⟩

/-- A close leaves everything but BUSY, SEQ_OP, SEQ_POS, the results, the lines and the trace. -/
theorem Closes.same {w t : State} (h : Closes w t) :
    t.scratch = w.scratch ∧ t.crcr = w.crcr ∧ t.xstate = w.xstate ∧ t.locals = w.locals ∧ t.env = w.env ∧
      t.draws = w.draws ∧ t.seq.elapsed = w.seq.elapsed ∧ t.seq.pollI = w.seq.pollI ∧ t.seq.crcI = w.seq.crcI := by
  cases h with
  | goes p => exact ⟨rfl, rfl, rfl, rfl, rfl, rfl, rfl, rfl, rfl⟩
  | finish => simp
  | raise st info => simp

/-- RBITLEN is kept by a close, or cleared by `raise`. -/
theorem Closes.rbitlen {w t : State} (h : Closes w t) : t.res.rbitlen = w.res.rbitlen ∨ t.res.rbitlen = 0 := by
  cases h with
  | goes p => exact .inl rfl
  | finish => exact .inl (by rw [finish_res])
  | raise st info => exact .inr (by rw [raise_res])

/-- Likewise RBOOL. -/
theorem Closes.rbool {w t : State} (h : Closes w t) : t.res.rbool = w.res.rbool ∨ t.res.rbool = false := by
  cases h with
  | goes p => exact .inl rfl
  | finish => exact .inl (by rw [finish_res])
  | raise st info => exact .inr (by rw [raise_res])

/-- Settles O53: a buffer command writes results and CRCR and then ends; with the line released its end drives nothing. -/
theorem frameOfBufferCommands : Obligations.FrameOfBufferCommands := by
  intro i s t hb hsel ht
  obtain ⟨u, ⟨hw, hlen, hbool, hcrc⟩, he⟩ := exec_bufferWrites hb ht
  obtain ⟨hscr, hcrcr, hxs, hloc, henv, hdraws, -⟩ := he.closes.same
  have hpins : u.pins = s.pins := by rw [hw]
  have hseq : t.seq = { s.seq with op := none } := by
    cases he with
    | finish => rw [finish_seq, hw]
    | raise st info => rw [raise_seq, hw]
  obtain ⟨ev, htr, hev⟩ := he.closes.events
  have hquiet : ev = [] ∧ t.pins = s.pins := by
    obtain ⟨rfl, hp⟩ | ⟨rfl, hp⟩ := hev
    · exact ⟨rfl, hp.trans hpins⟩
    · exact ⟨closeEvents_of_released _ (hpins ▸ hsel), by rw [hp, hpins, ← hsel]⟩
  obtain ⟨rfl, hp⟩ := hquiet
  refine ⟨exec_sameHostSide ht, ⟨?_, ?_, ?_, ?_⟩, ?_, ?_, ?_, hp, hseq, ?_, fun hi => ?_, fun hc => ?_⟩
  · rw [htr, List.append_nil, hw]
  · rw [henv, hw]
  · rw [hdraws, hw]
  · rw [hloc, hw]
  · rw [hxs, hw]
  · rw [hscr, hw]
  · rw [hloc, hw]
  · exact hlen ▸ he.closes.rbitlen
  · exact hbool hi ▸ he.closes.rbool
  · exact hcrc (hcrcr ▸ hc)

/-! ### The events of a transport command's step -/

theorem transactions_closeEvents (p : Pins) : transactions (closeEvents p) = 0 := by
  unfold closeEvents; split <;> rfl

/-- SEL after the deselect of an end, when the lines before it have the same SEL. -/
theorem sel_after_closeEvents {p q : Pins} (h : q.sel = p.sel) : ((closeEvents p).foldl linesAfter q).sel = false := by
  unfold closeEvents; split
  · rfl
  · simpa [h] using ‹¬p.sel = true›

/-- The events of a step are those of its primitive and of its close; SEL, the ordinal and the answers follow them. -/
theorem step_events {i : Instr} {s u w t : State} {pr : Prim} (hu : Entered i s u) (hw : Writes (perform pr u).2 w)
    (ht : Closes w t) : ∃ cl, Closes.Events w t cl ∧
      t.trace = s.trace ++ (pr.events (nextAnswer u) ++ cl) ∧
      t.pins.sel = ((pr.events (nextAnswer u) ++ cl).foldl linesAfter s.pins).sel ∧
      t.locals.ordinal = s.locals.ordinal + transactions (pr.events (nextAnswer u) ++ cl) ∧
      t.env = s.env.drop (transactions (pr.events (nextAnswer u) ++ cl)) := by
  obtain ⟨cl, htr, hcl⟩ := ht.events
  obtain ⟨-, -, -, hloc, henv, -⟩ := ht.same
  have hsel : (perform pr u).2.pins.sel = ((pr.events (nextAnswer u)).foldl linesAfter s.pins).sel := by
    rw [perform_sel, hu.eq]
  have hcount : transactions (pr.events (nextAnswer u) ++ cl) = if pr.answered then 1 else 0 := by
    rw [transactions_append, transactions_events]
    obtain ⟨rfl, -⟩ | ⟨rfl, -⟩ := hcl
    · rfl
    · rw [transactions_closeEvents]; rfl
  refine ⟨cl, ⟨htr, hcl⟩, ?_, ?_, ?_, ?_⟩
  · rw [htr, hw.trace, perform_trace, List.append_assoc, hu.eq]
  · rw [List.foldl_append]
    obtain ⟨rfl, hp⟩ | ⟨rfl, hp⟩ := hcl
    · rw [hp, hw.pins, hsel]; rfl
    · rw [hp, sel_after_closeEvents]; rw [← hsel, hw.pins]
  · rw [hcount, hloc, hw.ordinal, perform_ordinal, hu.eq]
  · rw [hcount, henv, hw.env, perform_env, hu.eq]; split <;> simp

/-! ### The link commands -/

theorem initOf_link {i : Instr} (h : i.opcode.backend = some .ctrlA) (s : State) :
    (initOf i s).scratch = s.scratch ∧ (initOf i s).seq.pollI = s.seq.pollI ∧ (initOf i s).seq.crcI = s.seq.crcI := by
  cases i
  case executeCommand cmd => cases h
  case calcCrc => cases h
  all_goals exact ⟨rfl, rfl, rfl⟩

/-- EXCHANGE alone has an initial assignment among the link commands, its XSTATE. -/
theorem Entered.link {i : Instr} (h : i.opcode.backend = some .ctrlA) {s u : State} (hu : Entered i s u) :
    u.scratch = s.scratch ∧ u.seq.pollI = s.seq.pollI ∧ u.seq.crcI = s.seq.crcI ∧
      (i.opcode ≠ .exchange → u.xstate = s.xstate) := by
  obtain rfl | ⟨-, rfl⟩ := hu
  · exact ⟨rfl, rfl, rfl, fun _ => rfl⟩
  · obtain ⟨hscr, hpoll, hcrc⟩ := initOf_link h s
    exact ⟨hscr, hpoll, hcrc, fun hne => initOf_xstate hne s⟩

/-- Settles O54: one primitive of the link, the writes of the class, and the close. -/
theorem frameOfLinkCommands : Obligations.FrameOfLinkCommands := by
  intro i s t hb ht
  obtain ⟨u, pr, w, hu, hpr, hw, hc⟩ := exec_shape hb (linkWithin hb) ht
  obtain ⟨hscr, hpoll, hcrc, hx⟩ := Entered.link hb hu
  obtain ⟨tscr, tcrcr, txs, tloc, -, -, tel, tpoll, tcrc⟩ := hc.same
  have hn := hpr.offBus hb
  refine ⟨exec_sameHostSide ht, ?_, ?_, ?_, ?_, ?_, fun hi => ?_, fun h1 h2 h3 => ?_, ?_, ?_⟩
  · rw [tscr, hw.scratch, perform_scratch, hscr]
  · rw [tcrcr, hw.writes.crcr, perform_crcr, Entered.eq hu]
  · rw [tloc, hw.lo, perform_lo, Entered.eq hu]
  · rw [tpoll, hw.pollI, perform_seq, hpoll]
  · rw [tcrc, hw.crcI, perform_seq, hcrc]
  · rw [txs, hw.xstate hi, perform_xstate, hx hi]
  · rw [tel, hw.elapsed (fun h => h.elim h1 fun h => h.elim h2 h3), perform_elapsed, Entered.eq hu]
  · have hlen : w.res.rbitlen = s.res.rbitlen := by rw [hw.rbitlen, perform_res, Entered.eq hu]
    exact hlen ▸ hc.rbitlen
  · obtain ⟨cl, ⟨-, hcl⟩, htr, hsel, hord, henv⟩ := step_events hu hw.writes hc
    have hcl1 : cl.length ≤ 1 ∧ ∀ e ∈ cl, ∀ a d r, e ≠ .xfer a d r := by
      obtain ⟨rfl, -⟩ | ⟨rfl, -⟩ := hcl
      · exact ⟨Nat.zero_le 1, nofun⟩
      · unfold closeEvents; split <;> simp
    have hev : ∀ e ∈ pr.events (nextAnswer u), ∀ a d r, e ≠ .xfer a d r := by
      cases pr with
      | xfer a d => exact absurd rfl (hn a d)
      | _ => simp
    refine ⟨_, htr, ?_, fun e he => ?_, hsel, hord, henv⟩
    · rw [List.length_append]
      exact Nat.add_le_add (Prim.events_length_le ..) hcl1.1
    · exact (List.mem_append.mp he).elim (hev e) (hcl1.2 e)

/-! ### The register commands -/

/-- The initial assignments of the register commands: EXECUTE_COMMAND's masks and POLL_I, CALC_CRC's CRC_I. -/
theorem Entered.bus {i : Instr} (h : i.opcode.backend = some .ctrlB) {s u : State} (hu : Entered i s u) :
    u.xstate = s.xstate ∧ u.scratch.divv = s.scratch.divv ∧
      (i.opcode ≠ .executeCommand → u.scratch = s.scratch ∧ u.seq.pollI = s.seq.pollI) ∧
      (i.opcode ≠ .calcCrc → u.seq.crcI = s.seq.crcI) := by
  obtain rfl | ⟨-, rfl⟩ := hu
  · exact ⟨rfl, rfl, fun _ => ⟨rfl, rfl⟩, fun _ => rfl⟩
  · cases i with
    | exchange n w => cases h
    | executeCommand cmd => exact ⟨rfl, rfl, fun hi => absurd rfl hi, fun _ => rfl⟩
    | calcCrc => exact ⟨rfl, rfl, fun _ => ⟨rfl, rfl⟩, fun hi => absurd rfl hi⟩
    | _ => exact ⟨rfl, rfl, fun _ => ⟨rfl, rfl⟩, fun _ => rfl⟩

/-- Settles O55: one primitive of the bus, the writes of the class, and a close that finds the line released. -/
theorem frameOfRegisterCommands : Obligations.FrameOfRegisterCommands := by
  intro i s t hb hsel ht
  obtain ⟨u, pr, w, hu, hpr, hw, hc⟩ := exec_shape hb (busWithin hb) ht
  obtain ⟨hx, hdivv, hexe, hcrcI⟩ := Entered.bus hb hu
  obtain ⟨tscr, tcrcr, txs, tloc, -, -, tel, tpoll, tcrc⟩ := hc.same
  have hbus := hpr.onBus hb
  have hpins : w.pins = s.pins := by
    rw [hw.writes.pins, perform_pins_of_bus pr u hbus, Entered.eq hu]
  obtain ⟨cl, ⟨-, hcl⟩, htr, -, hord, henv⟩ := step_events hu hw.writes hc
  have hquiet : cl = [] ∧ t.pins = s.pins := by
    obtain ⟨rfl, hp⟩ | ⟨rfl, hp⟩ := hcl
    · exact ⟨rfl, hp.trans hpins⟩
    · exact ⟨closeEvents_of_released _ (hpins ▸ hsel), by rw [hp, hpins, ← hsel]⟩
  obtain ⟨rfl, tpins⟩ := hquiet
  have hscr : i.opcode ≠ .executeCommand → (perform pr u).2.scratch = s.scratch := fun hi => by
    rw [perform_scratch, (hexe hi).1]
  rw [List.append_nil] at htr hord henv
  refine ⟨exec_sameHostSide ht, ?_, ?_, tpins, ?_, ?_, ?_, ⟨_, htr, Prim.events_length_le .., fun e he => ?_, hord, henv⟩,
    fun reg val hi => ?_, fun hi => ?_, fun cmd hi hp => ?_, fun hi => ?_⟩
  · rw [tcrcr, hw.writes.crcr, perform_crcr, Entered.eq hu]
  · rw [txs, hw.xstate, perform_xstate, hx]
  · rw [tel, hw.elapsed, perform_elapsed, Entered.eq hu]
  · rw [tloc, hw.rx, perform_rx, Entered.eq hu]
  · rw [tloc, hw.status, perform_status, Entered.eq hu]
  · obtain ⟨a, d, rfl⟩ | ⟨us, rfl⟩ | rfl := hbus
    · exact .inl ⟨a, d, _, List.mem_singleton.mp he⟩
    · exact .inr ⟨us, List.mem_singleton.mp he⟩
    · cases he
  · have hi' : i.opcode = .readReg ∨ i.opcode = .writeReg := hi.imp (congrArg Instr.opcode) (congrArg Instr.opcode)
    rw [tscr, hw.access hi', hscr]
    obtain h | h := hi' <;> rw [h] <;> nofun
  · have hne : i.opcode ≠ .executeCommand := fun h => by
      cases i with
      | executeCommand cmd => exact hi cmd rfl
      | _ => cases h
    obtain ⟨wpoll, wlen, wscr⟩ := hw.poll hne
    refine ⟨?_, ?_, ?_⟩
    · rw [tpoll, wpoll, perform_seq, (hexe hne).2]
    · have hlen : w.res.rbitlen = s.res.rbitlen := by rw [wlen, perform_res, Entered.eq hu]
      exact hlen ▸ hc.rbitlen
    · rw [hscr hne] at wscr
      rw [tscr, wscr]
  · have hus : u = s := hu.resolve_right fun h => hp h.1
    rw [tscr, hw.masks.1, hw.masks.2, perform_scratch, hus]
    exact ⟨rfl, rfl⟩
  · have hne : i.opcode ≠ .calcCrc := fun h => by
      cases i with
      | calcCrc => exact hi rfl
      | _ => cases h
    obtain ⟨wdivv, wcrc, wlo⟩ := hw.crc hne
    rw [tscr, tcrc, tloc, wdivv, wcrc, wlo, perform_scratch, perform_seq, perform_lo, hdivv, hcrcI hne]
    exact ⟨rfl, rfl, by rw [Entered.eq hu]⟩

end Sys2Proof.Machine
end

section
/-! The buffers (10_state.md R20, R29; 43_cmd_engine.md R178): how much a running command has gathered at each line, and that no result
exceeds P_BUF_MAX. -/

namespace Sys2Proof.Machine

/-- RLEN is RDATA's length, within P_BUF_MAX (10 R29). -/
def ResultsFit (t : State) : Prop := t.res.rlen = t.res.rdata.length ∧ t.res.rdata.length ≤ t.cfg.bufMax

theorem resultsFit_raise (st : Status) (info : Option Half) (s : State) : ResultsFit (raise st info s) := by
  simp [ResultsFit]

theorem resultsFit_finish {s : State} (h : ResultsFit s) : ResultsFit (finish s) := by
  rw [ResultsFit, finish_res, finish_cfg]; exact h

theorem resultsFit_of_empty {s : State} (hd : s.res.rdata = []) (hn : s.res.rlen = 0) : ResultsFit s := by
  rw [ResultsFit, hd, hn]; exact ⟨rfl, Nat.zero_le _⟩

theorem resultsFit_of_ends {w t : State} (h : Ends w (.halt t)) (hw : ResultsFit w) : ResultsFit t := by
  cases h with
  | finish => exact resultsFit_finish hw
  | raise st info => exact resultsFit_raise ..

/-- A parsed payload is shorter than its length byte (40 R103). -/
theorem length_of_parseFrame {c : Config} {dir : Dir} {b p : List Byte} (h : parseFrame c dir b = .ok p) :
    p.length ≤ 254 := by
  obtain ⟨-, rfl⟩ := parseFrame_eq_ok_iff.mp h
  have := (b.getD 3 0).isLt
  rw [List.length_take]; omega

/-! ### The buffer commands -/

/-- A buffer command's result fits: the appended CRC and the built frame by their limits, a payload by its length byte. -/
theorem exec_buffer_fits {i : Instr} (h : i.opcode.backend = none) {s t : State} (hwf : s.cfg.Wf)
    (hd : s.res.rdata = []) (hn : s.res.rlen = 0) (ht : exec i s = .next t) : ResultsFit t := by
  obtain ⟨hmax, -, -, -, hpay, -⟩ := hwf
  have hs : ResultsFit s := resultsFit_of_empty hd hn
  cases i with
  | crc16 => cases ht; exact resultsFit_finish hs
  | crcAppend =>
    simp only [exec, execCrcAppend] at ht
    split at ht <;> cases ht
    · exact resultsFit_raise ..
    · have hlen : (s.data ++ crcBytes (crcUnit s.data s).crcr).length = s.dataLen + 2 := List.length_append
      exact resultsFit_finish ⟨hlen.symm, hlen.trans_le (not_lt.mp ‹_›)⟩
  | crcCheck =>
    simp only [exec, execCrcCheck] at ht
    split at ht
    · cases ht; exact resultsFit_raise ..
    · split at ht <;> cases ht
      · exact resultsFit_finish hs
      · exact resultsFit_raise ..
  | frameBuild dir =>
    simp only [exec, execFrameBuild] at ht
    split at ht <;> cases ht
    · exact resultsFit_raise ..
    · rename_i hlim
      have hle := (exceeding_eq_none _ _).mp hlim
      have hlen : (buildFrame s.cfg dir s.data).length = s.dataLen + 8 := buildFrame_length ..
      exact resultsFit_finish ⟨hlen.symm, hlen.trans_le ((Nat.add_le_add_right hle 8).trans hpay)⟩
  | frameParse dir =>
    simp only [exec, execFrameParse] at ht
    split at ht <;> cases ht
    · exact resultsFit_finish ⟨rfl, (length_of_parseFrame ‹_›).trans (show 254 ≤ s.cfg.bufMax by omega)⟩
    · exact resultsFit_raise ..
  | ackMatch => cases ht; exact resultsFit_finish hs
  | _ => cases h

/-! ### What a transport command has gathered -/

theorem Enters.entered {i : Instr} {b : Backend} {s u : State} (h : Enters i b s u) : Entered i s u := by
  cases h with
  | line => exact .inl rfl
  | start hp => exact .inr ⟨hp, rfl⟩

theorem readBackStart_congr (cmd : Byte) {s t : State} (hc : t.cfg = s.cfg) (hl : t.latch = s.latch) :
    readBackStart cmd t = readBackStart cmd s := by
  rw [readBackStart, readBackStart, executeHead_length_congr cmd hc hl]

/-- Entering the first line has gathered nothing, and READ_DATA's count has passed its check. -/
theorem Enters.gathered {i : Instr} {b : Backend} {s u : State} (h : Enters i b s u) (hg : gathered s i) :
    gathered u i := by
  cases h with
  | line => exact hg
  | start hp hb hk =>
    cases i with
    | readData n =>
      obtain ⟨hd, -⟩ := hg
      exact ⟨hd, fun _ => (exceeding_eq_none _ _).mp hk, fun h => absurd h (show ¬2 ≤ 1 by decide)⟩
    | readAck =>
      obtain ⟨hd, -⟩ := hg
      exact ⟨hd, fun h => absurd h (show ¬2 ≤ 1 by decide)⟩
    | executeCommand cmd =>
      have h0 : s.res.rdata.length = s.seq.pos - readBackStart cmd s := hg
      have h1 : readBackStart cmd { initOf (.executeCommand cmd) s with seq.pos := 1 } = readBackStart cmd s :=
        readBackStart_congr cmd rfl rfl
      show s.res.rdata.length = 1 - readBackStart cmd _
      rw [h1, h0, hp, readBackStart]; omega
    | _ => exact hg

/-- RDATA stays empty in every command but EXECUTE_COMMAND until it ends. -/
theorem gathered_rdata {i : Instr} (hi : i.opcode ≠ .executeCommand) {s : State} (h : gathered s i) :
    s.res.rdata = [] := by
  cases i with
  | readData n => exact h.1
  | readAck => exact h.1
  | executeCommand cmd => exact absurd rfl hi
  | _ => exact h

/-- No line of a command but EXECUTE_COMMAND writes RDATA or RLEN. -/
theorem lines_keep_data {i : Instr} {b : Backend} (h : i.opcode.backend = some b) (hi : i.opcode ≠ .executeCommand)
    (s : State) : ∀ l ∈ linesOf i s, ∀ v u,
      FlowWithin (fun x w => w.res.rdata = x.res.rdata ∧ w.res.rlen = x.res.rlen) u (l.after v u) := by
  intro l hl v u
  cases b with
  | ctrlA => exact (((linkLines h s).mem hl).2 v u).mono fun _ hw => ⟨hw.rdata, hw.rlen⟩
  | ctrlB => exact (((busLines h s).mem hl).2 v u).mono fun _ hw => hw.rdata hi

/-- Where a read window of `n` bytes leads, the bytes gathered are one for each byte line passed. -/
theorem readWindow_gathers {i : Instr} {b : Backend} {n : Nat} (hi : ∀ s, linesOf i s = seqRead s.cfg n .next)
    {s u w : State} {l : Line} {v : Byte} {p : Nat} (hu : Enters i b s u) (hl : Answers i u l (.ok v))
    (hrx : 2 ≤ u.seq.pos → u.locals.rx.length = u.seq.pos - 3)
    (hf : Leads (l.after v (perform l.prim u).2) w p) : w.locals.rx.length = min (p - 3) n := by
  have hlines : LinesAt (fun q l => ∀ v u, (2 ≤ q → u.locals.rx.length = q - 3) →
      ∃ w, l.after v u = .next w ∧ w.seq.pos = u.seq.pos ∧ w.locals.rx.length = min (q + 1 - 3) n) 1 (linesOf i u) := by
    rw [hi]
    refine .seqRead (fun v u h => ⟨_, rfl, rfl, (Nat.zero_min n).symm⟩) (fun v u h => ⟨u, rfl, rfl, ?_⟩)
      (fun k hk v u h => ⟨_, rfl, rfl, ?_⟩) (fun v u h => ⟨u, rfl, rfl, ?_⟩)
    · rw [h (by omega)]; exact (Nat.zero_min n).symm
    · rw [List.length_append, h (by omega), List.length_singleton]; omega
    · rw [h (by omega)]; omega
  obtain ⟨x, hx, hxp, hlen⟩ := hlines.answers hu hl v (perform l.prim u).2 (by rw [perform_rx]; exact hrx)
  rw [perform_pos] at hxp
  obtain ⟨e, rfl⟩ | e := hf <;> rw [hx] at e <;> cases e
  rw [hxp]; exact hlen

/-! ### A transport command's step -/

/-- What a command's step leaves in the results: an ended command's fit, a running one has gathered what its line says. -/
def RunResults (i : Instr) (t : State) : Prop :=
  t.busy = false ∧ ResultsFit t ∨ t.busy = true ∧ t.res.rlen = 0 ∧ gathered t i

theorem runResults_of_ends {i : Instr} {w t : State} (h : Ends w (.halt t)) (hw : ResultsFit w) : RunResults i t :=
  .inl ⟨h.not_busy, resultsFit_of_ends h hw⟩

theorem runResults_raise (i : Instr) (st : Status) (info : Option Half) (s : State) : RunResults i (raise st info s) :=
  .inl ⟨raise_busy .., resultsFit_raise ..⟩

/-- The end of a rule whose lines have left RDATA and RLEN empty: the gathered bytes, the parsed payload, or nothing. -/
theorem doneOf_runResults {i : Instr} (hi : i.opcode ≠ .executeCommand) {w : State} (hwf : w.cfg.Wf)
    (hd : w.res.rdata = []) (hn : w.res.rlen = 0)
    (hread : ∀ n, i = .readData n → n.toNat ≤ w.cfg.rxMax ∧ w.locals.rx.length = n.toNat)
    (hack : i = .readAck → w.locals.rx.length = 6) : RunResults i (doneOf i w) := by
  obtain ⟨hmax, -, -, hrx, -⟩ := hwf
  cases i with
  | readData n =>
    obtain ⟨hle, hlen⟩ := hread n rfl
    exact runResults_of_ends .finish ⟨hlen.symm, (hlen.le.trans hle).trans hrx⟩
  | readAck =>
    have hlen := hack rfl
    exact runResults_of_ends .finish ⟨hlen.symm, hlen.le.trans ((by decide : 6 ≤ 262).trans hmax)⟩
  | exchange n t =>
    show RunResults _ (exchangeParse w)
    unfold exchangeParse; split
    · exact runResults_of_ends .finish ⟨rfl, (length_of_parseFrame ‹_›).trans ((by decide : 254 ≤ 262).trans hmax)⟩
    · exact runResults_raise ..
  | executeCommand cmd => exact absurd rfl hi
  | _ => exact runResults_of_ends .finish (resultsFit_of_empty hd hn)

section
variable {i : Instr} {b : Backend} {s u w : State} {l : Line} {v : Byte} {p : Nat}

/-- Where a line of a command other than EXECUTE_COMMAND leads, RDATA and RLEN are still empty. -/
theorem leads_data_empty (h : i.opcode.backend = some b) (hi : i.opcode ≠ .executeCommand) (hn : s.res.rlen = 0)
    (hg : gathered s i) (hu : Enters i b s u) (hl : Answers i u l (.ok v))
    (hf : Leads (l.after v (perform l.prim u).2) w p) : w.res.rdata = [] ∧ w.res.rlen = 0 := by
  obtain ⟨x, ⟨hd, hlen⟩, he, -⟩ := lines_keep_data h hi u l hl.mem v (perform l.prim u).2
  obtain rfl := he.eq_of_leads hf
  rw [perform_res] at hd hlen
  have hu0 : u.res = s.res := by rw [hu.entered.eq]
  exact ⟨hd.trans (gathered_rdata hi (hu.gathered hg)), hlen.trans (hu0 ▸ hn)⟩

/-- Past the last line the read windows have gathered all their bytes. -/
theorem past_runResults (h : i.opcode.backend = some b) (hi : i.opcode ≠ .executeCommand) (hwf : s.cfg.Wf)
    (hn : s.res.rlen = 0) (hg : gathered s i) (hu : Enters i b s u) (hl : Answers i u l (.ok v))
    (hf : Leads (l.after v (perform l.prim u).2) w p) (hp : (linesOf i u).length < p) : RunResults i (doneOf i w) := by
  obtain ⟨hd, hlen⟩ := leads_data_empty h hi hn hg hu hl hf
  have hcfg : w.cfg = u.cfg := (hf.writes hl.mem).cfg.trans (perform_cfg ..)
  have hgu := hu.gathered hg
  refine doneOf_runResults hi ?_ hd hlen ?_ ?_
  · rw [hcfg, hu.entered.eq]; exact hwf
  · rintro n rfl
    obtain ⟨-, hle, hrx⟩ := hgu
    have hgath := readWindow_gathers (fun _ => rfl) hu hl hrx hf
    rw [linesOf_readData, seqRead_length] at hp
    rw [hcfg, hgath]
    exact ⟨hle (Nat.one_le_iff_ne_zero.mp hu.pos_pos), by omega⟩
  · rintro rfl
    obtain ⟨-, hrx⟩ := hgu
    have hgath := readWindow_gathers (fun _ => rfl) hu hl hrx hf
    rw [linesOf_readAck, seqRead_length] at hp
    omega

/-- At the next line the read windows have gathered one byte more, or none outside their byte lines. -/
theorem goes_gathered (h : i.opcode.backend = some b) (hi : i.opcode ≠ .executeCommand) (hn : s.res.rlen = 0)
    (hg : gathered s i) (hu : Enters i b s u) (hl : Answers i u l (.ok v))
    (hf : Leads (l.after v (perform l.prim u).2) w p) (hp : p ≤ (linesOf i u).length) :
    gathered { w with seq.pos := p } i := by
  obtain ⟨hd, -⟩ := leads_data_empty h hi hn hg hu hl hf
  have hgu := hu.gathered hg
  cases i with
  | readData n =>
    obtain ⟨-, hle, hrx⟩ := hgu
    have hgath := readWindow_gathers (fun _ => rfl) hu hl hrx hf
    rw [linesOf_readData, seqRead_length] at hp
    refine ⟨hd, fun _ => ?_, fun _ => hgath.trans (min_eq_left (by omega))⟩
    show n.toNat ≤ w.cfg.rxMax
    rw [(hf.writes hl.mem).cfg, perform_cfg]
    exact hle (Nat.one_le_iff_ne_zero.mp hu.pos_pos)
  | readAck =>
    obtain ⟨-, hrx⟩ := hgu
    have hgath := readWindow_gathers (fun _ => rfl) hu hl hrx hf
    rw [linesOf_readAck, seqRead_length] at hp
    exact ⟨hd, fun _ => hgath.trans (min_eq_left (by omega))⟩
  | executeCommand cmd => exact absurd rfl hi
  | _ => exact hd

/-- A line that leads on leaves BUSY 1. -/
theorem goes_busy (hbusy : s.busy = true) (hu : Enters i b s u) (hl : Answers i u l (.ok v))
    (hf : Leads (l.after v (perform l.prim u).2) w p) : w.busy = true := by
  rw [(hf.writes hl.mem).busy, perform_busy, hu.entered.eq, hbusy]

end

/-- A step of a transport command other than EXECUTE_COMMAND: its lines leave RDATA and RLEN empty, the read windows count their
bytes. -/
theorem exec_runResults {i : Instr} {b : Backend} (h : i.opcode.backend = some b) (hi : i.opcode ≠ .executeCommand)
    {s t : State} (hwf : s.cfg.Wf) (hbusy : s.busy = true) (hn : s.res.rlen = 0) (hg : gathered s i)
    (ht : exec i s = .next t) : RunResults i t := by
  cases exec_stepOf h ht with
  | wrongBackend => exact runResults_raise ..
  | overLimit => exact runResults_raise ..
  | lost => exact runResults_raise ..
  | @halts u _ l v hu hl hf =>
    obtain ⟨w, ⟨hd, hn'⟩, he, -⟩ := lines_keep_data h hi u l hl.mem v (perform l.prim u).2
    rw [perform_res] at hd hn'
    have hu0 : u.res = s.res := by rw [hu.entered.eq]
    exact runResults_of_ends (hf ▸ he)
      (resultsFit_of_empty (hd.trans (gathered_rdata hi (hu.gathered hg))) (hn'.trans (hu0 ▸ hn)))
  | past hu hl hf hp => exact past_runResults h hi hwf hn hg hu hl hf hp
  | goes hu hl hf hp =>
    have hb := goes_busy hbusy hu hl hf
    obtain ⟨-, hlen⟩ := leads_data_empty h hi hn hg hu hl hf
    exact .inr ⟨hb, hlen, goes_gathered h hi hn hg hu hl hf hp⟩

section
variable {cmd : Byte} {s u w t : State} {l : Line} {v : Byte} {p : Nat}

/-- A line of EXECUTE_COMMAND that ends it has RDATA and RLEN empty: it stands before the FIFO reads. -/
theorem execute_halts_empty (hn : s.res.rlen = 0) (hg : gathered s (.executeCommand cmd))
    (hu : Enters (.executeCommand cmd) .ctrlB s u) (hl : Answers (.executeCommand cmd) u l (.ok v))
    (hf : l.after v (perform l.prim u).2 = .halt t) : t.res.rdata = [] ∧ t.res.rlen = 0 := by
  have hflow := (executeLines_flow cmd u).answers hu hl v (perform l.prim u).2
  have hdata : u.res.rdata.length = u.seq.pos - readBackStart cmd u := hu.gathered hg
  have hu0 : u.res = s.res := by rw [hu.entered.eq]
  rw [hf] at hflow
  obtain ⟨hp, hres⟩ := hflow
  rw [perform_res] at hres
  obtain ⟨hlen, hd⟩ | ⟨hlen, hd⟩ := hres
  · refine ⟨List.eq_nil_of_length_eq_zero ?_, hlen.trans (hu0 ▸ hn)⟩
    rw [hd, hdata, readBackStart]; omega
  · exact ⟨hd, hlen⟩

/-- Past its last line EXECUTE_COMMAND has read as many bytes as it then writes to RLEN. -/
theorem execute_past_count (hg : gathered s (.executeCommand cmd)) (hu : Enters (.executeCommand cmd) .ctrlB s u)
    (hl : Answers (.executeCommand cmd) u l (.ok v)) (hf : Leads (l.after v (perform l.prim u).2) w p)
    (hp : (linesOf (.executeCommand cmd) u).length < p) : w.res.rdata.length = readBackCount w := by
  have hflow := (executeLines_flow cmd u).answers hu hl v (perform l.prim u).2
  have hdata : u.res.rdata.length = u.seq.pos - readBackStart cmd u := hu.gathered hg
  have hw := hf.writes hl.mem
  have hin := (List.getElem?_eq_some_iff.mp hl.line).1
  have hpos := hu.pos_pos
  rw [length_executeCommand] at hp hin
  obtain ⟨e, rfl⟩ | e := hf <;> rw [e] at hflow
  · obtain ⟨-, hlvl, hlen⟩ := hflow
    rw [perform_res, hdata, readBackStart] at hlen
    rw [hw.pos, perform_pos] at hp
    have hcount : readBackCount w = readBackCount u := by
      rw [readBackCount, readBackCount, hlvl (by omega), perform_scratch, hw.cfg, perform_cfg]
    rw [hlen, hcount]; split <;> omega
  · obtain ⟨hq, -⟩ := hflow
    omega

/-- At the next line of EXECUTE_COMMAND RLEN is still 0 and RDATA holds the bytes of the FIFO reads passed. -/
theorem execute_goes_gathered (hn : s.res.rlen = 0) (hg : gathered s (.executeCommand cmd))
    (hu : Enters (.executeCommand cmd) .ctrlB s u) (hl : Answers (.executeCommand cmd) u l (.ok v))
    (hf : Leads (l.after v (perform l.prim u).2) w p) :
    w.res.rlen = 0 ∧ gathered { w with seq.pos := p } (.executeCommand cmd) := by
  have hflow := (executeLines_flow cmd u).answers hu hl v (perform l.prim u).2
  have hdata : u.res.rdata.length = u.seq.pos - readBackStart cmd u := hu.gathered hg
  have hw := hf.writes hl.mem
  have hu0 : u.res = s.res := by rw [hu.entered.eq]
  have hstart : readBackStart cmd { w with seq.pos := p } = readBackStart cmd u :=
    readBackStart_congr cmd (hw.cfg.trans (perform_cfg ..)) (hw.latch.trans (perform_latch ..))
  have hgoal (h : w.res.rdata.length = p - readBackStart cmd u) : gathered { w with seq.pos := p } (.executeCommand cmd) := by
    show w.res.rdata.length = p - _
    rw [hstart, h]
  obtain ⟨e, rfl⟩ | e := hf <;> rw [e] at hflow
  · obtain ⟨hrlen, -, hlen⟩ := hflow
    rw [perform_res, hdata] at hlen
    refine ⟨by rw [hrlen, perform_res, hu0, hn], hgoal ?_⟩
    rw [hlen, hw.pos, perform_pos, readBackStart]; split <;> omega
  · obtain ⟨hq, hp', hres, -⟩ := hflow
    refine ⟨by rw [hres, perform_res, hu0, hn], hgoal ?_⟩
    rw [hres, perform_res, hdata, readBackStart]; omega

end

/-- EXECUTE_COMMAND's step: RDATA grows by one byte at each FIFO read, and RLEN is written at the end with their number. -/
theorem exec_execute_runResults {cmd : Byte} {s t : State} (hwf : s.cfg.Wf) (hbusy : s.busy = true)
    (hn : s.res.rlen = 0) (hg : gathered s (.executeCommand cmd)) (ht : exec (.executeCommand cmd) s = .next t) :
    RunResults (.executeCommand cmd) t := by
  cases exec_stepOf (b := .ctrlB) rfl ht with
  | wrongBackend => exact runResults_raise ..
  | overLimit => exact runResults_raise ..
  | lost => exact runResults_raise ..
  | @halts u _ l v hu hl hf =>
    obtain ⟨hd, hlen⟩ := execute_halts_empty hn hg hu hl hf
    obtain ⟨w, -, he⟩ := tame_lines _ u l hl.mem v (perform l.prim u).2
    exact .inl ⟨(hf ▸ he).not_busy, resultsFit_of_empty hd hlen⟩
  | @past u w l v p hu hl hf hp =>
    have hcount := execute_past_count hg hu hl hf hp
    obtain ⟨-, -, hresp, -⟩ := hwf
    refine runResults_of_ends .finish ⟨hcount.symm, hcount.le.trans ((readBackCount_le_respMax w).trans ?_)⟩
    rw [(hf.writes hl.mem).cfg, perform_cfg, hu.entered.eq]; exact hresp
  | goes hu hl hf hp =>
    have hb := goes_busy hbusy hu hl hf
    obtain ⟨hlen, hdata⟩ := execute_goes_gathered hn hg hu hl hf
    exact .inr ⟨hb, hlen, hdata⟩

/-! ### Every step -/

/-- `BuffersBounded` looks at nothing but the configuration, the buffers, BUSY, the latched operands, the results, SEQ_POS and the
received bytes. -/
theorem BuffersBounded.congr {s t : State} (h : BuffersBounded s) (hc : t.cfg = s.cfg) (hn : t.ilen = s.ilen)
    (hi : t.ibuf = s.ibuf) (hl : t.latch = s.latch) (hb : t.busy = s.busy) (hr : t.res = s.res)
    (hp : t.seq.pos = s.seq.pos) (hx : t.locals.rx = s.locals.rx) : BuffersBounded t := by
  obtain ⟨h1, h2, h3, h4, h5⟩ := h
  refine ⟨by rw [hn, hi, h1], by rwa [hi, hc], by rwa [hl, hc], by rwa [hb, hr, hc], fun hbusy => ?_⟩
  obtain ⟨hlen, hg⟩ := h5 (hb.symm.trans hbusy)
  refine ⟨hr ▸ hlen, fun i hf => ?_⟩
  have hg' := hg i ((fetch_congr hl).symm.trans hf)
  cases i with
  | executeCommand cmd =>
    show t.res.rdata.length = t.seq.pos - readBackStart cmd t
    rw [hr, hp, readBackStart_congr cmd hc hl]; exact hg'
  | readData n => simp only [gathered, hr, hc, hp, hx] at hg' ⊢; exact hg'
  | readAck => simp only [gathered, hr, hp, hx] at hg' ⊢; exact hg'
  | _ => exact (congrArg Results.rdata hr).trans hg'

/-- The buffers when no command runs. -/
theorem buffersBounded_of_idle {t : State} (hb : t.busy = false) (hn : t.ilen = t.ibuf.length)
    (hi : t.ibuf.length ≤ t.cfg.bufMax) (hl : t.latch.ibuf.length ≤ t.cfg.bufMax) (hr : ResultsFit t) :
    BuffersBounded t := ⟨hn, hi, hl, fun _ => hr, fun h => absurd (hb.symm.trans h) nofun⟩

theorem latchCurrent_of_idle {t : State} (hb : t.busy = false) : LatchCurrent t :=
  fun h => absurd (hb.symm.trans h) nofun

/-- A command that starts has gathered nothing. -/
theorem gathered_start (w : Word) (s : State) (i : Instr) : gathered (startCommand w s) i := by
  cases i with
  | readData n => exact ⟨rfl, fun h => absurd rfl h, fun h => absurd h (show ¬2 ≤ 0 by decide)⟩
  | readAck => exact ⟨rfl, fun h => absurd h (show ¬2 ≤ 0 by decide)⟩
  | executeCommand cmd => exact (Nat.zero_sub _).symm
  | _ => rfl

/-- A command's step keeps the buffers, as no command writes the host's side. -/
theorem exec_buffers {i : Instr} {s t : State} (hwf : s.cfg.Wf) (hbusy : s.busy = true) (hf : fetch s = .ok i)
    (ht : exec i s = .next t) (hs : BuffersBounded s) (hlat : LatchCurrent s) : BuffersBounded t ∧ LatchCurrent t := by
  obtain ⟨hcfg, hw0, hw1, hibuf, hilen, hlatch, -, -⟩ := exec_sameHostSide ht
  obtain ⟨h1, h2, h3, -, h5⟩ := hs
  obtain ⟨hn, hg⟩ := h5 hbusy
  have hrun : RunResults i t := by
    cases hb : i.opcode.backend with
    | none =>
      have hi : i.opcode ≠ .executeCommand := fun h => by rw [h] at hb; cases hb
      have hfit := exec_buffer_fits hb hwf (gathered_rdata hi (hg i hf)) hn ht
      obtain ⟨u, -, he⟩ := exec_buffer_ends hb ht
      exact .inl ⟨he.not_busy, hfit⟩
    | some b =>
      by_cases hi : i.opcode = .executeCommand
      · cases i with
        | executeCommand cmd => exact exec_execute_runResults hwf hbusy hn (hg _ hf) ht
        | _ => cases hi
      · exact exec_runResults hb hi hwf hbusy hn (hg i hf) ht
  refine ⟨⟨by rw [hilen, hibuf, h1], by rwa [hibuf, hcfg], by rwa [hlatch, hcfg], fun h => ?_, fun h => ?_⟩, fun _ => ?_⟩
  · obtain ⟨-, hfit⟩ | ⟨hb, -⟩ := hrun
    · exact hfit
    · exact absurd (h.symm.trans hb) nofun
  · obtain ⟨hb, -⟩ | ⟨-, hlen, hgt⟩ := hrun
    · exact absurd (h.symm.trans hb) nofun
    · refine ⟨hlen, fun j hj => ?_⟩
      have hji : i = j := Except.ok.inj (hf.symm.trans ((fetch_congr hlatch).symm.trans hj))
      exact hji ▸ hgt
  · rw [hlatch, hw0, hw1, hibuf, hilen]; exact hlat hbusy

/-- Settles O58: host actions load within P_BUF_MAX, a start latches the host's registers, and a command's step counts what it
gathers. -/
theorem everyStepKeepsBuffersBounded : Obligations.EveryStepKeepsBuffersBounded := by
  intro s t hwf hs hlat ht
  suffices h : t.cfg.Wf ∧ BuffersBounded t ∧ LatchCurrent t from h.2
  refine step_preserves (I := fun s => s.cfg.Wf ∧ BuffersBounded s ∧ LatchCurrent s) ht ⟨hwf, hs, hlat⟩
    (fun _ _ ⟨h, hb, hl⟩ => ⟨h, hb.congr rfl rfl rfl rfl rfl rfl rfl rfl, hl⟩)
    (fun _ _ ⟨h, hb, hl⟩ => ⟨h, hb.congr rfl rfl rfl rfl rfl rfl rfl rfl, hl⟩)
    (fun _ ⟨h, _⟩ => ⟨h, buffersBounded_of_idle rfl rfl (Nat.zero_le _) (Nat.zero_le _) (resultsFit_of_empty rfl rfl),
      latchCurrent_of_idle rfl⟩)
    (fun _ _ hbusy hlen ⟨h, ⟨_, _, h3, h4, _⟩, _⟩ =>
      ⟨h, buffersBounded_of_idle hbusy rfl hlen h3 (h4 hbusy), latchCurrent_of_idle hbusy⟩)
    (fun _ _ hbusy ⟨h, hb, _⟩ => ⟨h, hb.congr rfl rfl rfl rfl rfl rfl rfl rfl, latchCurrent_of_idle hbusy⟩)
    (fun s w _ ⟨h, ⟨h1, h2, _⟩, _⟩ => ⟨h, ⟨h1, h2, (List.length_take_le' _ _).trans h2, nofun,
      fun _ => ⟨rfl, fun i _ => gathered_start w s i⟩⟩, fun _ => rfl⟩)
    (fun s hbusy _ ⟨h, ⟨h1, h2, h3, _⟩, _⟩ => ⟨?_, buffersBounded_of_idle (raise_busy ..) ?_ ?_ ?_ (resultsFit_raise ..),
      latchCurrent_of_idle (raise_busy ..)⟩)
    (fun s t i hbusy hf hx ⟨h, hb, hl⟩ => ⟨?_, exec_buffers h hbusy hf hx hb hl⟩)
  · rw [raiseIllegal, raise_cfg]; exact h
  · rw [raiseIllegal, raise_ilen, raise_ibuf, h1]
  · rw [raiseIllegal, raise_ibuf, raise_cfg]; exact h2
  · rw [raiseIllegal, raise_latch, raise_cfg]; exact h3
  · obtain ⟨hcfg, -⟩ := exec_sameHostSide hx
    rw [hcfg]; exact h

end Sys2Proof.Machine
end

section
/-! The exchange state machine (41_link_a.md R128): what each line of EXCHANGE does to XSTATE, and that no other command's step touches
it. -/

namespace Sys2Proof.Machine

/-! ### XSTATE by position -/

section
variable {w p : Nat}

theorem exchangeStateAt_idle (h : p ≤ w) : exchangeStateAt w p = .idle := if_pos h

theorem exchangeStateAt_commandSent : exchangeStateAt w (w + 1) = .commandSent := by
  rw [exchangeStateAt, if_neg (by omega), if_pos rfl]

theorem exchangeStateAt_ackWait (h1 : w + 2 ≤ p) (h2 : p ≤ w + 15) : exchangeStateAt w p = .ackWait := by
  rw [exchangeStateAt, if_neg (by omega), if_neg (by omega), if_pos (by simp [waitLines, windowLines]; omega)]

theorem exchangeStateAt_ackOk : exchangeStateAt w (w + 16) = .ackOk := by
  rw [exchangeStateAt, if_neg (by omega), if_neg (by omega), if_neg (by simp [waitLines, windowLines]),
    if_pos (by simp [waitLines, windowLines])]

theorem exchangeStateAt_responseWait (h : w + 17 ≤ p) : exchangeStateAt w p = .responseWait := by
  rw [exchangeStateAt, if_neg (by omega), if_neg (by omega), if_neg (by simp [waitLines, windowLines]; omega),
    if_neg (by simp [waitLines, windowLines]; omega)]

/-- From a line to the next one XSTATE stays or makes a move of R128's table. -/
theorem exchangeStateAt_succ (w p : Nat) : exchangeStateAt w (p + 1) = exchangeStateAt w p ∨
    exchangeMove (exchangeStateAt w p) (exchangeStateAt w (p + 1)) = true := by
  obtain h | rfl | rfl | h | rfl | rfl | h : p + 1 ≤ w ∨ p = w ∨ p = w + 1 ∨ (w + 2 ≤ p ∧ p + 1 ≤ w + 15) ∨
      p = w + 15 ∨ p = w + 16 ∨ w + 17 ≤ p := by omega
  · exact .inl (by rw [exchangeStateAt_idle h, exchangeStateAt_idle (by omega)])
  · exact .inr (by rw [exchangeStateAt_idle (Nat.le_refl _), exchangeStateAt_commandSent]; rfl)
  · exact .inr (by rw [exchangeStateAt_commandSent, exchangeStateAt_ackWait (by omega) (by omega)]; rfl)
  · exact .inl (by rw [exchangeStateAt_ackWait (by omega) (by omega), exchangeStateAt_ackWait (by omega) (by omega)])
  · exact .inr (by rw [exchangeStateAt_ackWait (by omega) (by omega), exchangeStateAt_ackOk]; rfl)
  · exact .inr (by rw [exchangeStateAt_ackOk, exchangeStateAt_responseWait (by omega)]; rfl)
  · exact .inl (by rw [exchangeStateAt_responseWait (by omega), exchangeStateAt_responseWait (by omega)])

end

/-! ### EXCHANGE's lines -/

/-- What a flow of EXCHANGE's line `p` leaves in XSTATE, `w` being the write window's lines: the next line's state, a jump's own, or
FAILED. No jump leaves the rule. -/
def XStateFlow (w p : Nat) (f : Flow) : Prop :=
  match f with
  | .next x => x.xstate = exchangeStateAt w (p + 1)
  | .goto q x => x.xstate = exchangeStateAt w p ∧ exchangeStateAt w q = exchangeStateAt w p ∧ q ≤ w + 22
  | .halt x => x.xstate = .failed

/-- A line of EXCHANGE keeps XSTATE in step with SEQ_POS. -/
def XStateLine (w p : Nat) (l : Line) : Prop :=
  ∀ v u, u.xstate = exchangeStateAt w p → XStateFlow w p (l.after v u)

section
variable {w p n : Nat} {x : XState} {c : Config}

theorem xstateLine_plain {pr : Prim} {g : Byte → State → State} (h : exchangeStateAt w (p + 1) = exchangeStateAt w p)
    (hg : ∀ v s, (g v s).xstate = s.xstate) : XStateLine w p ⟨pr, fun v s => .next (g v s)⟩ :=
  fun v u hu => (hg v u).trans (hu.trans h.symm)

theorem xstateLine_move {pr : Prim} (h : exchangeStateAt w (p + 1) = x) :
    XStateLine w p ⟨pr, fun _ s => .next (setX x s)⟩ := fun _ _ _ => h.symm

theorem xstateFlow_exchangeNo (k : Half) (u : State) : XStateFlow w p (exchangeNo k u) := raise_xstate ..

theorem xstateFlow_waitTest {t : Word} {q : Nat} {k : Half} (hp : exchangeStateAt w (p + 1) = exchangeStateAt w p)
    (hq : exchangeStateAt w q = exchangeStateAt w p) (hle : q ≤ w + 22) {u : State}
    (hu : u.xstate = exchangeStateAt w p) : XStateFlow w p (waitTest t q (exchangeNo k) u) := by
  unfold waitTest; split
  · exact ⟨hu, hq, hle⟩
  · split
    · exact hu.trans hp.symm
    · dsimp only; split
      · exact xstateFlow_exchangeNo ..
      · exact hu.trans hp.symm

/-- A wait whose start sets XSTATE, the state of its other lines and of its exit. -/
theorem xstateLines_wait {t : Word} {k : Half} (hx : ∀ j, p + 1 ≤ j → j ≤ p + 6 → exchangeStateAt w j = x)
    (hle : p ≤ w + 16) : LinesAt (XStateLine w) p (seqWait c p t (setX x) (exchangeNo k)) := by
  have at_ (j : Nat) (h1 : p + 1 ≤ j) (h2 : j ≤ p + 5) : exchangeStateAt w (j + 1) = exchangeStateAt w j := by
    rw [hx j h1 (by omega), hx (j + 1) (by omega) (by omega)]
  have hexit : exchangeStateAt w (p + waitLines) = exchangeStateAt w (p + 4) :=
    (hx (p + 6) (by omega) (by omega)).trans (hx (p + 4) (by omega) (by omega)).symm
  have hback : exchangeStateAt w (p + 1) = exchangeStateAt w (p + 5) := by
    rw [hx _ (by omega) (by omega), hx _ (by omega) (by omega)]
  exact .seqWait (fun _ _ _ => (hx (p + 1) (by omega) (by omega)).symm)
    (xstateLine_plain (at_ _ (by omega) (by omega)) fun _ _ => rfl)
    (xstateLine_plain (at_ _ (by omega) (by omega)) fun _ _ => rfl)
    (xstateLine_plain (at_ _ (by omega) (by omega)) fun _ _ => rfl)
    (fun _ _ hu => xstateFlow_waitTest (at_ _ (by omega) (by omega)) hexit (Nat.add_le_add_right hle 6) hu)
    (fun _ _ hu => ⟨hu, hback, by omega⟩)

/-- A read window with one XSTATE in all its lines, and the close the rule gives it. -/
theorem xstateLines_read {g : State → Flow} (hx : ∀ j, p ≤ j → j ≤ p + 2 + n → exchangeStateAt w j = x)
    (hclose : ∀ u, u.xstate = x → XStateFlow w (p + 2 + n) (g u)) : LinesAt (XStateLine w) p (seqRead c n g) := by
  have at_ (j : Nat) (h1 : p ≤ j) (h2 : j < p + 2 + n) : exchangeStateAt w (j + 1) = exchangeStateAt w j := by
    rw [hx j h1 (by omega), hx (j + 1) (by omega) (by omega)]
  exact .seqRead (xstateLine_plain (at_ _ (by omega) (by omega)) fun _ _ => rfl)
    (xstateLine_plain (at_ _ (by omega) (by omega)) fun _ _ => rfl)
    (fun k hk => xstateLine_plain (at_ _ (by omega) (by omega)) fun _ _ => rfl)
    fun _ u hu => hclose u (hu.trans (hx _ (by omega) (by omega)))

end

theorem windowLines_outFrame (s : State) : windowLines (outFrame s).length = s.dataLen + 11 := by
  rw [outFrame_length, windowLines]

/-- Every line of EXCHANGE keeps XSTATE in step with SEQ_POS. -/
theorem xstateLines_exchange (n : Half) (t : Word) (s : State) :
    LinesAt (XStateLine (windowLines (outFrame s).length)) 1 (linesOf (.exchange n t) s) := by
  rw [windowLines_outFrame]
  show LinesAt _ 1 (exchangeLines n t s)
  unfold exchangeLines
  have hwrite : LinesAt (XStateLine (s.dataLen + 11)) 1
      (seqWrite s.cfg (outFrame s) fun u => .next (setX .commandSent u)) := by
    have plain {pr : Prim} (j : Nat) (h : j < s.dataLen + 11) : XStateLine (s.dataLen + 11) j ⟨pr, fun _ u => .next u⟩ :=
      xstateLine_plain (by rw [exchangeStateAt_idle h, exchangeStateAt_idle (Nat.le_of_lt h)]) fun _ _ => rfl
    refine .seqWrite (plain 1 (by omega)) (plain 2 (by omega)) (fun k b hk => plain _ ?_) (xstateLine_move ?_)
    · have hk := (List.getElem?_eq_some_iff.mp hk).1
      rw [outFrame_length] at hk; omega
    · rw [outFrame_length, show 1 + 2 + (s.dataLen + 8) = s.dataLen + 11 by omega, exchangeStateAt_commandSent]
  rw [afterWrite_eq]
  refine .append_at (q := s.dataLen + 33) (.append_at (q := s.dataLen + 27) (.append_at (q := s.dataLen + 18)
    (.append_at (q := s.dataLen + 12) hwrite (xstateLines_wait (fun j h1 h2 => ?_) (by omega)) ?_)
    (xstateLines_read (x := .ackWait) (fun j h1 h2 => ?_) fun u hu => ?_) ?_)
    (xstateLines_wait (fun j h1 h2 => ?_) (by omega)) ?_) (xstateLines_read (x := .responseWait) (fun j h1 h2 => ?_)
      fun u hu => ?_) ?_
  · exact exchangeStateAt_ackWait (by omega) (by omega)
  · simp [seqWrite_length]; omega
  · exact exchangeStateAt_ackWait (by omega) (by omega)
  · split
    · exact exchangeStateAt_ackOk.symm
    · exact xstateFlow_exchangeNo ..
  · simp [seqWrite_length, seqWait_length, waitLines, windowLines]; omega
  · exact exchangeStateAt_responseWait (by omega)
  · simp [seqWrite_length, seqWait_length, seqRead_length, waitLines, windowLines]; omega
  · exact exchangeStateAt_responseWait (by omega)
  · exact hu.trans (exchangeStateAt_responseWait (by omega)).symm
  · simp [seqWrite_length, seqWait_length, seqRead_length, waitLines, windowLines]; omega

/-! ### Commands other than EXCHANGE -/

/-- No command but EXCHANGE writes XSTATE (10 R30). -/
theorem exec_xstate {i : Instr} (hi : i.opcode ≠ .exchange) {s t : State} (ht : exec i s = .next t) :
    t.xstate = s.xstate := by
  cases hb : i.opcode.backend with
  | none =>
    obtain ⟨u, hw, he⟩ := exec_buffer_ends hb ht
    obtain ⟨-, -, hx, -⟩ := he.closes.same
    rw [hx, hw]
  | some b =>
    cases b with
    | ctrlA =>
      obtain ⟨u, pr, w, hu, -, hw, hc⟩ := exec_shape hb (linkWithin hb) ht
      obtain ⟨-, -, -, hux⟩ := Entered.link hb hu
      obtain ⟨-, -, hx, -⟩ := hc.same
      rw [hx, hw.xstate hi, perform_xstate, hux hi]
    | ctrlB =>
      obtain ⟨u, pr, w, hu, -, hw, hc⟩ := exec_shape hb (busWithin hb) ht
      obtain ⟨hux, -⟩ := Entered.bus hb hu
      obtain ⟨-, -, hx, -⟩ := hc.same
      rw [hx, hw.xstate, perform_xstate, hux]

/-! ### The invariant -/

/-- A state of XSTATE in which no EXCHANGE runs (41 R128). -/
def FinalX (x : XState) : Prop := x = .idle ∨ x = .responseParsed ∨ x = .failed

theorem exchangeRunning_iff (s : State) :
    exchangeRunning s = true ↔ s.busy = true ∧ s.seq.pos ≠ 0 ∧ ∃ n t, fetch s = .ok (.exchange n t) := by
  unfold exchangeRunning
  rw [Bool.and_eq_true, Bool.and_eq_true, decide_eq_true_iff, and_assoc]
  refine and_congr_right fun _ => and_congr_right fun _ => ?_
  split
  · exact iff_of_true rfl ⟨_, _, ‹_›⟩
  · exact iff_of_false nofun fun ⟨n, t, h⟩ => by simp_all

theorem xstateConsistent_of_final {s : State} (hr : exchangeRunning s ≠ true) (hx : FinalX s.xstate) :
    XStateConsistent s := by
  rw [XStateConsistent, if_neg hr]; exact hx

theorem XStateConsistent.final {s : State} (h : XStateConsistent s) (hr : exchangeRunning s ≠ true) :
    FinalX s.xstate := by
  rw [XStateConsistent, if_neg hr] at h; exact h

theorem XStateConsistent.running {s : State} (h : XStateConsistent s) (hr : exchangeRunning s = true) :
    s.xstate = exchangeStateAt (windowLines (outFrame s).length) s.seq.pos := by
  rwa [XStateConsistent, if_pos hr] at h

theorem not_running_of_idle {s : State} (h : s.busy = false) : exchangeRunning s ≠ true := fun hr => by
  obtain ⟨hb, -⟩ := (exchangeRunning_iff s).mp hr
  exact absurd (h.symm.trans hb) nofun

theorem not_running_of_start {s : State} (h : s.seq.pos = 0) : exchangeRunning s ≠ true := fun hr => by
  obtain ⟨-, hp, -⟩ := (exchangeRunning_iff s).mp hr
  exact hp h

/-- While another command is latched, no EXCHANGE runs. -/
theorem not_running_of_fetch {s : State} (h : ∀ n t, fetch s ≠ .ok (.exchange n t)) : exchangeRunning s ≠ true :=
  fun hr => by
    obtain ⟨-, -, n, t, hf⟩ := (exchangeRunning_iff s).mp hr
    exact h n t hf

theorem outFrame_length_congr {s t : State} (hl : t.latch = s.latch) :
    (outFrame t).length = (outFrame s).length := by
  rw [outFrame_length, outFrame_length, State.dataLen, State.dataLen, hl]

/-- `XStateConsistent` looks at nothing but BUSY, SEQ_POS, the latched operands and XSTATE. -/
theorem XStateConsistent.congr {s t : State} (h : XStateConsistent s) (hb : t.busy = s.busy)
    (hp : t.seq.pos = s.seq.pos) (hl : t.latch = s.latch) (hx : t.xstate = s.xstate) : XStateConsistent t := by
  have hr : exchangeRunning t = exchangeRunning s := by rw [exchangeRunning, exchangeRunning, hb, hp, fetch_congr hl]
  rw [XStateConsistent, hr, hp, hx, outFrame_length_congr hl]
  exact h

/-- EXCHANGE's last line ends it, parsed or failed. -/
theorem exchangeParse_ends (w : State) : (exchangeParse w).busy = false ∧
    ((exchangeParse w).xstate = .responseParsed ∨ (exchangeParse w).xstate = .failed) := by
  unfold exchangeParse; split
  · exact ⟨finish_busy _, .inl (finish_xstate _)⟩
  · exact ⟨raise_busy .., .inr (raise_xstate ..)⟩

section
variable {n : Half} {a : Word} {s u w : State} {l : Line} {v : Byte} {p : Nat}

/-- Every state of the table may move to FAILED. -/
theorem exchangeMove_failed (x : XState) : exchangeMove x .failed = true := by cases x <;> rfl

/-- In the state in which EXCHANGE runs a line, XSTATE is what the line says. -/
theorem enters_exchange_xstate (hf : fetch s = .ok (.exchange n a)) (hs : XStateConsistent s) (hbusy : s.busy = true)
    (hu : Enters (.exchange n a) .ctrlA s u) :
    u.xstate = exchangeStateAt (windowLines (outFrame u).length) u.seq.pos ∧ (s.seq.pos ≠ 0 → u = s) := by
  cases hu with
  | line hp => exact ⟨hs.running ((exchangeRunning_iff s).mpr ⟨hbusy, hp, n, a, hf⟩), fun _ => rfl⟩
  | start hp => exact ⟨(exchangeStateAt_idle (Nat.le_add_left 1 _)).symm, fun h => absurd hp h⟩

/-- Only the last line, which RESPONSE_WAIT holds at, leads past the rule. -/
theorem exchange_past_xstate (hux : u.xstate = exchangeStateAt (windowLines (outFrame u).length) u.seq.pos)
    (hu : Enters (.exchange n a) .ctrlA s u) (hl : Answers (.exchange n a) u l (.ok v))
    (hfl : Leads (l.after v (perform l.prim u).2) w p) (hp : (linesOf (.exchange n a) u).length < p) :
    u.xstate = .responseWait := by
  have hflow := (xstateLines_exchange n a u).answers hu hl v (perform l.prim u).2 ((perform_xstate ..).trans hux)
  have hw := hfl.writes hl.mem
  rw [length_exchange] at hp
  rw [windowLines_outFrame] at hux hflow
  obtain ⟨e, rfl⟩ | e := hfl <;> rw [e] at hflow
  · rw [hw.pos, perform_pos] at hp
    exact hux.trans (exchangeStateAt_responseWait (by omega))
  · obtain ⟨-, -, hq⟩ := hflow
    omega

/-- A line that leads on leaves the XSTATE of its target, by no move or one of the table's. -/
theorem exchange_goes_xstate (hux : u.xstate = exchangeStateAt (windowLines (outFrame u).length) u.seq.pos)
    (hu : Enters (.exchange n a) .ctrlA s u) (hl : Answers (.exchange n a) u l (.ok v))
    (hfl : Leads (l.after v (perform l.prim u).2) w p) :
    w.xstate = exchangeStateAt (windowLines (outFrame u).length) p ∧
      (w.xstate = u.xstate ∨ exchangeMove u.xstate w.xstate = true) := by
  have hflow := (xstateLines_exchange n a u).answers hu hl v (perform l.prim u).2 ((perform_xstate ..).trans hux)
  have hw := hfl.writes hl.mem
  obtain ⟨e, rfl⟩ | e := hfl <;> rw [e] at hflow
  · have hx : w.xstate = exchangeStateAt (windowLines (outFrame u).length) (u.seq.pos + 1) := hflow
    rw [hw.pos, perform_pos, hx, hux]
    exact ⟨rfl, exchangeStateAt_succ ..⟩
  · obtain ⟨hx, hq, -⟩ := hflow
    exact ⟨hx.trans hq.symm, .inl (hx.trans hux.symm)⟩

/-- An EXCHANGE that goes on to another line is running. -/
theorem exchange_goes_running (hf : fetch s = .ok (.exchange n a)) (hbusy : s.busy = true)
    (hu : Enters (.exchange n a) .ctrlA s u) (hl : Answers (.exchange n a) u l (.ok v))
    (hfl : Leads (l.after v (perform l.prim u).2) w p) : exchangeRunning { w with seq.pos := p } = true := by
  have hw := hfl.writes hl.mem
  have hb := goes_busy hbusy hu hl hfl
  refine (exchangeRunning_iff _).mpr ⟨hb, ?_, n, a, (fetch_congr (s := s) ?_).trans hf⟩
  · obtain ⟨-, rfl⟩ | e := hfl
    · exact Nat.succ_ne_zero _
    · obtain ⟨_, _, _, hq⟩ := (linkWithin rfl).lines u l hl.mem v (perform l.prim u).2
      exact Nat.one_le_iff_ne_zero.mp (hq _ _ e)
  · show w.latch = s.latch
    rw [hw.latch, perform_latch, hu.entered.eq]

end

/-- A step of EXCHANGE at a line from which XSTATE is in step: it ends in a final state by a move of R128's table, or stays in step
and leaves XSTATE or makes such a move. -/
theorem exec_exchange_xstate {n : Half} {a : Word} {s t : State} (hf : fetch s = .ok (.exchange n a))
    (hs : XStateConsistent s) (hbusy : s.busy = true) (ht : exec (.exchange n a) s = .next t) :
    XStateConsistent t ∧ (s.seq.pos ≠ 0 → t.xstate = s.xstate ∨ exchangeMove s.xstate t.xstate = true) := by
  have failed {t : State} (hb : t.busy = false) (hx : t.xstate = .failed) :
      XStateConsistent t ∧ (s.seq.pos ≠ 0 → t.xstate = s.xstate ∨ exchangeMove s.xstate t.xstate = true) :=
    ⟨xstateConsistent_of_final (not_running_of_idle hb) (.inr (.inr hx)), fun _ => .inr (hx ▸ exchangeMove_failed _)⟩
  cases exec_stepOf (b := .ctrlA) rfl ht with
  | wrongBackend hp =>
    refine ⟨xstateConsistent_of_final (not_running_of_idle (raise_busy ..)) ?_, fun h => absurd hp h⟩
    rw [raise_xstate]; exact hs.final (not_running_of_start hp)
  | overLimit => exact failed (raise_busy ..) (raise_xstate ..)
  | lost => exact failed (raise_busy ..) (raise_xstate ..)
  | @halts u _ l v hu hl hfl =>
    obtain ⟨hux, -⟩ := enters_exchange_xstate hf hs hbusy hu
    have hflow := (xstateLines_exchange n a u).answers hu hl v (perform l.prim u).2 ((perform_xstate ..).trans hux)
    obtain ⟨w, -, he⟩ := tame_lines _ u l hl.mem v (perform l.prim u).2
    rw [hfl] at hflow he
    exact failed he.not_busy hflow
  | @past u w l v p hu hl hfl hp =>
    obtain ⟨hux, hus⟩ := enters_exchange_xstate hf hs hbusy hu
    have hlast := exchange_past_xstate hux hu hl hfl hp
    obtain ⟨hb, hx | hx⟩ := exchangeParse_ends w
    · exact ⟨xstateConsistent_of_final (not_running_of_idle hb) (.inr (.inl hx)),
        fun h => .inr (by rw [← hus h, hlast]; exact hx ▸ rfl)⟩
    · exact failed hb hx
  | @goes u w l v p hu hl hfl hp =>
    obtain ⟨hux, hus⟩ := enters_exchange_xstate hf hs hbusy hu
    obtain ⟨hx, hm⟩ := exchange_goes_xstate hux hu hl hfl
    refine ⟨?_, fun h => by rw [← hus h]; exact hm⟩
    rw [XStateConsistent, if_pos (exchange_goes_running hf hbusy hu hl hfl), outFrame_length_congr (s := u)
      (t := { w with seq.pos := p }) ((hfl.writes hl.mem).latch.trans (perform_latch ..))]
    exact hx

/-- A command's step keeps XSTATE in step with SEQ_POS. -/
theorem exec_xstateConsistent {i : Instr} {s t : State} (hbusy : s.busy = true) (hf : fetch s = .ok i)
    (ht : exec i s = .next t) (hs : XStateConsistent s) : XStateConsistent t := by
  by_cases hi : i.opcode = .exchange
  · cases i with
    | exchange n a => exact (exec_exchange_xstate hf hs hbusy ht).1
    | _ => cases hi
  · have hne : ∀ n a, fetch s ≠ .ok (.exchange n a) := fun n a h => hi (Except.ok.inj (hf.symm.trans h) ▸ rfl)
    obtain ⟨-, -, -, -, -, hlatch, -⟩ := exec_sameHostSide ht
    refine xstateConsistent_of_final (not_running_of_fetch fun n a => fetch_congr hlatch ▸ hne n a) ?_
    rw [exec_xstate hi ht]
    exact hs.final (not_running_of_fetch hne)

/-- Settles O38: the invariant step by step, and for a running EXCHANGE, which a schedule with nothing pending lets run, the move. -/
theorem exchangeFollowsStateMachine : Obligations.ExchangeFollowsStateMachine := by
  intro s t hs ht
  refine ⟨step_preserves ht hs (fun _ _ h => h.congr rfl rfl rfl rfl) (fun _ _ h => h.congr rfl rfl rfl rfl)
    (fun _ _ => xstateConsistent_of_final (not_running_of_idle rfl) (.inl rfl))
    (fun _ _ _ _ h => h.congr rfl rfl rfl rfl) (fun _ _ _ h => h.congr rfl rfl rfl rfl)
    (fun s w hbusy h => xstateConsistent_of_final (not_running_of_start rfl) (h.final (not_running_of_idle hbusy)))
    (fun s _ ⟨e, he⟩ h => xstateConsistent_of_final (not_running_of_idle (raise_busy ..)) ?_)
    fun s t i hbusy hf hx h => exec_xstateConsistent hbusy hf hx h, fun hr hhost => ?_⟩
  · rw [raiseIllegal, raise_xstate]
    exact h.final (not_running_of_fetch fun n a hf => by rw [he] at hf; cases hf)
  · obtain ⟨hbusy, hp, n, a, hf⟩ := (exchangeRunning_iff s).mp hr
    rw [step_exec hbusy hf hhost] at ht
    exact (exec_exchange_xstate hf hs hbusy ht).2 hp

end Sys2Proof.Machine
end

section
/-! The checksums and fields of a built frame (40_frame.md R100, R101). -/

namespace Sys2Proof.Machine

/-- A checksum brings its run's sum to 0 (40 R100). -/
theorem byteSum_append_cks8 (s : List Byte) : byteSum (s ++ [cks8 s]) = 0 := by
  rw [byteSum_eq_sum, List.sum_append, cks8_eq_neg, List.sum_singleton, add_neg_cancel]

/-- Settles O21: the frame is the layout's list, and both checksums sum to 0 with the bytes they check. -/
theorem frameFieldsAndChecksums : Obligations.FrameFieldsAndChecksums := by
  refine ⟨byteSum_append_cks8, fun c => ⟨rfl, rfl⟩, fun c dir p hp => ?_⟩
  have hlen := (byteSum_eq_zero_iff _).mp (byteSum_append_cks8 [frameLen p])
  have hdata := (byteSum_eq_zero_iff _).mp (byteSum_append_cks8 (tfi c dir :: p))
  refine ⟨cks8 [frameLen p], cks8 (tfi c dir :: p), rfl, ?_, ?_, buildFrame_length .., fun hc => ?_⟩
  · rw [← frameLen_toNat hp]
    simpa using hlen
  · simpa [Nat.add_assoc] using hdata
  · have htfi : tfi c dir = if dir = .h2c then 0xD4 else 0xD5 := by cases dir <;> simp [tfi, hc]
    rw [buildFrame, ← htfi, hc]; rfl

end Sys2Proof.Machine
end

section
/-! The link commands line by line (41_link_a.md R122 to R129): the windows and the wait wherever they stand, and the lines that end a
command. -/

namespace Sys2Proof.Machine

/-! ### Ends with the line released -/

theorem finish_trace_closed {s : State} (h : s.pins.sel = false) : (finish s).trace = s.trace := by
  rw [finish_trace, closeEvents_of_released _ h, List.append_nil]

theorem raise_trace_closed {st : Status} {info : Option Half} {s : State} (h : s.pins.sel = false) :
    (raise st info s).trace = s.trace := by
  rw [raise_trace, closeEvents_of_released _ h, List.append_nil]

/-! ### WRITE_COMMAND (R122) -/

/-- WRITE_COMMAND's deselect line ends it. -/
theorem exec_writeCommand_last {s : State} (hp : AtLine (s.dataLen + 11) s) :
    exec .writeCommand s = .next (finish (driveSel false s)) :=
  exec_line_last (v := 0) rfl hp ((congrArg _ (by rw [outFrame_length]; omega)).trans
    (seqWrite_close s.cfg .next (outFrame s))) (length_writeCommand s).le rfl rfl rfl

/-! ### READ_DATA and READ_ACK (R123, R126) -/

section
variable {i : Instr} {n : Nat} {s : State}

theorem readRule_line (hi : ∀ s, linesOf i s = seqRead s.cfg n .next) {k : Nat} {l : Line}
    (h : (seqRead s.cfg n .next)[k]? = some l) : (linesOf i s)[k]? = some l := by rw [hi]; exact h

/-- A rule that is one read window: its lines, and its last one, which ends it. -/
theorem readRule_lines (h : i.opcode.backend = some .ctrlA) (hi : ∀ s, linesOf i s = seqRead s.cfg n .next) :
    ReadWindowLines i (fun _ => 1) n :=
  readWindowLines_of (close := fun _ => .next) h (fun _ => Nat.le_refl 1)
    (fun s => by rw [hi, seqRead_length]; omega) fun s k l hl => by rw [Nat.sub_self, Nat.zero_add]; exact readRule_line hi hl

theorem readRule_first (h : i.opcode.backend = some .ctrlA) (hi : ∀ s, linesOf i s = seqRead s.cfg n .next)
    (hr : Ready .ctrlA s) (hk : limitOf i s = none) : ∃ t, Continues i s [.sel true] 2 t ∧ t.locals.rx = [] := by
  have e := continues_first (v := 0) h hr hk (readRule_line hi (window_first ..)) (by rw [hi, seqRead_length]; omega) rfl
    rfl ⟨rfl, rfl, rfl, rfl, rfl, rfl⟩ rfl
  exact ⟨_, e, rfl⟩

theorem readRule_last (h : i.opcode.backend = some .ctrlA) (hi : ∀ s, linesOf i s = seqRead s.cfg n .next)
    (hp : AtLine (n + 3) s) : exec i s = .next (doneOf i (driveSel false s)) :=
  exec_line_last (v := 0) h hp (readRule_line hi (seqRead_close ..)) (by rw [hi, seqRead_length]) rfl rfl rfl

end

/-! ### The wait (R125) -/

section
variable {i : Instr} {b : Backend} {s : State} {w : Word} {p q : Nat} {expired : State → Flow}

/-- A ready poll leads past the loop, when that is still within the rule. -/
theorem continues_wait_ready (h : i.opcode.backend = some b) (hp : AtLine p s)
    (hl : (linesOf i s)[p - 1]? = some ⟨.sel false, fun _ s => waitTest w q expired s⟩) (hn : q ≤ (linesOf i s).length)
    (hr : s.locals.status = s.cfg.link.ready) :
    Continues i s [.sel false] q { driveSel false s with seq.pos := q } :=
  continues_goto (v := 0) h hp hl hn rfl (waitTest_ready (s := driveSel false s) hr) (SameRun.refl _)

/-- A ready poll of a wait that ends the rule. -/
theorem exec_wait_ready_past (h : i.opcode.backend = some b) (hp : AtLine p s)
    (hl : (linesOf i s)[p - 1]? = some ⟨.sel false, fun _ s => waitTest w q expired s⟩) (hn : (linesOf i s).length < q)
    (hr : s.locals.status = s.cfg.link.ready) : exec i s = .next (doneOf i (driveSel false s)) :=
  exec_line_past (v := 0) h hp hl hn rfl (waitTest_ready (s := driveSel false s) hr)

/-- The last poll of a wait whose time has run out. -/
theorem exec_wait_expired {t : State} (h : i.opcode.backend = some b) (hp : AtLine p s)
    (hl : (linesOf i s)[p - 1]? = some ⟨.sel false, fun _ s => waitTest w q expired s⟩)
    (hr : s.locals.status ≠ s.cfg.link.ready) (hw : w ≠ 0) (he : w.toNat < s.seq.elapsed + s.cfg.pollStepMs)
    (ht : expired { driveSel false s with seq.elapsed := s.seq.elapsed + s.cfg.pollStepMs } = .halt t) :
    exec i s = .next t :=
  exec_line_halt (v := 0) h hp hl rfl ((waitTest_expired (s := driveSel false s) hr hw he).trans ht)

end

theorem waitReady_waitLines (w : Word) : WaitLines (.waitReady w) w fun _ => 1 :=
  waitLines_of (start := id) rfl (fun _ => Nat.le_refl 1)
    (fun s => by rw [linesOf_waitReady, seqWait_length]; decide) (fun s => ⟨SameRun.refl s, rfl⟩)
    fun s k l hl => by rw [Nat.sub_self, Nat.zero_add]; exact hl

end Sys2Proof.Machine

namespace Sys2Proof

open Machine

/-- Settles O27: the write window is the whole rule. -/
theorem writeCommandLines : Obligations.WriteCommandLines := by
  refine ⟨writeWindowLines_of (close := fun _ => .next) rfl (fun s h => exceeding_of_le h)
    (fun s => (length_writeCommand s).ge) (fun _ _ _ h => h), fun s hp => ?_, fun b p => ⟨runPins_linkTxPins b p, rfl⟩⟩
  exact ⟨_, exec_writeCommand_last hp, finish_endedWith _, finish_trace_closed rfl, finish_res _⟩

/-- Settles O29: the read window is the whole rule, and its end writes RDATA and RLEN. -/
theorem readDataLines : Obligations.ReadDataLines := by
  refine ⟨fun n s v rest => ?_, fun v p => ⟨runPins_linkRxPins p, assemble_dinLevels v, rfl⟩, rfl⟩
  have hi (s : State) : linesOf (.readData n) s = seqRead s.cfg n.toNat .next := rfl
  obtain ⟨-, hmark, hbyte⟩ := readRule_lines rfl hi s v rest 1 rfl
  refine ⟨fun hr hle => readRule_first rfl hi hr (exceeding_of_le hle), hmark, hbyte, fun hp => ?_⟩
  exact ⟨_, readRule_last rfl hi hp, finish_endedWith _, finish_trace_closed rfl, finish_res _⟩

/-- Settles O30: the status window is the whole rule, and its end compares the byte with READY. -/
theorem isReadyLines : Obligations.IsReadyLines := by
  intro s v rest
  have hlen (u : State) : (linesOf .isReady u).length = 4 := seqStatus_length ..
  refine ⟨fun hr => ?_, fun hp he => ?_, fun hp he => ?_, fun hp => ?_⟩
  · exact ⟨_, continues_first (i := .isReady) (v := 0) rfl hr rfl (window_first ..) (by rw [hlen]; decide) rfl rfl
      ⟨rfl, rfl, rfl, rfl, rfl, rfl⟩ rfl⟩
  · exact ⟨_, continues_next (i := .isReady) (v := v) rfl hp (window_marker ..) (by rw [hlen]; decide)
      (perform_answer_of he rfl) rfl (SameRun.refl _) (perform_pos ..)⟩
  · exact ⟨_, continues_next (i := .isReady) (v := v) rfl hp (window_body _ _ _ (k := 0) rfl) (by rw [hlen]; decide)
      (perform_answer_of he rfl) rfl ⟨rfl, rfl, rfl, rfl, rfl, rfl⟩ (perform_pos ..), rfl⟩
  · have hx : exec .isReady s = .next (isReadyDone (driveSel false s)) :=
      exec_line_last (v := 0) rfl hp (window_close _ _ _ rfl) (hlen s).le rfl rfl rfl
    exact ⟨_, hx, finish_endedWith _, finish_trace_closed rfl, finish_res _⟩

/-- Settles O31: likewise READ_ACK, whose end compares the six bytes with ACK. -/
theorem readAckLines : Obligations.ReadAckLines := by
  intro s v rest
  have hi (s : State) : linesOf .readAck s = seqRead s.cfg 6 .next := rfl
  obtain ⟨-, hmark, hbyte⟩ := readRule_lines rfl hi s v rest 1 rfl
  refine ⟨fun hr => readRule_first rfl hi hr rfl, hmark, hbyte, fun hp => ?_⟩
  refine ⟨_, readRule_last rfl hi hp, finish_endedWith _, finish_trace_closed rfl, ?_⟩
  rw [show doneOf .readAck = readAckDone from rfl, readAckDone, finish_res]
  exact ⟨rfl, rfl, rfl, rfl, ackEq_iff ..⟩

/-- Settles O32: the wait is the whole rule; a ready poll goes past its end, an expired one ends it with false. -/
theorem waitReadyLines : Obligations.WaitReadyLines := by
  intro w s v rest
  have hlen (u : State) : (linesOf (.waitReady w) u).length = 6 := seqWait_length ..
  obtain ⟨-, hsel, hmark, hbyte, hforever, hcount, hdelay⟩ := waitReady_waitLines w s v rest 1 rfl
  refine ⟨fun hr => ?_, hsel, hmark, hbyte, fun hp hst => ?_, hforever, fun hp hst hw he => ?_, hcount, hdelay⟩
  · exact ⟨_, continues_first (i := .waitReady w) (v := 0) rfl hr rfl (seqWait_start ..) (by rw [hlen]; decide) rfl rfl
      ⟨rfl, rfl, rfl, rfl, rfl, rfl⟩ rfl, rfl⟩
  · have hx := exec_wait_ready_past (i := .waitReady w) rfl hp (seqWait_test ..) (by rw [hlen]; decide) hst
    exact ⟨_, hx, finish_endedWith _, finish_trace_closed rfl, finish_res _⟩
  · have hx := exec_wait_expired (i := .waitReady w) rfl hp (seqWait_test ..) hst hw he rfl
    exact ⟨_, hx, finish_endedWith _, finish_trace_closed rfl, finish_res _⟩

end Sys2Proof
end

section
/-! SEND_CHECK_ACK and EXCHANGE line by line (41_link_a.md R127 to R129): their windows and waits, and the lines that decide. -/

namespace Sys2Proof.Machine

variable {m : Half} {w : Word} {s : State} {k : Nat} {l : Line}

/-- The position of the line after the acknowledgement window. -/
theorem afterAck_eq (s : State) : afterWrite s + waitLines + windowLines 6 = s.dataLen + 27 := by
  simp [waitLines, windowLines]

/-- What the acknowledgement window's deselect line does: on when the bytes are ACK, else the negative answer. -/
theorem ackTest_ok {yes no : State → Flow} (h6 : s.locals.rx.length = 6) (h : s.locals.rx = s.cfg.ack) :
    (if ackEq s.cfg s.locals.rx then yes s else no s) = yes s := if_pos ((ackEq_iff ..).mpr ⟨h6, h⟩)

theorem ackTest_no {yes no : State → Flow} (h : ¬(s.locals.rx.length = 6 ∧ s.locals.rx = s.cfg.ack)) :
    (if ackEq s.cfg s.locals.rx then yes s else no s) = no s := if_neg fun e => h ((ackEq_iff ..).mp e)

/-! ### SEND_CHECK_ACK -/

theorem sendCheckAck_waitLines1 (w : Word) : WaitLines (.sendCheckAck w) w fun s => s.dataLen + 12 :=
  waitLines_of (start := id) (expired := sendCheckNo 1) rfl (fun _ => by omega) (fun s => by rw [length_sendCheckAck]; omega)
    (fun s => ⟨SameRun.refl s, rfl⟩) fun s k l hl => sendCheckAck_wait1 (by rwa [afterWrite_eq])

theorem sendCheckAck_waitLines2 (w : Word) : WaitLines (.sendCheckAck w) w fun s => s.dataLen + 27 :=
  waitLines_of (start := id) (expired := sendCheckNo 3) rfl (fun _ => by omega) (fun s => (length_sendCheckAck w s).ge)
    (fun s => ⟨SameRun.refl s, rfl⟩) fun s k l hl => sendCheckAck_wait2 (by rwa [afterAck_eq])

theorem sendCheckAck_readLines (w : Word) : ReadWindowLines (.sendCheckAck w) (fun s => s.dataLen + 18) 6 :=
  readWindowLines_of rfl (fun _ => by omega) (fun s => by rw [length_sendCheckAck]; omega) fun _ _ _ => sendCheckAck_ack

/-- The deselect line of SEND_CHECK_ACK's first status window. -/
theorem sendCheckAck_test1 (w : Word) (s : State) : (linesOf (.sendCheckAck w) s)[s.dataLen + 16 - 1]? =
    some ⟨.sel false, fun _ u => waitTest w (s.dataLen + 18) (sendCheckNo 1) u⟩ :=
  sendCheckAck_wait1 (k := 4) (by rw [afterWrite_eq]; exact seqWait_test ..)

/-- The deselect line of SEND_CHECK_ACK's second status window. -/
theorem sendCheckAck_test2 (w : Word) (s : State) : (linesOf (.sendCheckAck w) s)[s.dataLen + 31 - 1]? =
    some ⟨.sel false, fun _ u => waitTest w (s.dataLen + 33) (sendCheckNo 3) u⟩ :=
  sendCheckAck_wait2 (k := 4) (by rw [afterAck_eq]; exact seqWait_test ..)

/-- A negative answer: finish with RVAL the step and RBOOL 0. -/
theorem sendCheckNo_ends {i : Instr} {q : Half} {u : State} (hu : u.pins.sel = false)
    (hx : exec i s = .next (finish { u with res := { u.res with rval := q, rbool := false } })) :
    ∃ t, exec i s = .next t ∧ EndedWith .ok t ∧ t.trace = u.trace ∧
      t.res = { u.res with status := .ok, rval := q, rbool := false } :=
  ⟨_, hx, finish_endedWith _, finish_trace_closed hu, finish_res _⟩

/-! ### EXCHANGE -/

theorem exchange_waitLines1 (m : Half) (w : Word) : WaitLines (.exchange m w) w fun s => s.dataLen + 12 :=
  waitLines_of (start := setX .ackWait) (expired := exchangeNo 1) rfl (fun _ => by omega)
    (fun s => by rw [length_exchange]; omega) (fun _ => ⟨⟨rfl, rfl, rfl, rfl, rfl, rfl⟩, rfl⟩)
    fun s k l hl => exchange_wait1 (by rwa [afterWrite_eq])

theorem exchange_waitLines2 (m : Half) (w : Word) : WaitLines (.exchange m w) w fun s => s.dataLen + 27 :=
  waitLines_of (start := setX .responseWait) (expired := exchangeNo 3) rfl (fun _ => by omega)
    (fun s => by rw [length_exchange]; omega) (fun _ => ⟨⟨rfl, rfl, rfl, rfl, rfl, rfl⟩, rfl⟩)
    fun s k l hl => exchange_wait2 (by rwa [afterAck_eq])

theorem exchange_readLines (m : Half) (w : Word) : ReadWindowLines (.exchange m w) (fun s => s.dataLen + 18) 6 :=
  readWindowLines_of rfl (fun _ => by omega) (fun s => by rw [length_exchange]; omega) fun _ _ _ => exchange_ack

theorem exchange_responseLines (m : Half) (w : Word) : ReadWindowLines (.exchange m w) (fun s => s.dataLen + 33) m.toNat :=
  readWindowLines_of (close := fun _ => .next) rfl (fun _ => by omega) (fun s => by rw [length_exchange]; omega)
    fun _ _ _ => exchange_response

/-- The deselect line of EXCHANGE's first status window. -/
theorem exchange_test1 (m : Half) (w : Word) (s : State) : (linesOf (.exchange m w) s)[s.dataLen + 16 - 1]? =
    some ⟨.sel false, fun _ u => waitTest w (s.dataLen + 18) (exchangeNo 1) u⟩ :=
  exchange_wait1 (k := 4) (by rw [afterWrite_eq]; exact seqWait_test ..)

/-- The deselect line of EXCHANGE's second status window. -/
theorem exchange_test2 (m : Half) (w : Word) (s : State) : (linesOf (.exchange m w) s)[s.dataLen + 31 - 1]? =
    some ⟨.sel false, fun _ u => waitTest w (s.dataLen + 33) (exchangeNo 3) u⟩ :=
  exchange_wait2 (k := 4) (by rw [afterAck_eq]; exact seqWait_test ..)

/-- EXCHANGE's response window ends the rule with the parse. -/
theorem exec_exchange_last (hp : AtLine (s.dataLen + 35 + m.toNat) s) :
    exec (.exchange m w) s = .next (exchangeParse (driveSel false s)) :=
  exec_line_last (v := 0) rfl hp
    ((congrArg _ (by omega)).trans (exchange_response (n := m) (t := w) (seqRead_close s.cfg m.toNat .next)))
    (length_exchange ..).le rfl rfl rfl

/-- A negative step: XSTATE FAILED and E_TIMEOUT with the step. -/
theorem exchangeNo_ends {i : Instr} {q : Half} {u : State} (hu : u.pins.sel = false)
    (hx : exec i s = .next (raise .timeout (some q) { setX .failed u with res.rval := q })) :
    ∃ t, exec i s = .next t ∧ EndedWith .timeout t ∧ t.trace = u.trace ∧ t.res.rval = q ∧ ClearedBesideRval t ∧
      t.xstate = .failed :=
  ⟨_, hx, raise_endedWith .., raise_trace_closed hu, by rw [raise_res]; rfl, raise_clearedBesideRval .., raise_xstate ..⟩

theorem exchangeParse_ok {q : List Byte} (h : parseFrame s.cfg .c2h s.locals.rx = .ok q) :
    exchangeParse s = finish (setX .responseParsed { s with res := { s.res with rdata := q, rlen := q.length } }) := by
  rw [exchangeParse, h]

theorem exchangeParse_error {e : ParseError} (h : parseFrame s.cfg .c2h s.locals.rx = .error e) :
    exchangeParse s = raise .framing (some (0x10 ||| zext16 e.reason))
      { setX .failed s with res.rval := 0x10 ||| zext16 e.reason } := by
  rw [exchangeParse, h]

/-- The reasons are below 16, so 0x10 + r sets bit 4 alone. -/
theorem parseReason_eq (e : ParseError) : (0x10 : Half) ||| zext16 e.reason = BitVec.ofNat 16 (0x10 + e.reason) := by
  cases e <;> rfl

end Sys2Proof.Machine

namespace Sys2Proof

open Machine

/-- Settles O35: the windows and waits are the subsequences where they stand, and each decision is one line's. -/
theorem sendCheckAckDecisions : Obligations.SendCheckAckDecisions := by
  intro w
  refine ⟨writeWindowLines_of rfl (fun s h => exceeding_of_le h) (fun s => by rw [length_sendCheckAck]; omega)
      (fun _ _ _ => sendCheckAck_write), sendCheckAck_waitLines1 w, sendCheckAck_readLines w, sendCheckAck_waitLines2 w,
    fun s => ?_⟩
  have hlen := length_sendCheckAck w s
  have hack := sendCheckAck_ack (t := w) (seqRead_close s.cfg 6 _)
  refine ⟨fun hp => ?_, ?_, fun hp hst => ?_, fun hp h6 hq => ?_, fun hp hq => ?_, fun hp hst => ?_⟩
  · have hl := sendCheckAck_write (t := w) (seqWrite_close s.cfg .next (outFrame s))
    rw [outFrame_length] at hl
    exact ⟨_, continues_next (v := 0) rfl hp hl (by omega) rfl rfl (SameRun.refl _) rfl⟩
  · rintro p q (⟨rfl, rfl⟩ | ⟨rfl, rfl⟩) hp hst hw he
    · exact sendCheckNo_ends rfl (exec_wait_expired rfl hp (sendCheckAck_test1 w s) hst hw he rfl)
    · exact sendCheckNo_ends rfl (exec_wait_expired rfl hp (sendCheckAck_test2 w s) hst hw he rfl)
  · exact ⟨_, continues_wait_ready rfl hp (sendCheckAck_test1 w s) (by omega) hst⟩
  · exact ⟨_, continues_next (v := 0) rfl hp hack (by omega) rfl (ackTest_ok (s := driveSel false s) h6 hq)
      (SameRun.refl _) rfl⟩
  · exact sendCheckNo_ends rfl (exec_line_halt (v := 0) rfl hp hack rfl (ackTest_no (s := driveSel false s) hq))
  · have hx := exec_wait_ready_past rfl hp (sendCheckAck_test2 w s) (by omega) hst
    exact ⟨_, hx, finish_endedWith _, finish_trace_closed rfl, finish_res _⟩

/-- Settles O36: the same lines with the moves of XSTATE, then the response window and the parse. -/
theorem exchangeDecisions : Obligations.ExchangeDecisions := by
  intro m w
  refine ⟨writeWindowLines_of rfl (fun s h => ?_) (fun s => by rw [length_exchange]; omega)
      (fun _ _ _ => exchange_write), exchange_waitLines1 m w, exchange_readLines m w, exchange_waitLines2 m w,
    exchange_responseLines m w, fun s => ?_⟩
  · exact (congrArg₂ Option.or (exceeding_of_le h.1) (exceeding_of_le h.2)).trans rfl
  have hlen := length_exchange m w s
  have hack := exchange_ack (n := m) (t := w) (seqRead_close s.cfg 6 _)
  refine ⟨fun hp => ?_, fun hp => ?_, fun hp => ?_, ?_, fun hp hst => ?_, fun hp h6 hq => ?_, fun hp hq => ?_,
    fun hp hst => ?_, fun q hp hq => ?_, fun e hp hq => ?_⟩
  · have hl := exchange_write (n := m) (t := w) (seqWrite_close s.cfg (fun u => .next (setX .commandSent u)) (outFrame s))
    rw [outFrame_length] at hl
    exact ⟨_, continues_next (v := 0) rfl hp hl (by omega) rfl rfl ⟨rfl, rfl, rfl, rfl, rfl, rfl⟩ rfl, rfl⟩
  · have hl := exchange_wait1 (n := m) (seqWait_start s.cfg (afterWrite s) w (setX .ackWait) (exchangeNo 1))
    exact ⟨_, continues_next (v := 0) rfl hp hl (by omega) rfl rfl ⟨rfl, rfl, rfl, rfl, rfl, rfl⟩ rfl, rfl⟩
  · have hl := exchange_wait2 (n := m) (seqWait_start s.cfg _ w (setX .responseWait) (exchangeNo 3))
    exact ⟨_, continues_next (v := 0) rfl hp hl (by omega) rfl rfl ⟨rfl, rfl, rfl, rfl, rfl, rfl⟩ rfl, rfl⟩
  · rintro p q (⟨rfl, rfl⟩ | ⟨rfl, rfl⟩) hp hst hw he
    · exact exchangeNo_ends rfl (exec_wait_expired rfl hp (exchange_test1 m w s) hst hw he rfl)
    · exact exchangeNo_ends rfl (exec_wait_expired rfl hp (exchange_test2 m w s) hst hw he rfl)
  · exact ⟨_, continues_wait_ready rfl hp (exchange_test1 m w s) (by omega) hst, rfl⟩
  · exact ⟨_, continues_next (v := 0) rfl hp hack (by omega) rfl (ackTest_ok (s := driveSel false s)
      (yes := fun u => .next (setX .ackOk u)) (no := exchangeNo 2) h6 hq)
      ⟨rfl, rfl, rfl, rfl, rfl, rfl⟩ rfl, rfl⟩
  · exact exchangeNo_ends (u := driveSel false s) rfl (exec_line_halt (v := 0) rfl hp hack rfl (ackTest_no
      (s := driveSel false s) (yes := fun u => .next (setX .ackOk u)) (no := exchangeNo 2) hq))
  · exact ⟨_, continues_wait_ready rfl hp (exchange_test2 m w s) (by omega) hst, rfl⟩
  · have hx := exec_exchange_last (w := w) hp
    rw [exchangeParse_ok (s := driveSel false s) hq] at hx
    exact ⟨_, hx, finish_endedWith _, finish_trace_closed rfl, finish_res _, finish_xstate _⟩
  · have hx := exec_exchange_last (w := w) hp
    rw [exchangeParse_error (s := driveSel false s) hq] at hx
    exact ⟨_, hx, raise_endedWith .., raise_trace_closed rfl, by rw [raise_res, ← parseReason_eq]; rfl,
      raise_clearedBesideRval .., raise_xstate ..⟩

end Sys2Proof
end

section
/-! The register commands that are one read-modify-write, RESET, and the end of a command after a register transaction
(43_cmd_engine.md R161, R164, R165, R185, R190, R191). -/

namespace Sys2Proof.Machine

section
variable {s u : State} {a d v : Byte} {rest : List Answer}

/-- A command that finishes right after a register transaction, outside a select window, adds that one event. -/
theorem finish_after_xfer (hsel : s.pins.sel = false) (he : s.env = .ok v :: rest)
    (ht : u.trace = (perform (.xfer a d) s).2.trace) (hq : u.pins = (perform (.xfer a d) s).2.pins) :
    EndedWith .ok (finish u) ∧ (finish u).trace = s.trace ++ [.xfer a d (.ok v)] :=
  ⟨finish_endedWith u, by rw [finish_trace, ht, hq, perform_xfer_closed_trace hsel he]⟩

/-- A command that raises right after a register transaction, outside a select window, adds that one event. -/
theorem raise_after_xfer (st : Status) (info : Option Half) (hsel : s.pins.sel = false) (he : s.env = .ok v :: rest)
    (ht : u.trace = (perform (.xfer a d) s).2.trace) (hq : u.pins = (perform (.xfer a d) s).2.pins) :
    EndedWith st (raise st info u) ∧ ClearedBesideRval (raise st info u) ∧
      (raise st info u).trace = s.trace ++ [.xfer a d (.ok v)] :=
  ⟨raise_endedWith .., raise_clearedBesideRval .., by rw [raise_trace, ht, hq, perform_xfer_closed_trace hsel he]⟩

/-- A line that raises on the byte it reads. -/
theorem exec_xfer_raise {i : Instr} {b : Backend} {p : Nat} {use : Byte → State → Flow} {st : Status} {info : Option Half}
    (h : i.opcode.backend = some b) (hp : AtLine p s) (hl : (linesOf i s)[p - 1]? = some ⟨.xfer a d, use⟩)
    (hsel : s.pins.sel = false) (he : s.env = .ok v :: rest)
    (ha : use v (perform (.xfer a d) s).2 = .halt (raise st info u))
    (ht : u.trace = (perform (.xfer a d) s).2.trace) (hq : u.pins = (perform (.xfer a d) s).2.pins) :
    exec i s = .next (raise st info u) ∧ EndedWith st (raise st info u) ∧ ClearedBesideRval (raise st info u) ∧
      (raise st info u).trace = s.trace ++ [.xfer a d (.ok v)] :=
  ⟨exec_line_halt h hp hl (perform_answer_of he rfl) ha, raise_after_xfer st info hsel he ht hq⟩

/-- A line that finishes on the byte it reads. -/
theorem exec_xfer_finish {i : Instr} {b : Backend} {p : Nat} {use : Byte → State → Flow}
    (h : i.opcode.backend = some b) (hp : AtLine p s) (hl : (linesOf i s)[p - 1]? = some ⟨.xfer a d, use⟩)
    (hsel : s.pins.sel = false) (he : s.env = .ok v :: rest)
    (ha : use v (perform (.xfer a d) s).2 = .halt (finish u))
    (ht : u.trace = (perform (.xfer a d) s).2.trace) (hq : u.pins = (perform (.xfer a d) s).2.pins) :
    exec i s = .next (finish u) ∧ EndedWith .ok (finish u) ∧ (finish u).trace = s.trace ++ [.xfer a d (.ok v)] :=
  ⟨exec_line_halt h hp hl (perform_answer_of he rfl) ha, finish_after_xfer hsel he ht hq⟩

/-- A last line whose rule ends by finish. -/
theorem exec_xfer_last {i : Instr} {b : Backend} {p : Nat} {use : Byte → State → Flow} {w : State}
    (h : i.opcode.backend = some b) (hp : AtLine p s) (hl : (linesOf i s)[p - 1]? = some ⟨.xfer a d, use⟩)
    (hn : (linesOf i s).length ≤ p) (hsel : s.pins.sel = false) (he : s.env = .ok v :: rest)
    (ha : use v (perform (.xfer a d) s).2 = .next w) (hw : w.seq.pos = s.seq.pos) (hd : doneOf i w = finish u)
    (ht : u.trace = (perform (.xfer a d) s).2.trace) (hq : u.pins = (perform (.xfer a d) s).2.pins) :
    exec i s = .next (finish u) ∧ EndedWith .ok (finish u) ∧ (finish u).trace = s.trace ++ [.xfer a d (.ok v)] :=
  ⟨hd ▸ exec_line_last h hp hl hn (perform_answer_of he rfl) ha hw, finish_after_xfer hsel he ht hq⟩

/-- A register transaction that answers adds its event. -/
theorem perform_xfer_trace (he : s.env = .ok v :: rest) :
    (perform (.xfer a d) s).2.trace = s.trace ++ [.xfer a d (.ok v)] := by
  rw [perform_trace, nextAnswer_cons he, events_xfer]

/-- A line whose event is one transaction uses up one answer. -/
theorem Continues.env_of_xfer {i : Instr} {t : State} {p : Nat} {r : Answer} (e : Continues i s [.xfer a d r] p t)
    (he : s.env = r :: rest) : t.env = rest := by
  obtain ⟨-, -, -, -, -, -, -, henv⟩ := e
  rw [henv, he]; rfl

end

/-! ### One read-modify-write -/

section
variable {i : Instr} {reg : Config → Byte} {f : Config → Byte → Byte}

/-- A rule of two lines, a read into VTMP and a write of `f` of VTMP, which is also the result. -/
theorem readModifyWrite_of (h : i.opcode.backend = some .ctrlB) (hk : ∀ s, limitOf i s = none) (hi : initOf i = id)
    (hf : failOf i = id) (hl : ∀ s, linesOf i s =
      [regRead s.cfg (reg s.cfg) setVtmp, regWrite s.cfg (reg s.cfg) (f s.cfg s.scratch.vtmp)])
    (hd : ∀ s, doneOf i s = finishWith (f s.cfg s.scratch.vtmp) s) : ReadModifyWrite i reg f := by
  intro s v rest hsel
  have hlen (u : State) : (linesOf i u).length = 2 := by rw [hl]; rfl
  have line1 : ∀ u, (linesOf i u)[0]? = some (regRead u.cfg (reg u.cfg) setVtmp) := fun u => by rw [hl]; rfl
  have line2 : (linesOf i s)[2 - 1]? = some (regWrite s.cfg (reg s.cfg) (f s.cfg s.scratch.vtmp)) := by rw [hl]; rfl
  have hfirst (hr : Ready .ctrlB s) := exec_at_start h hr.1 hr.2.1 (hk s) (line1 _)
  simp only [hi, hf, id] at hfirst
  refine ⟨fun hr he => ?_, fun hp he => ?_, fun hr he => ?_, fun hp he => ?_⟩
  · have e := continues_first (v := v) h hr (hk s) (line1 _) (by rw [hlen]; decide)
      (perform_answer_of (by rw [hi]; exact he) rfl) rfl ⟨rfl, rfl, rfl, rfl, rfl, rfl⟩ (perform_pos ..)
    simp only [hi, id] at e
    exact ⟨_, e, rfl, e.env_of_xfer he⟩
  · obtain ⟨hx, hend, htr⟩ := exec_xfer_last h hp line2 (hlen s).le hsel he rfl (perform_pos ..) (hd _) rfl rfl
    have henv := perform_xfer_env (a := addrWrite s.cfg (reg s.cfg)) (d := f s.cfg s.scratch.vtmp) he
    exact ⟨_, hx, hend, (finish_env _).trans henv, htr, finish_res _⟩
  · exact ⟨_, hfirst hr, runLine_xfer_fail (s := { s with seq.pos := 1 }) hsel he⟩
  · have hx := exec_line h hp line2
    rw [hf] at hx
    exact ⟨_, hx, runLine_xfer_fail hsel he⟩

end

/-- Settles O40: each of the four is a rule of that shape. -/
theorem readModifyWriteCommands : Obligations.ReadModifyWriteCommands :=
  ⟨fun _ _ => readModifyWrite_of rfl (fun _ => rfl) rfl rfl (fun _ => rfl) fun _ => rfl,
    fun _ _ => readModifyWrite_of rfl (fun _ => rfl) rfl rfl (fun _ => rfl) fun _ => rfl,
    readModifyWrite_of rfl (fun _ => rfl) rfl rfl (fun _ => rfl) fun _ => rfl,
    readModifyWrite_of rfl (fun _ => rfl) rfl rfl (fun _ => rfl) fun _ => rfl⟩

end Sys2Proof.Machine

/-! ### RESET -/

namespace Sys2Proof

open Machine

/-- Settles O51: the last of the lines, the antenna write or a write of the program, runs past the end of the rule. -/
theorem resetLines : Obligations.ResetLines := by
  intro v rest s he hsel
  have hlen := length_reset s
  have line1 : ∀ u, (linesOf .reset u)[0]? = some (regWrite u.cfg u.cfg.regs.command u.cfg.cmds.softReset) := fun _ => rfl
  have line4 : (linesOf .reset s)[4 - 1]? =
      some (regWrite s.cfg s.cfg.regs.txControl (s.scratch.vtmp ||| s.cfg.masks.txControlAnt)) := rfl
  refine ⟨fun hr => ?_, fun hp => ?_, fun hp => ?_, fun hp hprog => ?_, fun hp hprog => ?_, fun k reg x hp hk => ?_⟩
  · exact ⟨_, continues_first (v := v) rfl hr rfl (line1 _) (by rw [length_reset]; omega)
      (perform_answer_of (s := { s with seq.pos := 1 }) he rfl) rfl (SameRun.refl _) (perform_pos ..)⟩
  · exact ⟨_, continues_next (i := .reset) (v := 0) rfl hp rfl (by omega) rfl rfl (SameRun.refl _) rfl⟩
  · exact ⟨_, continues_next (i := .reset) (v := v) rfl hp rfl (by omega) (perform_answer_of he rfl) rfl
      ⟨rfl, rfl, rfl, rfl, rfl, rfl⟩ (perform_pos ..), rfl⟩
  · have := List.length_pos_iff.mpr hprog
    exact ⟨_, continues_next (v := v) rfl hp line4 (by omega) (perform_answer_of he rfl) rfl (SameRun.refl _)
      (perform_pos ..)⟩
  · rw [hprog, List.length_nil] at hlen
    obtain ⟨hx, hend, htr⟩ := exec_xfer_last rfl hp line4 (by omega) hsel he rfl (perform_pos ..) rfl rfl rfl
    exact ⟨_, hx, hend, htr, finish_res _⟩
  · have hkl := (List.getElem?_eq_some_iff.mp hk).1
    have line := reset_program (s := s) (n := 5 + k - 1) hk (by omega)
    split
    next hend =>
      obtain ⟨hx, hend, htr⟩ := exec_xfer_last rfl hp line (by omega) hsel he rfl (perform_pos ..) rfl rfl rfl
      exact ⟨_, hx, htr, hend, finish_res _⟩
    next hmore =>
      obtain ⟨hx, htr, hpos, hbusy, hres, -⟩ := continues_next (v := v) rfl hp line (by omega) (perform_answer_of he rfl) rfl
        (SameRun.refl _) (perform_pos ..)
      exact ⟨_, hx, htr, hbusy, by omega, hres⟩

end Sys2Proof
end

section
/-! EXECUTE_COMMAND and CALC_CRC line by line (43_cmd_engine.md R172, R175 to R181; 42_crc.md R148): each line where it stands, and
what the poll and the error check decide. -/

namespace Sys2Proof.Machine

section
variable {cmd v : Byte} {s : State} {rest : List Answer}

/-! ### The class masks and the start-send lines -/

theorem classMasks_default {c : Config} (hc : c.cmds = {}) (ht : c.classes = {}) (cmd : Byte) :
    classMasks c cmd = if cmd = 0xE then (0x12, 0x10) else if cmd = 0xC then (0x77, 0x30) else (0x00, 0x00) := by
  rw [classMasks, hc, ht]

/-- The lines TRANSCEIVE adds after the command write. -/
theorem executeHead_startSend (hc : cmd = s.cfg.cmds.transceive) {k : Nat} {l : Line}
    (h : (setBits s s.cfg.regs.bitFraming s.cfg.masks.bitFramingStartSend)[k]? = some l) :
    (executeHead cmd s)[s.dataLen + 6 + k]? = some l := by
  refine (getElem?_past (k := k) ?_).trans (by rw [if_pos hc]; exact h)
  simp [clearBits, setBits, fifoWrites, State.dataLen, State.data]

/-! ### The decisions -/

theorem pollIrqTest_stop {exit : Nat} (h : v &&& (s.scratch.waitm ||| s.cfg.masks.irqTimer) ≠ 0) :
    pollIrqTest exit v s = .goto exit { s with scratch.irqv := v, seq.pollI := s.seq.pollI + 1 } :=
  if_pos ((stopBit_iff ..).mpr h)

theorem pollIrqTest_last {exit : Nat} (h : v &&& (s.scratch.waitm ||| s.cfg.masks.irqTimer) = 0)
    (hn : s.seq.pollI + 1 = s.cfg.irqPollMax) :
    pollIrqTest exit v s = .halt (raise .tagAbsent none
      { s with scratch.irqv := v, seq.pollI := s.seq.pollI + 1, res.rval := zextByte v }) :=
  (if_neg fun e => (stopBit_iff ..).mp e h).trans (if_pos hn)

theorem pollIrqTest_again {exit : Nat} (h : v &&& (s.scratch.waitm ||| s.cfg.masks.irqTimer) = 0)
    (hn : s.seq.pollI + 1 ≠ s.cfg.irqPollMax) :
    pollIrqTest exit v s = .next { s with scratch.irqv := v, seq.pollI := s.seq.pollI + 1 } :=
  (if_neg fun e => (stopBit_iff ..).mp e h).trans (if_neg hn)

/-- What the error check writes: ERRV, and RVAL the packed ERRV and IRQV (R177). -/
def errorChecked (v : Byte) (s : State) : State := { s with scratch.errv := v, res.rval := v ++ s.scratch.irqv }

theorem checkErrors_eq (cmd v : Byte) (s : State) : checkErrors cmd v s =
    if v &&& (s.cfg.masks.errProtocol ||| s.cfg.masks.errBufOvfl) ≠ 0 ∧ s.scratch.irqv &&& s.cfg.masks.irqRx ≠ 0 then
      .halt (raise .tagAbsent none (errorChecked v s))
    else if v &&& s.cfg.masks.errColl ≠ 0 then .halt (raise .collision none (errorChecked v s))
    else if cmd = s.cfg.cmds.transceive then .next (errorChecked v s) else .halt (finish (errorChecked v s)) := by
  simp only [checkErrors, packBytes_eq, noResponse_iff, collided_iff, errorChecked]

/-- With the default masks and LVL below 128 the bit length is what R178 says, without wrapping. -/
theorem bitLength_toNat (lvl : BitVec 7) (lb : BitVec 3) : (bitLength lvl lb).toNat =
    if lvl = 0 then 0 else if lb.toNat ≠ 0 then (lvl.toNat - 1) * 8 + lb.toNat else lvl.toNat * 8 := by
  have hlvl := lvl.isLt
  have hlb := lb.isLt
  have hz : lb ≠ 0 ↔ lb.toNat ≠ 0 := not_congr BitVec.toNat_inj.symm
  unfold bitLength
  split
  · rfl
  · rw [if_congr hz rfl rfl]
    split
    · exact Nat.mod_eq_of_lt (by omega)
    · exact Nat.mod_eq_of_lt (by omega)

/-- The level field of the default masks. -/
theorem levelField_toNat : ((v &&& 0x7F).setWidth 7 : BitVec 7).toNat = v.toNat % 128 := by
  rw [BitVec.toNat_setWidth, BitVec.toNat_and]
  exact (Nat.mod_eq_of_lt (Nat.lt_of_le_of_lt Nat.and_le_right (by decide))).trans (Nat.and_two_pow_sub_one_eq_mod v.toNat 7)

/-- The last-bits field of the default masks. -/
theorem lastBitsField_toNat : ((v &&& 0x07).setWidth 3 : BitVec 3).toNat = v.toNat % 8 := by
  rw [BitVec.toNat_setWidth, BitVec.toNat_and]
  exact (Nat.mod_eq_of_lt (Nat.lt_of_le_of_lt Nat.and_le_right (by decide))).trans (Nat.and_two_pow_sub_one_eq_mod v.toNat 3)

/-- The two bytes of a CRC put together again (20 R55). -/
theorem crcOfBytes_halves (c : Half) : crcOfBytes (c.setWidth 8) ((c >>> 8).setWidth 8) = c := by
  apply BitVec.eq_of_toNat_eq
  have := c.isLt
  simp only [crcOfBytes_eq, BitVec.toNat_append, BitVec.toNat_setWidth, BitVec.toNat_ushiftRight]
  rw [← Nat.shiftLeft_add_eq_or_of_lt (Nat.mod_lt _ (by decide)), Nat.shiftRight_eq_div_pow, Nat.shiftLeft_eq]
  omega

end

/-! ### EXECUTE_COMMAND -/

/-- Settles O41: the masks are selected with the step's first line, the COMIEN write. -/
theorem commandClassMasks : Obligations.CommandClassMasks := by
  refine ⟨fun c hc ht => classMasks_default hc ht, fun cmd v rest s hr hle he => ?_⟩
  obtain ⟨hx, htr, -, hbusy, hres, -⟩ := continues_first (i := .executeCommand cmd) (v := v) rfl hr (exceeding_of_le hle)
    (execute_head rfl) (by rw [length_executeCommand, executeHead_length]; omega)
    (perform_answer_of (s := { executeInit cmd s with seq.pos := 1 }) he rfl) rfl (SameRun.refl _) (perform_pos ..)
  exact ⟨_, hx, hbusy, hres, htr, rfl, rfl⟩

/-- Settles O43: the start-send lines stand in the rule of TRANSCEIVE only, and PollIrq follows. -/
theorem executeStartSend : Obligations.ExecuteStartSend := by
  intro cmd v rest s
  have hlen := length_executeCommand cmd s
  have hhead := executeHead_length cmd s
  refine ⟨fun hc => ?_, fun hc hp => ?_⟩
  · rw [if_pos hc] at hhead
    refine ⟨fun hp he => ?_, fun hp he => ?_, fun hp => ?_⟩
    · have hl := execute_head (executeHead_startSend hc (k := 0) rfl)
      exact ⟨_, continues_next (v := v) rfl hp hl (by omega) (perform_answer_of he rfl) rfl
        ⟨rfl, rfl, rfl, rfl, rfl, rfl⟩ (perform_pos ..), rfl⟩
    · have hl := execute_head (executeHead_startSend hc (k := 1) rfl)
      exact ⟨_, continues_next (v := v) rfl hp hl (by omega) (perform_answer_of he rfl) rfl (SameRun.refl _)
        (perform_pos ..)⟩
    · have hl := execute_poll (cmd := cmd) (s := s) (n := s.dataLen + 9 - 1) (pollIrq_start ..) (by omega)
      exact ⟨_, continues_next (v := 0) rfl hp hl (by omega) rfl rfl ⟨rfl, rfl, rfl, rfl, rfl, rfl⟩ rfl, rfl⟩
  · rw [if_neg hc] at hhead
    have hl := execute_poll (cmd := cmd) (s := s) (n := s.dataLen + 7 - 1) (pollIrq_start ..) (by omega)
    exact ⟨_, continues_next (v := 0) rfl hp hl (by omega) rfl rfl ⟨rfl, rfl, rfl, rfl, rfl, rfl⟩ rfl, rfl⟩

/-- Settles O44: the poll's three outcomes are those of its test. -/
theorem executePoll : Obligations.ExecutePoll := by
  rintro cmd v rest s h rfl
  have hlen := length_executeCommand cmd s
  have hread := execute_poll (cmd := cmd) (n := (executeHead cmd s).length + 2 - 1) (pollIrq_read ..) rfl
  refine ⟨fun hp => ?_, fun hp he hv => ?_, fun hp he hv hn => ?_, fun hp hsel he hv hn => ?_, fun hp => ?_⟩
  · have hl := execute_poll (cmd := cmd) (n := (executeHead cmd s).length + 1 - 1) (pollIrq_start ..) rfl
    exact ⟨_, continues_next (v := 0) rfl hp hl (by omega) rfl rfl ⟨rfl, rfl, rfl, rfl, rfl, rfl⟩ rfl, rfl⟩
  · exact ⟨_, continues_goto (v := v) rfl hp hread (by omega) (perform_answer_of he rfl) (pollIrqTest_stop hv)
      ⟨rfl, rfl, rfl, rfl, rfl, rfl⟩, rfl, rfl⟩
  · exact ⟨_, continues_next (v := v) rfl hp hread (by omega) (perform_answer_of he rfl) (pollIrqTest_again hv hn)
      ⟨rfl, rfl, rfl, rfl, rfl, rfl⟩ (perform_pos ..), rfl, rfl⟩
  · obtain ⟨hx, hend, hclr, htr⟩ := exec_xfer_raise rfl hp hread hsel he (pollIrqTest_last hv hn) rfl rfl
    exact ⟨_, hx, hend, congrArg Results.rval (raise_res ..), hclr, htr⟩
  · have hl := execute_poll (cmd := cmd) (n := (executeHead cmd s).length + 3 - 1) (pollIrq_delay ..) rfl
    exact ⟨_, continues_goto (v := 0) rfl hp hl (by omega) rfl rfl (SameRun.refl _), rfl⟩

/-- Settles O46: the four outcomes of the error check, in its order. -/
theorem executeErrorCheck : Obligations.ExecuteErrorCheck := by
  intro cmd v rest s hp hsel he
  have hlen := length_executeCommand cmd s
  have hl := execute_error (cmd := cmd) (s := s) (n := (executeHead cmd s).length + 4 - 1) rfl
  have hflow := checkErrors_eq cmd v (perform (.xfer (addrRead s.cfg s.cfg.regs.error) s.cfg.bus.dummy) s).2
  simp only [perform_cfg, perform_scratch] at hflow
  split
  next hno =>
    obtain ⟨hx, hend, hclr, htr⟩ := exec_xfer_raise rfl hp hl hsel he (hflow.trans (if_pos hno)) rfl rfl
    exact ⟨_, hx, congrArg Results.rval (raise_res ..), congrArg Scratch.errv (raise_scratch ..), htr, hend, hclr⟩
  next hno =>
  rw [if_neg hno] at hflow
  split
  next hcoll =>
    obtain ⟨hx, hend, hclr, htr⟩ := exec_xfer_raise rfl hp hl hsel he (hflow.trans (if_pos hcoll)) rfl rfl
    exact ⟨_, hx, congrArg Results.rval (raise_res ..), congrArg Scratch.errv (raise_scratch ..), htr, hend, hclr⟩
  next hcoll =>
  rw [if_neg hcoll] at hflow
  split
  next hc =>
    have hx := exec_line_next rfl hp hl (by omega) (perform_answer_of he rfl) (hflow.trans (if_pos hc)) (perform_pos ..)
    exact ⟨_, hx, rfl, rfl, perform_xfer_trace he, perform_busy .., rfl, rfl⟩
  next hc =>
    obtain ⟨hx, hend, htr⟩ := exec_xfer_finish rfl hp hl hsel he (hflow.trans (if_neg hc)) rfl rfl
    exact ⟨_, hx, congrArg Results.rval (finish_res _), congrArg Scratch.errv (finish_scratch _), htr, hend, finish_res _⟩

/-- Settles O47: a FIFO read is the last line exactly when it is the k-th, and LVL's read the last but one when k is 0. -/
theorem executeReadBack : Obligations.ExecuteReadBack := by
  rintro cmd v rest s h k rfl hk hsel he hmask
  have hlen := length_executeCommand cmd s
  have hcount : readBackCount s = k := hk.symm
  refine ⟨fun hp => ?_, fun hp => ?_, fun j h1 hjk hp => ?_⟩
  · have hl := execute_readBack (cmd := cmd) (n := (executeHead cmd s).length + 5 - 1) (readBack_level s) rfl
    refine ⟨_, continues_next (v := v) rfl hp hl (by omega) (perform_answer_of he rfl) rfl
      ⟨rfl, rfl, rfl, rfl, rfl, rfl⟩ (perform_pos ..), ?_⟩
    rw [perform_cfg, hmask]; exact levelField_toNat
  · have hl := execute_readBack (cmd := cmd) (n := (executeHead cmd s).length + 6 - 1) (readBack_control s) rfl
    have hval : (bitLength s.scratch.lvl ((v &&& s.cfg.masks.controlRxLastBits).setWidth 3)).toNat =
        if s.scratch.lvl = 0 then 0 else if v.toNat % 8 ≠ 0 then (s.scratch.lvl.toNat - 1) * 8 + v.toNat % 8
        else s.scratch.lvl.toNat * 8 := by
      rw [hmask, bitLength_toNat, lastBitsField_toNat]
    have hlb : ((v &&& s.cfg.masks.controlRxLastBits).setWidth 3 : BitVec 3).toNat = v.toNat % 8 := by
      rw [hmask, lastBitsField_toNat]
    by_cases h0 : k = 0
    · obtain ⟨hx, hend, htr⟩ := exec_xfer_last rfl hp hl (by omega) hsel he rfl (perform_pos ..) rfl rfl rfl
      refine ⟨_, hx, htr, ?_⟩
      simp only [finish_scratch, finish_res, if_pos h0]
      exact ⟨hlb, rfl, rfl, rfl, rfl, hval, hend, hcount.trans h0⟩
    · have hx := exec_line_next (v := v) rfl hp hl (by omega) (perform_answer_of he rfl) rfl (perform_pos ..)
      exact ⟨_, hx, perform_xfer_trace he, hlb, rfl, rfl, rfl, rfl, hval, by rw [if_neg h0]; exact ⟨rfl, rfl, rfl⟩⟩
  · have hl := execute_readBack (cmd := cmd) (n := (executeHead cmd s).length + 6 + j - 1) (readBack_fifo (s := s)
      (k := j - 1) (by omega)) (by omega)
    split
    next hj =>
      obtain ⟨hx, hend, htr⟩ := exec_xfer_last rfl hp hl (by omega) hsel he rfl (perform_pos ..) rfl rfl rfl
      refine ⟨_, hx, htr, ?_⟩
      simp only [finish_scratch, finish_res]
      exact ⟨rfl, rfl, rfl, rfl, rfl, hend, hcount⟩
    next hj =>
      have hx := exec_line_next (v := v) rfl hp hl (by omega) (perform_answer_of he rfl) rfl (perform_pos ..)
      exact ⟨_, hx, perform_xfer_trace he, rfl, rfl, rfl, rfl, rfl, rfl, by simp only []; omega, rfl⟩

/-! ### CALC_CRC -/

theorem pollCrcTest_ready {head : Nat} {v : Byte} {s : State} (h : v &&& s.cfg.masks.divIrqCrc ≠ 0) :
    pollCrcTest head v s = .next { s with scratch.divv := v, seq.crcI := s.seq.crcI + 1, res.rbool := true } :=
  if_pos ((crcReady_iff ..).mpr h)

theorem pollCrcTest_exhausted {head : Nat} {v : Byte} {s : State} (h : ¬v &&& s.cfg.masks.divIrqCrc ≠ 0)
    (hn : s.seq.crcI + 1 = s.cfg.crcPollMax) :
    pollCrcTest head v s = .next { s with scratch.divv := v, seq.crcI := s.seq.crcI + 1, res.rbool := false } :=
  (if_neg fun e => h ((crcReady_iff ..).mp e)).trans (if_pos hn)

theorem pollCrcTest_again {head : Nat} {v : Byte} {s : State} (h : ¬v &&& s.cfg.masks.divIrqCrc ≠ 0)
    (hn : ¬s.seq.crcI + 1 = s.cfg.crcPollMax) :
    pollCrcTest head v s = .goto head { s with scratch.divv := v, seq.crcI := s.seq.crcI + 1 } :=
  (if_neg fun e => h ((crcReady_iff ..).mp e)).trans (if_neg hn)

/-- Settles O49: the poll's three outcomes are those of its test, and the high byte's read ends the command. -/
theorem calcCrcPollAndResult : Obligations.CalcCrcPollAndResult := by
  rintro v rest s h rfl he
  have hlen := length_calcCrc s
  have hline {k : Nat} {l : Line} (hk : (pollCrc s.cfg ((calcCrcHead s).length + 1))[k]? = some l) :
      (linesOf .calcCrc s)[(calcCrcHead s).length + (k + 1) - 1]? = some l := calcCrc_poll hk rfl
  have hread := hline (pollCrc_read ..)
  refine ⟨fun hp => ?_, fun hp => ?_, fun hp => ?_, fun hp hsel => ?_⟩
  · exact ⟨_, continues_next (v := 0) rfl hp (hline (pollCrc_start ..)) (by omega) rfl rfl
      ⟨rfl, rfl, rfl, rfl, rfl, rfl⟩ rfl, rfl⟩
  · split
    next hv =>
      have hx := exec_line_next rfl hp hread (by omega) (perform_answer_of he rfl) (pollCrcTest_ready hv) (perform_pos ..)
      exact ⟨_, hx, rfl, rfl, rfl, perform_xfer_trace he, rfl, rfl⟩
    next hv =>
    split
    next hn =>
      have hx := exec_line_next rfl hp hread (by omega) (perform_answer_of he rfl) (pollCrcTest_exhausted hv hn)
        (perform_pos ..)
      exact ⟨_, hx, rfl, rfl, rfl, perform_xfer_trace he, rfl, rfl⟩
    next hn =>
      have hx := exec_line_goto rfl hp hread (by omega) (perform_answer_of he rfl) (pollCrcTest_again hv hn)
      exact ⟨_, hx, rfl, rfl, rfl, perform_xfer_trace he, rfl, rfl⟩
  · exact ⟨_, continues_next (v := v) rfl hp (hline (pollCrc_low ..)) (by omega) (perform_answer_of he rfl) rfl
      ⟨rfl, rfl, rfl, rfl, rfl, rfl⟩ (perform_pos ..), rfl⟩
  · obtain ⟨hx, hend, htr⟩ := exec_xfer_finish rfl hp (hline (pollCrc_high ..)) hsel he rfl rfl rfl
    refine ⟨_, hx, hend, htr, ?_⟩
    rw [finish_res, crcOfBytes_eq]; rfl

/-- Settles O50: both give the CRC of the buffer, CALC_CRC by putting its two halves together. -/
theorem calcCrcAgreesWithCrc16 : Obligations.CalcCrcAgreesWithCrc16 := by
  intro rest s hp hlo he
  obtain ⟨u, hu, -, -, hres⟩ := crc16Result s
  have hx := exec_line_halt rfl hp (calcCrc_poll (k := 3) (pollCrc_high ..) rfl) (perform_answer_of he rfl) rfl
  refine ⟨_, u, hx, hu, congrArg Results.status (finish_res _), ?_⟩
  rw [hres, finish_res, perform_lo, hlo]
  exact crcOfBytes_halves _

end Sys2Proof.Machine
end

section
/-! Runs of a transport command: the states reached step by step while none of its lines ends it, with the events made and the answers
left, and a run over a list of items of the same shape. -/

namespace Sys2Proof.Machine

/-- The command runs and the host has nothing pending, so the next step is the command's (10 R22, log 4). -/
structure Running (i : Instr) (s : State) : Prop where
  busy : s.busy = true
  host : s.host = []
  fetched : fetch s = .ok i

/-- From `s`, `n` steps of the running command lead to `t`, at line `p`: they have added `es` to the trace and left `rest` of the
answers, the results and the host's side as they were. -/
structure Reached (i : Instr) (s : State) (n : Nat) (es : List Event) (p : Nat) (rest : List Answer) (t : State) : Prop where
  run : Host.Core.run core n s = .next t
  running : Running i t
  trace : t.trace = s.trace ++ es
  res : t.res = s.res
  side : SameHostSide s t
  pos : t.seq.pos = p
  env : t.env = rest

section
variable {i : Instr} {s t u : State} {n m p q : Nat} {es es' : List Event} {rest rest' : List Answer} {a : Answer}

theorem SameHostSide.refl (s : State) : SameHostSide s s := ⟨rfl, rfl, rfl, rfl, rfl, rfl, rfl, rfl⟩

theorem SameHostSide.data (h : SameHostSide s t) : t.data = s.data := by
  obtain ⟨-, -, -, -, -, hlatch, -⟩ := h
  rw [State.data, State.data, hlatch]

theorem SameHostSide.dataLen (h : SameHostSide s t) : t.dataLen = s.dataLen := congrArg List.length h.data

theorem SameHostSide.cfg (h : SameHostSide s t) : t.cfg = s.cfg := h.1

theorem SameHostSide.latch (h : SameHostSide s t) : t.latch = s.latch := by
  obtain ⟨-, -, -, -, -, hlatch, -⟩ := h
  exact hlatch

theorem SameHostSide.hostActions (h : SameHostSide s t) : t.host = s.host := by
  obtain ⟨-, -, -, -, -, -, hhost, -⟩ := h
  exact hhost

theorem run_add {M : Host.Core} {n m : Nat} {s t : M.State} (h : M.run n s = .next t) : M.run (n + m) s = M.run m t := by
  induction n generalizing s with
  | zero => rw [Nat.zero_add]; cases h; rfl
  | succ n ih =>
    rw [Nat.succ_add, Host.Core.run]
    rw [Host.Core.run] at h
    split at h
    · exact ih h
    · cases h
    · cases h

theorem run_one {M : Host.Core} {s t : M.State} (h : M.step s = .next t) : M.run 1 s = .next t := by
  rw [Host.Core.run, h]; rfl

/-- The running command's step is one step of the machine. -/
theorem Running.run_one (hr : Running i s) (hx : exec i s = .next t) : Host.Core.run core 1 s = .next t :=
  Machine.run_one (M := core) ((step_exec hr.busy hr.fetched hr.host).trans hx)

namespace Reached

theorem start (hr : Running i s) (he : s.env = rest) : Reached i s 0 [] s.seq.pos rest s :=
  ⟨rfl, hr, (List.append_nil _).symm, rfl, .refl s, rfl, he⟩

theorem trans (h : Reached i s n es p rest t) (g : Reached i t m es' q rest' u) :
    Reached i s (n + m) (es ++ es') q rest' u :=
  ⟨(run_add h.run).trans g.run, g.running, by rw [g.trace, h.trace, List.append_assoc], g.res.trans h.res,
    h.side.trans g.side, g.pos, g.env⟩

/-- One line of the running command. -/
theorem of_continues (hr : Running i s) (c : Continues i s es p t) :
    Reached i s 1 es p (s.env.drop (transactions es)) t := by
  obtain ⟨hx, htr, hpos, hbusy, hres, -, -, henv⟩ := c
  have hside := exec_sameHostSide hx
  have hrun : Running i t :=
    ⟨hbusy.trans hr.busy, hside.hostActions.trans hr.host, (fetch_congr hside.latch).trans hr.fetched⟩
  exact ⟨hr.run_one hx, hrun, htr, hres, hside, hpos, henv⟩

/-- A line that uses no answer. -/
theorem silent (h : Reached i s n es p rest t) (c : Continues i t es' q u) (h0 : transactions es' = 0) :
    Reached i s (n + 1) (es ++ es') q rest u := by
  have g := of_continues h.running c
  rw [h0, h.env] at g
  exact h.trans g

/-- A line that uses one answer. -/
theorem answered (h : Reached i s n es p (a :: rest) t) (c : Continues i t es' q u) (h1 : transactions es' = 1) :
    Reached i s (n + 1) (es ++ es') q rest u := by
  have g := of_continues h.running c
  rw [h1, h.env] at g
  exact h.trans g

/-- The step that ends the command. -/
theorem run_end (h : Reached i s n es p rest t) (hx : exec i t = .next u) : Host.Core.run core (n + 1) s = .next u :=
  (run_add h.run).trans (h.running.run_one hx)

theorem atLine (h : Reached i s n es p rest t) (hp : 1 ≤ p) : AtLine p t := ⟨h.pos, hp⟩

/-- The same run with its count, events and line written another way. -/
theorem congr {n' p' : Nat} (h : Reached i s n es p rest t) (hn : n = n') (he : es = es') (hp : p = p') :
    Reached i s n' es' p' rest t := by subst hn he hp; exact h

/-- A run over a list: `m` steps for each item, with its events and answers, from line `pos k` and the invariant `I k` of `k` items
done to those of `k + 1`. -/
theorem each {α : Type} {L : List α} {ev : α → List Event} {ans : α → List Answer} {I : Nat → State → Prop}
    {pos : Nat → Nat}
    (hstep : ∀ k x u r, L[k]? = some x → Running i u → SameHostSide s u → u.seq.pos = pos k → I k u →
      u.env = ans x ++ r → ∃ t, Reached i u m (ev x) (pos (k + 1)) r t ∧ I (k + 1) t)
    (hr : Running i s) (hp : s.seq.pos = pos 0) (hI : I 0 s) (he : s.env = L.flatMap ans ++ rest) :
    ∃ t, Reached i s (m * L.length) (L.flatMap ev) (pos L.length) rest t ∧ I L.length t := by
  suffices h : ∀ (xs pre : List α) (u : State), L = pre ++ xs → Running i u → SameHostSide s u →
      u.seq.pos = pos pre.length → I pre.length u → u.env = xs.flatMap ans ++ rest →
      ∃ t, Reached i u (m * xs.length) (xs.flatMap ev) (pos L.length) rest t ∧ I L.length t from
    h L [] s rfl hr (.refl s) hp hI he
  intro xs
  induction xs with
  | nil =>
    rintro pre u rfl hu - hpos hI henv
    rw [List.append_nil]
    exact ⟨u, (start hu henv).congr rfl rfl hpos, hI⟩
  | cons x xs ih =>
    intro pre u hL hu hside hpos hI henv
    rw [List.flatMap_cons, List.append_assoc] at henv
    obtain ⟨t, ht, hIt⟩ := hstep pre.length x u _ (by simp [hL]) hu hside hpos hI henv
    obtain ⟨w, hw, hIw⟩ := ih (pre ++ [x]) t (by simp [hL]) ht.running (hside.trans ht.side)
      (by simpa using ht.pos) (by simpa using hIt) ht.env
    exact ⟨w, (ht.trans hw).congr (by rw [List.length_cons, Nat.mul_succ, Nat.add_comm]) rfl rfl, hIw⟩

/-- A run over a list with one line, one event and one answer for each item, from line `q` on. -/
theorem each_line {α : Type} {L : List α} {ev : α → Event} {ans : α → Byte} {I : Nat → State → Prop} (hq : 1 ≤ q)
    (hev : ∀ x, (ev x).isTransaction = true)
    (hstep : ∀ k x u r, L[k]? = some x → SameHostSide s u → AtLine (q + k) u → I k u → u.env = .ok (ans x) :: r →
      ∃ t, Continues i u [ev x] (q + (k + 1)) t ∧ I (k + 1) t)
    (hr : Running i s) (hp : s.seq.pos = q) (hI : I 0 s) (he : s.env = L.map (fun x => .ok (ans x)) ++ rest) :
    ∃ t, Reached i s L.length (L.map ev) (q + L.length) rest t ∧ I L.length t := by
  have h := each (i := i) (m := 1) (ev := fun x => [ev x]) (ans := fun x => [.ok (ans x)]) (pos := (q + ·)) (I := I)
    (L := L) (rest := rest) (fun k x u r hx hu hside hpos hI henv => by
      obtain ⟨t, c, hIt⟩ := hstep k x u r hx hside ⟨hpos, by omega⟩ hI henv
      have g := of_continues hu c
      rw [henv, show transactions [ev x] = 1 by simp [transactions, hev]] at g
      exact ⟨t, g, hIt⟩)
    hr hp hI (by rw [he, ← List.map_eq_flatMap])
  rwa [Nat.one_mul, ← List.map_eq_flatMap] at h

end Reached

end

end Sys2Proof.Machine
end

section
/-! The runs of the link commands (41_link_a.md R122, R125, R129): a write window, a status poll and a read window as runs, and the
whole runs they make up. -/

namespace Sys2Proof.Machine

section
variable {i : Instr} {s t : State} {n p : Nat} {v : Byte} {w : Word} {rest : List Answer} {pos : State → Nat}

/-- The answers of a run over bytes paired with what answers them. -/
theorem map_answers_zip {bs vs : List Byte} (h : vs.length ≤ bs.length) :
    ((bs.zip vs).map fun x => Answer.ok x.2) = okAnswers vs := by
  conv_rhs => rw [okAnswers, ← List.map_snd_zip h, List.map_map]
  rfl

/-- The events of such a run that do not depend on the answers. -/
theorem map_events_zip {bs vs : List Byte} (h : bs.length ≤ vs.length) (f : Byte → Event) :
    ((bs.zip vs).map fun x => f x.1) = bs.map f := by
  conv_rhs => rw [← List.map_fst_zip h, List.map_map]
  rfl

/-- A write window that stands first, up to its last frame byte. -/
theorem reached_writeWindow {ok : State → Prop} {vs : List Byte} (hw : WriteWindowLines i ok) (hr : Running i s)
    (hready : Ready .ctrlA s) (hok : ok s) (hv : vs.length = s.dataLen + 9) (he : s.env = okAnswers vs ++ rest) :
    ∃ t, Reached i s (s.dataLen + 10)
      ([.sel true, .tx s.cfg.link.mkWrite true] ++ (buildFrame s.cfg .h2c s.data).map (Event.tx · true))
      (s.dataLen + 11) rest t := by
  obtain ⟨v, ws, rfl⟩ := List.exists_cons_of_length_eq_add_one hv
  have hframe : (buildFrame s.cfg .h2c s.data).length = s.dataLen + 8 := buildFrame_length ..
  have hws : ws.length = s.dataLen + 8 := Nat.succ.inj hv
  have hzip : ((buildFrame s.cfg .h2c s.data).zip ws).length = s.dataLen + 8 := by
    rw [List.length_zip, hframe, hws, Nat.min_self]
  obtain ⟨hsel, -, -⟩ := hw s v []
  obtain ⟨t1, c1⟩ := hsel hready hok
  have r1 := (Reached.start hr he).silent c1 rfl
  obtain ⟨-, hmark, -⟩ := hw t1 v (okAnswers ws ++ rest)
  obtain ⟨t2, c2⟩ := hmark (r1.atLine (by decide)) r1.env
  have r2 := r1.answered c2 rfl
  obtain ⟨t3, r3, -⟩ := Reached.each_line (I := fun _ _ => True) (ev := fun x => .tx x.1 true) (ans := Prod.snd) (q := 3)
    (L := (buildFrame s.cfg .h2c s.data).zip ws) (rest := rest) (by decide) (fun _ => rfl) (fun k x u r hx hside hp _ henv => by
      obtain ⟨hb, -⟩ := List.getElem?_zip_eq_some.mp hx
      have hside' := r2.side.trans hside
      obtain ⟨-, -, hbyte⟩ := hw u x.2 r
      obtain ⟨t, c⟩ := hbyte k x.1 hp (by rw [hside'.cfg, hside'.data]; exact hb) henv
      exact ⟨t, (show 4 + k = 3 + (k + 1) by omega) ▸ c, trivial⟩)
    r2.running r2.pos trivial (by
      rw [r2.env, map_answers_zip (by omega)]; rfl)
  refine ⟨t3, (r2.trans r3).congr (by omega) ?_ (by omega)⟩
  rw [r1.side.cfg, map_events_zip (by omega) (Event.tx · true)]; rfl

/-- A read window whose select line is next, up to its last byte: it gathers the bytes received. -/
theorem reached_readWindow {vs : List Byte} (hw : ReadWindowLines i pos n) (hr : Running i s)
    (hpos : ∀ u, SameHostSide s u → pos u = p) (hp : s.seq.pos = p) (h1 : 1 ≤ p) (hv : vs.length = n) (he : s.env = okAnswers (v :: vs) ++ rest) :
    ∃ t, Reached i s (n + 2) ([.sel true, .tx s.cfg.link.mkRead true] ++ vs.map fun v => .rx (.ok v)) (p + 2 + n) rest t ∧
      t.locals.rx = vs := by
  obtain ⟨hsel, -, -⟩ := hw s v [] p (hpos s (.refl s)).symm
  obtain ⟨t1, c1, hrx1⟩ := hsel ⟨hp, h1⟩
  have r1 := (Reached.start hr he).silent c1 rfl
  obtain ⟨-, hmark, -⟩ := hw t1 v (okAnswers vs ++ rest) p (hpos t1 r1.side).symm
  obtain ⟨t2, c2, hrx2⟩ := hmark (r1.atLine (by omega)) r1.env
  have r2 := r1.answered c2 rfl
  obtain ⟨t3, r3, hrx3⟩ := Reached.each_line (I := fun k u => u.locals.rx = vs.take k)
    (ev := fun x => .rx (.ok x)) (ans := id) (q := p + 2) (L := vs) (rest := rest) (by omega) (fun _ => rfl) (fun k x u r hx hside hp hI henv => by
      obtain ⟨-, -, hbyte⟩ := hw u x r p (hpos u (r2.side.trans hside)).symm
      obtain ⟨hk, -⟩ := List.getElem?_eq_some_iff.mp hx
      obtain ⟨t, c, hrx⟩ := hbyte k (by omega) hp henv
      refine ⟨t, (show p + 3 + k = p + 2 + (k + 1) by omega) ▸ c, ?_⟩
      rw [hrx, hI, List.take_add_one, hx]; rfl)
    r2.running r2.pos (by rw [hrx2, hrx1]; rfl) r2.env
  refine ⟨t3, (r2.trans r3).congr (by omega) ?_ (by omega), by rw [hrx3, List.take_length]⟩
  rw [r1.side.cfg]; rfl

/-- A status poll whose select line is next, up to its byte. -/
theorem reached_poll (hw : WaitLines i w pos) (hr : Running i s) (hpos : ∀ u, SameHostSide s u → pos u = p)
    (hp : s.seq.pos = p + 1) (he : s.env = pollAnswers v ++ rest) :
    ∃ t, Reached i s 3 [.sel true, .tx s.cfg.link.mkStatus true, .rx (.ok v)] (p + 4) rest t ∧
      t.locals.status = v ∧ t.seq.elapsed = s.seq.elapsed := by
  obtain ⟨-, hsel, -⟩ := hw s v [] p (hpos s (.refl s)).symm
  obtain ⟨t1, c1, e1⟩ := hsel ⟨hp, by omega⟩
  have r1 := (Reached.start hr he).silent c1 rfl
  obtain ⟨-, -, hmark, -⟩ := hw t1 0 (.ok v :: rest) p (hpos t1 r1.side).symm
  obtain ⟨t2, c2, e2⟩ := hmark (r1.atLine (by omega)) r1.env
  have r2 := r1.answered c2 rfl
  obtain ⟨-, -, -, hbyte, -⟩ := hw t2 v rest p (hpos t2 r2.side).symm
  obtain ⟨t3, c3, hst, e3⟩ := hbyte (r2.atLine (by omega)) r2.env
  exact ⟨t3, (r2.answered c3 rfl).congr rfl (by rw [r1.side.cfg]; rfl) rfl, hst, e3.trans (e2.trans e1)⟩

/-- A wait whose first poll is ready, from its first line on; `hexit` is the rule's own deselect line. -/
theorem reached_readyWait (hw : WaitLines i w pos) (hr : Running i s) (hpos : ∀ u, SameHostSide s u → pos u = p)
    (hexit : ∀ u, SameHostSide s u → AtLine (p + 4) u → u.locals.status = u.cfg.link.ready →
      ∃ t, Continues i u [.sel false] (p + 6) t)
    (hp : s.seq.pos = p) (h1 : 1 ≤ p) (he : s.env = pollAnswers s.cfg.link.ready ++ rest) :
    ∃ t, Reached i s 5 (pollEvents s.cfg s.cfg.link.ready) (p + 6) rest t := by
  obtain ⟨hstart, -⟩ := hw s 0 [] p (hpos s (.refl s)).symm
  obtain ⟨t1, c1, -⟩ := hstart ⟨hp, h1⟩
  have r1 := (Reached.start hr he).silent c1 rfl
  obtain ⟨t2, p2, hst, -⟩ := reached_poll hw r1.running (fun u hu => hpos u (r1.side.trans hu)) r1.pos r1.env
  have r2 := r1.trans p2
  obtain ⟨t3, c3⟩ := hexit t2 r2.side (r2.atLine (by omega)) (by rw [hst, r2.side.cfg])
  exact ⟨t3, (r2.silent c3 rfl).congr rfl (by rw [r1.side.cfg]; rfl) rfl⟩

/-- A poll that is not ready and goes on to its delay, then back to the loop head: the wait adds to ELAPSED what `d` says. -/
theorem reached_unreadyPoll {d : Nat} (hw : WaitLines i w pos) (hr : Running i s) (hpos : ∀ u, SameHostSide s u → pos u = p)
    (hp : s.seq.pos = p + 1) (hv : v ≠ s.cfg.link.ready)
    (hd : w = 0 ∧ d = 0 ∨ w ≠ 0 ∧ d = s.cfg.pollStepMs ∧ s.seq.elapsed + s.cfg.pollStepMs ≤ w.toNat)
    (he : s.env = pollAnswers v ++ rest) :
    ∃ t, Reached i s 5 (pollEvents s.cfg v ++ [.delay (s.cfg.pollStepMs * 1000)]) (p + 1) rest t ∧
      t.seq.elapsed = s.seq.elapsed + d := by
  obtain ⟨t1, r1, hst, e1⟩ := reached_poll hw hr hpos hp he
  have hv1 : t1.locals.status ≠ t1.cfg.link.ready := by rwa [hst, r1.side.cfg]
  obtain ⟨-, -, -, -, hforever, hcounts, -⟩ := hw t1 0 [] p (hpos t1 r1.side).symm
  have hclose : ∃ t, Continues i t1 [.sel false] (p + 5) t ∧ t.seq.elapsed = s.seq.elapsed + d := by
    obtain ⟨hw0, rfl⟩ | ⟨hw0, rfl, hle⟩ := hd
    · obtain ⟨t, c, e⟩ := hforever (r1.atLine (by omega)) hv1 hw0
      exact ⟨t, c, e.trans e1⟩
    · obtain ⟨t, c, e⟩ := hcounts (r1.atLine (by omega)) hv1 hw0 (by rw [e1, r1.side.cfg]; exact hle)
      exact ⟨t, c, by rw [e, e1, r1.side.cfg]⟩
  obtain ⟨t2, c2, e2⟩ := hclose
  have r2 := r1.silent c2 rfl
  obtain ⟨-, -, -, -, -, -, hdelay⟩ := hw t2 0 [] p (hpos t2 r2.side).symm
  obtain ⟨t3, c3, e3⟩ := hdelay (r2.atLine (by omega))
  exact ⟨t3, (r2.silent c3 rfl).congr rfl (by rw [r2.side.cfg]; rfl) rfl, e3.trans e2⟩

end

end Sys2Proof.Machine

namespace Sys2Proof

open Machine

/-! ### WRITE_COMMAND (R122) -/

/-- Settles O28: the write window, then the deselect line. -/
theorem writeCommandRun : Obligations.WriteCommandRun := by
  intro s vs rest hbusy hhost hf hready hle hv he
  obtain ⟨hwin, -⟩ := writeCommandLines
  obtain ⟨t, r⟩ := reached_writeWindow hwin ⟨hbusy, hhost, hf⟩ hready hle hv he
  have hx := exec_writeCommand_last (s := t) (by rw [r.side.dataLen]; exact r.atLine (by omega))
  refine ⟨_, r.run_end hx, finish_endedWith _, (finish_env _).trans r.env, ?_, ?_⟩
  · rw [finish_trace_closed rfl]
    refine (congrArg (· ++ [Event.sel false]) r.trace).trans ?_
    rw [List.append_assoc]; rfl
  · rw [finish_res]; exact congrArg (fun x : Results => { x with status := .ok }) r.res

/-! ### WAIT_READY (R125) -/

/-- Settles O33: every poll leads back to the loop head. -/
theorem waitReadyPollsForever : Obligations.WaitReadyPollsForever := by
  intro s vs rest hbusy hhost hf hpos hvs he
  have hr : Running (.waitReady 0) s := ⟨hbusy, hhost, hf⟩
  obtain ⟨t, r, -⟩ := Reached.each (I := fun _ _ => True) (pos := fun _ => 2) (m := 5)
    (ev := fun v => pollEvents s.cfg v ++ [.delay (s.cfg.pollStepMs * 1000)]) (ans := pollAnswers) (L := vs) (rest := rest)
    (fun k v u r hv hu hside hp _ henv => by
      obtain ⟨t, ht, -⟩ := reached_unreadyPoll (d := 0) (waitReady_waitLines 0) hu (fun _ _ => rfl) hp
        (by rw [hside.cfg]; exact hvs v (List.mem_of_getElem? hv)) (.inl ⟨rfl, rfl⟩) henv
      exact ⟨t, by rw [← hside.cfg]; exact ht, trivial⟩)
    hr hpos trivial he
  exact ⟨t, r.run, r.running.busy, r.pos, r.side.latch, r.env, r.trace⟩

/-- Settles O34: after `k` polls that are not ready ELAPSED is `10 k`, so it passes T at the poll after the last of them. -/
theorem waitReadyExpires : Obligations.WaitReadyExpires := by
  intro w s vs v rest hbusy hhost hf hready hstep hw hlen hvs he
  have hwait := waitReady_waitLines w
  obtain ⟨hfirst, -⟩ := waitReadyLines w s v rest
  obtain ⟨t0, c0, e0⟩ := hfirst hready
  have r0 := (Reached.start ⟨hbusy, hhost, hf⟩ he).silent c0 rfl
  obtain ⟨t1, r1, e1⟩ := Reached.each (I := fun k u => u.seq.elapsed = 10 * k) (pos := fun _ => 2) (m := 5)
    (ev := fun u => pollEvents s.cfg u ++ [.delay 10000]) (ans := pollAnswers) (L := vs)
    (rest := pollAnswers v ++ rest) (fun k x u r hx hu hside hp hI henv => by
      have hside' := r0.side.trans hside
      obtain ⟨hk, -⟩ := List.getElem?_eq_some_iff.mp hx
      have hstepu : u.cfg.pollStepMs = 10 := by rw [hside'.cfg, hstep]
      obtain ⟨t, ht, e⟩ := reached_unreadyPoll (d := 10) hwait hu (fun _ _ => rfl) hp
        (by rw [hside'.cfg]; exact hvs x (List.mem_append_left _ (List.mem_of_getElem? hx)))
        (.inr ⟨hw, hstepu.symm, by rw [hI, hstepu]; omega⟩) henv
      rw [hside'.cfg, hstep] at ht
      exact ⟨t, ht, by rw [e, hI, Nat.mul_succ]⟩)
    r0.running r0.pos e0 (by rw [r0.env, List.flatMap_append, List.append_assoc, List.flatMap_singleton])
  obtain ⟨t2, r2, hst, e2⟩ := reached_poll hwait r1.running (fun _ _ => rfl) r1.pos r1.env
  have hside2 := (r0.side.trans r1.side).trans r2.side
  have hx := exec_wait_expired (i := .waitReady w) rfl (r2.atLine (by decide)) (seqWait_test ..)
    (by rw [hst, hside2.cfg]; exact hvs v (by simp)) hw (by rw [e2, e1, hside2.cfg, hstep]; omega) rfl
  have r := (r0.trans r1).trans r2
  have hrun := r.run_end hx
  rw [show 0 + 1 + 5 * vs.length + 3 + 1 = 1 + 5 * (w.toNat / 10) + 4 by omega] at hrun
  refine ⟨_, hrun, finish_endedWith _, (finish_env _).trans r.env, ?_, ?_⟩
  · rw [waitReadyDone, finish_res, ← hst, ← r.res]; rfl
  · rw [waitReadyDone, finish_trace_closed rfl]
    refine (congrArg (· ++ [Event.sel false]) r.trace).trans ?_
    rw [r1.side.cfg, r0.side.cfg, pollEvents]
    simp only [List.append_assoc]; rfl

/-! ### EXCHANGE (R129) -/

/-- Settles O37: the five windows, with the lines that lead from each to the next. -/
theorem exchangeRun : Obligations.ExchangeRun := by
  intro m w s vs rs q x y rest hbusy hhost hf hready hle hm hack hv hrs hparse he
  obtain ⟨hwin, hwait1, hread1, hwait2, hread2, hdec⟩ := exchangeDecisions m w
  have hline {k : Nat} {t : State} (ht : SameHostSide s t) (u : State) (hu : SameHostSide t u) :
      u.dataLen + k = s.dataLen + k := by rw [hu.dataLen, ht.dataLen]
  simp only [List.append_assoc] at he
  obtain ⟨t1, r1⟩ := reached_writeWindow hwin ⟨hbusy, hhost, hf⟩ hready ⟨hle, hm⟩ hv he
  have d1 := hdec t1; rw [r1.side.dataLen] at d1
  obtain ⟨hclose, -⟩ := d1
  obtain ⟨t2, c2, -⟩ := hclose (r1.atLine (by omega))
  have r2 := r1.silent c2 rfl
  have exit1 (u : State) (hu : SameHostSide t2 u) (hp : AtLine (s.dataLen + 12 + 4) u)
      (hst : u.locals.status = u.cfg.link.ready) : ∃ t, Continues (.exchange m w) u [.sel false] (s.dataLen + 12 + 6) t := by
    have d := hdec u; rw [(r2.side.trans hu).dataLen] at d
    obtain ⟨-, -, -, -, hexit, -⟩ := d
    obtain ⟨t, c, -⟩ := hexit hp hst
    exact ⟨t, c⟩
  obtain ⟨t3, p3⟩ := reached_readyWait hwait1 r2.running (hline r2.side) exit1 r2.pos (by omega) (by rw [r2.env, r2.side.cfg])
  have r3 := r2.trans p3
  obtain ⟨t4, p4, hrx4⟩ := reached_readWindow hread1 r3.running (hline r3.side) r3.pos (by omega) hack r3.env
  have r4 := r3.trans p4
  have d4 := hdec t4; rw [r4.side.dataLen] at d4
  obtain ⟨-, -, -, -, -, hacked, -⟩ := d4
  obtain ⟨t5, c5, -⟩ := hacked (r4.atLine (by omega)) (by rw [hrx4, hack]) (by rw [hrx4, r4.side.cfg])
  have r5 := r4.silent c5 rfl
  have exit2 (u : State) (hu : SameHostSide t5 u) (hp : AtLine (s.dataLen + 27 + 4) u)
      (hst : u.locals.status = u.cfg.link.ready) : ∃ t, Continues (.exchange m w) u [.sel false] (s.dataLen + 27 + 6) t := by
    have d := hdec u; rw [(r5.side.trans hu).dataLen] at d
    obtain ⟨-, -, -, -, -, -, -, hexit, -⟩ := d
    obtain ⟨t, c, -⟩ := hexit hp hst
    exact ⟨t, c⟩
  obtain ⟨t6, p6⟩ := reached_readyWait hwait2 r5.running (hline r5.side) exit2 r5.pos (by omega) (by rw [r5.env, r5.side.cfg])
  have r6 := r5.trans p6
  obtain ⟨t7, p7, hrx7⟩ := reached_readWindow hread2 r6.running (hline r6.side) r6.pos (by omega) hrs r6.env
  have r7 := r6.trans p7
  have hx := exec_exchange_last (m := m) (w := w) (s := t7) (by rw [r7.side.dataLen]; exact r7.atLine (by omega))
  rw [exchangeParse_ok (s := driveSel false t7) (q := q) (by
    rw [show (driveSel false t7).locals.rx = rs from hrx7]; exact r7.side.cfg ▸ hparse)] at hx
  have hrun := r7.run_end hx
  rw [show s.dataLen + 10 + 1 + 5 + (6 + 2) + 1 + 5 + (m.toNat + 2) + 1 = s.dataLen + 33 + m.toNat by omega] at hrun
  refine ⟨_, hrun, finish_endedWith _, (finish_env _).trans r7.env, finish_xstate _, ?_, ?_⟩
  · rw [finish_res, ← r7.res]; rfl
  · rw [finish_trace_closed rfl]
    refine (congrArg (· ++ [Event.sel false]) r7.trace).trans ?_
    rw [r6.side.cfg, r5.side.cfg, r3.side.cfg, r2.side.cfg, writeEvents, readEvents, readEvents]
    simp only [List.append_assoc]

end Sys2Proof
end

section
/-! The runs of the register commands (43_cmd_engine.md R170, R173, R174, R176, R180): the transactions up to the command write, and
the interrupt poll until it gives up. -/

namespace Sys2Proof.Machine

section
variable {i : Instr} {b : Backend} {s : State} {p : Nat} {reg x v : Byte} {rest : List Answer}

/-- A register write that goes on to the next line. -/
theorem continues_regWrite (h : i.opcode.backend = some b) (hp : AtLine p s)
    (hl : (linesOf i s)[p - 1]? = some (regWrite s.cfg reg x)) (hn : p < (linesOf i s).length) (he : s.env = .ok v :: rest) :
    ∃ t, Continues i s [writeEvent s.cfg reg x v] (p + 1) t ∧ t.scratch = s.scratch :=
  ⟨_, continues_next (v := v) h hp hl hn (perform_answer_of he rfl) rfl (SameRun.refl _) (perform_pos ..),
    perform_scratch ..⟩

/-- A read-modify-write within a rule: its two lines. -/
theorem reached_modify {y : Byte} {f : Config → Byte → Byte} {r : Config → Byte} (h : i.opcode.backend = some b)
    (hr : Running i s) (hread : ∀ u, (linesOf i u)[p - 1]? = some (regRead u.cfg (r u.cfg) setVtmp))
    (hwrite : ∀ u, (linesOf i u)[p]? = some (regWrite u.cfg (r u.cfg) (f u.cfg u.scratch.vtmp)))
    (hn : ∀ u, p + 1 < (linesOf i u).length) (hp : s.seq.pos = p) (h1 : 1 ≤ p) (he : s.env = .ok v :: .ok y :: rest) :
    ∃ t, Reached i s 2 [readEvent s.cfg (r s.cfg) v, writeEvent s.cfg (r s.cfg) (f s.cfg v) y] (p + 2) rest t ∧
      t.scratch = { s.scratch with vtmp := v } := by
  have hn' := hn s
  have c1 := continues_next (v := v) h ⟨hp, h1⟩ (hread s) (by omega) (perform_answer_of he rfl) rfl
    ⟨rfl, rfl, rfl, rfl, rfl, rfl⟩ (perform_pos ..)
  have r1 := (Reached.start hr he).answered c1 rfl
  obtain ⟨t2, c2, hs2⟩ := continues_regWrite h (r1.atLine (by omega)) (hwrite _) (hn _) r1.env
  have r2 := r1.answered c2 rfl
  refine ⟨t2, ?_, hs2⟩
  rw [r1.side.cfg] at r2
  exact r2

/-- The FIFO writes of the data, from line `p` on (R174). -/
theorem reached_fifo {fs : List Byte} (h : i.opcode.backend = some b) (hr : Running i s)
    (hl : ∀ u k x, u.data[k]? = some x → (linesOf i u)[p + k - 1]? = some (regWrite u.cfg u.cfg.regs.fifoData x))
    (hn : ∀ u, p + u.dataLen ≤ (linesOf i u).length) (hp : s.seq.pos = p) (h1 : 1 ≤ p) (hf : fs.length = s.dataLen)
    (he : s.env = okAnswers fs ++ rest) :
    ∃ t, Reached i s s.dataLen (List.zipWith (writeEvent s.cfg s.cfg.regs.fifoData) s.data fs) (p + s.dataLen) rest t ∧
      t.scratch = s.scratch := by
  have hlen : (s.data.zip fs).length = s.dataLen := by rw [List.length_zip, hf]; exact Nat.min_self _
  have hr := Reached.each_line (I := fun _ u => u.scratch = s.scratch)
    (ev := fun x => writeEvent s.cfg s.cfg.regs.fifoData x.1 x.2) (ans := Prod.snd) (L := s.data.zip fs) (rest := rest) h1
    (fun _ => rfl) (fun k x u r hx hside hp hI henv => by
      obtain ⟨hb, -⟩ := List.getElem?_zip_eq_some.mp hx
      obtain ⟨hk, -⟩ := List.getElem?_eq_some_iff.mp hx
      have hnu := hn u
      rw [hside.dataLen] at hnu
      obtain ⟨t, c, hs⟩ := continues_regWrite h hp (hl u k x.1 (by rw [hside.data]; exact hb)) (by omega) henv
      rw [hside.cfg] at c
      exact ⟨t, c, hs.trans hI⟩)
    hr hp rfl (by rw [he, map_answers_zip (bs := s.data) (le_of_eq hf)])
  rw [hlen, List.map_zip_eq_zipWith] at hr
  exact hr

/-- The lines EXECUTE_COMMAND and CALC_CRC share: the FIFO flush, the data and the command write. -/
def issueLines (code : Config → Byte) (s : State) : List Line :=
  setBits s s.cfg.regs.fifoLevel s.cfg.masks.fifoLevelFlush ++ fifoWrites s ++ [regWrite s.cfg s.cfg.regs.command (code s.cfg)]

theorem issueLines_data {code : Config → Byte} {k : Nat} {l : Line} (h : s.data[k]? = some x)
    (hl : l = regWrite s.cfg s.cfg.regs.fifoData x) : (issueLines code s)[2 + k]? = some l :=
  getElem?_within ((getElem?_past (k := k) rfl).trans (by rw [fifoWrites, List.getElem?_map, h, hl]; rfl))

theorem issueLines_command (code : Config → Byte) (s : State) :
    (issueLines code s)[2 + s.dataLen]? = some (regWrite s.cfg s.cfg.regs.command (code s.cfg)) :=
  (getElem?_past (k := 0) (by simp [setBits, fifoWrites, State.dataLen, State.data]; omega)).trans rfl

/-- The run of those lines where they stand from line `p` on. -/
theorem reached_issue {code : Config → Byte} {fs : List Byte} {lvl d e : Byte} (h : i.opcode.backend = some b)
    (hr : Running i s) (hl : ∀ u k l, (issueLines code u)[k]? = some l → (linesOf i u)[p + k - 1]? = some l)
    (hn : ∀ u, p + u.dataLen + 2 < (linesOf i u).length) (hp : s.seq.pos = p) (h1 : 1 ≤ p) (hf : fs.length = s.dataLen)
    (he : s.env = okAnswers ([lvl, d] ++ fs ++ [e]) ++ rest) :
    ∃ t, Reached i s (s.dataLen + 3)
      ([readEvent s.cfg s.cfg.regs.fifoLevel lvl,
        writeEvent s.cfg s.cfg.regs.fifoLevel (lvl ||| s.cfg.masks.fifoLevelFlush) d] ++
        List.zipWith (writeEvent s.cfg s.cfg.regs.fifoData) s.data fs ++
        [writeEvent s.cfg s.cfg.regs.command (code s.cfg) e]) (p + s.dataLen + 3) rest t ∧
      t.scratch = { s.scratch with vtmp := lvl } := by
  have henv : s.env = .ok lvl :: .ok d :: (okAnswers fs ++ (.ok e :: rest)) := by simpa [okAnswers] using he
  obtain ⟨t1, r1, hs1⟩ := reached_modify (r := fun c => c.regs.fifoLevel) (f := fun c v => v ||| c.masks.fifoLevelFlush) h hr
    (fun u => hl u 0 _ rfl) (fun u => hl u 1 _ rfl) (fun u => by have := hn u; omega) hp h1 henv
  obtain ⟨t2, r2, hs2⟩ := reached_fifo h r1.running
    (fun u k x hx => (congrArg _ (by omega)).trans (hl u (2 + k) _ (issueLines_data hx rfl)))
    (fun u => by have := hn u; omega) r1.pos (by omega) (hf.trans r1.side.dataLen.symm) r1.env
  have r := r1.trans r2
  have hn3 := hn t2
  rw [r.side.dataLen] at hn3
  rw [r1.side.dataLen] at r
  obtain ⟨t3, c3, hs3⟩ := continues_regWrite h (r.atLine (by omega)) ((congrArg _ (by rw [r.side.dataLen]; omega)).trans
    (hl t2 (2 + t2.dataLen) _ (issueLines_command code t2))) (by omega) r.env
  have r3 := r.answered c3 rfl
  refine ⟨t3, r3.congr (by omega) ?_ (by omega), by rw [hs3, hs2, hs1]⟩
  rw [r.side.cfg, r1.side.cfg, r1.side.data]

end

/-! ### EXECUTE_COMMAND -/

theorem executeCommand_issueLines {cmd : Byte} {s : State} {k : Nat} {l : Line}
    (h : (issueLines (fun _ => cmd) s)[k]? = some l) : (linesOf (.executeCommand cmd) s)[4 + k - 1]? = some l := by
  refine execute_head (getElem?_within ?_)
  rw [List.append_assoc, List.append_assoc, ← List.append_assoc (setBits ..)]
  exact (getElem?_past (k := k) (show 4 + k - 1 = 3 + k by omega)).trans h

theorem length_executeCommand_ge (cmd : Byte) (s : State) : s.dataLen + 12 ≤ (linesOf (.executeCommand cmd) s).length := by
  rw [length_executeCommand, executeHead_length]; omega

/-- Settles O42: the COMIEN write, the pending-flag clear, and the lines shared with CALC_CRC. -/
theorem executeIssuesCommand : Obligations.ExecuteIssuesCommand := by
  intro cmd a irq b lvl d e fs rest s hbusy hhost hf hready hle hlen he
  have hn := length_executeCommand_ge cmd
  have c1 := continues_first (i := .executeCommand cmd) (v := a) rfl hready (exceeding_of_le hle) (execute_head rfl)
    (Nat.lt_of_lt_of_le (by omega) (hn _))
    (perform_answer_of (s := { executeInit cmd s with seq.pos := 1 }) he rfl) rfl (SameRun.refl _) (perform_pos ..)
  have r1 := (Reached.start (i := .executeCommand cmd) ⟨hbusy, hhost, hf⟩ he).answered c1 rfl
  obtain ⟨t2, p2, hs2⟩ := reached_modify (r := fun c => c.regs.comIrq) (f := fun c v => v &&& ~~~c.masks.comIrqSet1)
    rfl r1.running (fun u => execute_head rfl) (fun u => execute_head rfl) (fun u => by have := hn u; omega) r1.pos (by decide) r1.env
  have r2 := r1.trans p2
  obtain ⟨t3, p3, hs3⟩ := reached_issue (code := fun _ => cmd) rfl r2.running (fun u k l => executeCommand_issueLines)
    (fun u => by have := hn u; omega) r2.pos (by decide) (hlen.trans r2.side.dataLen.symm) r2.env
  have r3 := r2.trans p3
  have hdata := r2.side.dataLen
  refine ⟨t3, ?_, r3.running.busy, by rw [r3.pos, hdata]; omega, r3.env, r3.res, by rw [hs3, hs2]; rfl, ?_⟩
  · rw [show s.dataLen + 6 = 0 + 1 + 2 + (t2.dataLen + 3) by omega]; exact r3.run
  · rw [r3.trace, r2.side.cfg, r2.side.data, r1.side.cfg]
    simp only [List.append_assoc]; rfl

/-! ### CALC_CRC -/

theorem calcCrc_issueLines {s : State} {k : Nat} {l : Line} (h : (issueLines (fun c => c.cmds.calcCrc) s)[k]? = some l) :
    (linesOf .calcCrc s)[3 + k - 1]? = some l := by
  refine getElem?_within ?_
  rw [calcCrcHead, List.append_assoc, List.append_assoc, ← List.append_assoc (setBits ..)]
  exact (getElem?_past (k := k) (show 3 + k - 1 = 2 + k by omega)).trans h

theorem length_calcCrc_ge (s : State) : s.dataLen + 9 ≤ (linesOf .calcCrc s).length := by
  rw [length_calcCrc]; simp [calcCrcHead, clearBits, setBits, fifoWrites, State.dataLen, State.data]

/-- Settles O48: the CRC-ready clear, whose read is the first line, and the lines shared with EXECUTE_COMMAND. -/
theorem calcCrcIssuesCommand : Obligations.CalcCrcIssuesCommand := by
  intro irq b lvl d e fs rest s hbusy hhost hf hready hle hlen he
  have hn := length_calcCrc_ge
  have c1 := continues_first (i := .calcCrc) (v := irq) rfl hready (exceeding_of_le hle) rfl
    (Nat.lt_of_lt_of_le (by omega) (hn _)) (perform_answer_of (s := { calcCrcInit s with seq.pos := 1 }) he rfl) rfl
    ⟨rfl, rfl, rfl, rfl, rfl, rfl⟩ (perform_pos ..)
  have r1 := (Reached.start (i := .calcCrc) ⟨hbusy, hhost, hf⟩ he).answered c1 rfl
  obtain ⟨t2, c2, -⟩ := continues_regWrite (i := .calcCrc) rfl (r1.atLine (by decide)) rfl
    (Nat.lt_of_lt_of_le (by omega) (hn _)) r1.env
  have r2 := r1.answered c2 rfl
  obtain ⟨t3, p3, -⟩ := reached_issue (code := fun c => c.cmds.calcCrc) rfl r2.running (fun u k l => calcCrc_issueLines)
    (fun u => by have := hn u; omega) r2.pos (by decide) (hlen.trans r2.side.dataLen.symm) r2.env
  have r3 := r2.trans p3
  have hdata := r2.side.dataLen
  refine ⟨t3, ?_, r3.running.busy, by rw [r3.pos, hdata]; omega, r3.env, r3.res, ?_⟩
  · rw [show s.dataLen + 5 = 0 + 1 + 1 + (t2.dataLen + 3) by omega]; exact r3.run
  · rw [r3.trace, r2.side.cfg, r2.side.data, r1.side.cfg]
    simp only [List.append_assoc]; rfl

/-! ### The interrupt poll -/

/-- A poll with no stop bit and polls left, with its delay, leads back to the loop head. -/
theorem reached_idlePoll {cmd v : Byte} {s : State} {rest : List Answer} (hr : Running (.executeCommand cmd) s)
    (hp : s.seq.pos = (executeHead cmd s).length + 2) (hv : v &&& (s.scratch.waitm ||| s.cfg.masks.irqTimer) = 0)
    (hn : s.seq.pollI + 1 ≠ s.cfg.irqPollMax) (he : s.env = .ok v :: rest) :
    ∃ t, Reached (.executeCommand cmd) s 2 [readEvent s.cfg s.cfg.regs.comIrq v, .delay s.cfg.irqPollDelayUs]
        ((executeHead cmd s).length + 2) rest t ∧
      t.seq.pollI = s.seq.pollI + 1 ∧ t.scratch.waitm = s.scratch.waitm ∧ t.pins = s.pins := by
  have hlen := length_executeCommand cmd s
  have hread := execute_poll (cmd := cmd) (n := (executeHead cmd s).length + 2 - 1) (pollIrq_read ..) rfl
  have c1 := continues_next (v := v) rfl ⟨hp, by omega⟩ hread (by omega) (perform_answer_of he rfl) (pollIrqTest_again hv hn)
    ⟨rfl, rfl, rfl, rfl, rfl, rfl⟩ (perform_pos ..)
  have r1 := (Reached.start hr he).answered c1 rfl
  have hhead := executeHead_length_congr cmd r1.side.cfg r1.side.latch
  have c2 := continues_goto (v := 0) (q := (executeHead cmd s).length + 2) rfl (r1.atLine (by omega))
    (execute_poll (pollIrq_delay ..) (by rw [hhead]; rfl)) (by rw [length_executeCommand, hhead]; omega) rfl
    (by rw [hhead]) (SameRun.refl _)
  have r2 := r1.silent c2 rfl
  exact ⟨_, r2.congr rfl (by rw [r1.side.cfg]; rfl) rfl, rfl, rfl, rfl⟩

/-- Settles O45: POLL_I counts the idle polls, so the one after them is the last and raises. -/
theorem executeExhaustsPolls : Obligations.ExecuteExhaustsPolls := by
  intro cmd s vs v rest hbusy hhost hf hp hsel hlen hvs he
  have hstart := execute_poll (cmd := cmd) (n := (executeHead cmd s).length + 1 - 1) (pollIrq_start ..) rfl
  have c0 := continues_next (v := 0) rfl hp hstart (by rw [length_executeCommand]; omega) rfl rfl
    ⟨rfl, rfl, rfl, rfl, rfl, rfl⟩ rfl
  have r0 := (Reached.start ⟨hbusy, hhost, hf⟩ he).silent c0 rfl
  have hhead (u : State) (hu : SameHostSide s u) := executeHead_length_congr cmd hu.cfg hu.latch
  obtain ⟨t1, r1, hpoll, hwait, hpins⟩ := Reached.each (m := 2) (pos := fun _ => (executeHead cmd s).length + 2)
    (I := fun k u => u.seq.pollI = k ∧ u.scratch.waitm = s.scratch.waitm ∧ u.pins = s.pins)
    (ev := fun u => [readEvent s.cfg s.cfg.regs.comIrq u, .delay s.cfg.irqPollDelayUs]) (ans := fun u => [.ok u]) (L := vs)
    (rest := .ok v :: rest) (fun k x u r hx hu hside hp ⟨hk, hw, hq⟩ henv => by
      have hside' := r0.side.trans hside
      obtain ⟨hlt, -⟩ := List.getElem?_eq_some_iff.mp hx
      have hx0 := hvs x (List.mem_append_left _ (List.mem_of_getElem? hx))
      obtain ⟨t, ht, e1, e2, e3⟩ := reached_idlePoll hu (by rw [hhead u hside']; exact hp)
        (by rw [hw, hside'.cfg]; exact hx0) (by rw [hk, hside'.cfg]; omega) henv
      rw [hhead u hside', hside'.cfg] at ht
      exact ⟨t, ht, e1.trans (congrArg (· + 1) hk), e2.trans hw, e3.trans hq⟩)
    r0.running r0.pos ⟨rfl, rfl, rfl⟩ (by rw [r0.env, ← List.map_eq_flatMap]; simp [okAnswers])
  have r := r0.trans r1
  obtain ⟨hx, hend, hclr, htr⟩ := exec_xfer_raise rfl (r.atLine (by omega))
    (execute_poll (cmd := cmd) (pollIrq_read ..) (by rw [hhead t1 r.side]; rfl)) (by rw [hpins, hsel]) r.env
    (pollIrqTest_last (by rw [perform_scratch, perform_cfg, hwait, r.side.cfg]; exact hvs v (by simp))
      (by rw [perform_seq, perform_cfg, hpoll, r.side.cfg]; exact hlen)) rfl rfl
  have hrun := r.run_end hx
  rw [show 0 + 1 + 2 * vs.length + 1 = 1 + 2 * vs.length + 1 by omega] at hrun
  refine ⟨_, hrun, hend, congrArg Results.rval (raise_res ..), hclr, (raise_env ..).trans (perform_xfer_env
    (a := addrRead t1.cfg t1.cfg.regs.comIrq) (d := t1.cfg.bus.dummy) r.env), ?_⟩
  rw [htr, r.trace, r.side.cfg]; rfl

end Sys2Proof.Machine
end
